-- ==== Sys2Proof/Word.lean ====
section
/-! DEFINITION. The word types of the engine and the pixel record (00_scope.md R13, R15). -/

namespace Sys2Proof

/-- `u8`: a stream byte or one channel of a pixel (R13, R11 CHANNEL_BITS). -/
abbrev Byte := BitVec 8

/-- `u32`: a register word of the host window, and the width of WIDTH and HEIGHT (R13, R11 DIM_BITS). -/
abbrev Word := BitVec 32

/-- `u64`: the width of CUR, BYTES, N and RCAP (R12 CUR_BITS and BYTES_BITS). -/
abbrev Count := BitVec 64

/-- R15: four independent non-premultiplied channels; two pixels are equal when all four are. -/
structure Pixel where
  r : Byte
  g : Byte
  b : Byte
  a : Byte
  deriving DecidableEq, Repr

/-- R15: the zero pixel. -/
def Pixel.zero : Pixel := ⟨0, 0, 0, 0⟩

end Sys2Proof
end

