-- ==== Sys2Proof/Config.lean ====
section
/-! DEFINITION. What is fixed for one engine: the parameters of 00_scope.md R11 and R12, and the free value of host reads
that race with a running pass. -/

namespace Sys2Proof

/-- R11 CACHE_SLOTS. -/
abbrev cacheSlots : Nat := 64

/-- R11 RUN_MAX: the longest run one RUN chunk holds. -/
abbrev runMax : Nat := 62

/-- R11 TRAILER_LEN. -/
abbrev trailerLen : Nat := 8

/-- R11 PREV_INIT. -/
def prevInit : Pixel := ⟨0, 0, 0, 255⟩

/-- R12 REG_WINDOW, in bytes. -/
abbrev regWindow : Nat := 0x100

/-- The MAGIC parameter of R12 and R92: four bytes.  It is a field of State that no step writes, so a statement about
every state is a statement about every value of it. -/
structure Magic where
  m0 : Byte
  m1 : Byte
  m2 : Byte
  m3 : Byte
  deriving DecidableEq, Repr

/-- The four bytes in stream order (R91). -/
def Magic.toBytes (m : Magic) : List Byte := [m.m0, m.m1, m.m2, m.m3]

/-- PRESUMED (log entry 1, unsafe): the default MAGIC the spec uses, 71 6F 69 66 (R92, from general knowledge, not in
the source). -/
def magicDefault : Magic := ⟨0x71, 0x6F, 0x69, 0x66⟩

/-- Free value (DESIGN CHOICE, log entry 8; safe for the value): what a host read of a decode pixel or of an output byte
returns while the busy pass has not yet finished it (R76, R347: no guaranteed value).  No body: nothing can be proved about it. -/
opaque racedByte : Nat → Byte

end Sys2Proof
end

