-- ==== Sys2Proof/Syntax.lean ====
section
/-! DEFINITION. The chunk set, one constructor per row of spec/opcode_table.json (30_encoding.md R100 to R106, R110). -/

namespace Sys2Proof

/-- A chunk with its operands as R106 and R110 give them: unbiased, in the notation's own order. -/
inductive Instr where
  /-- R100: `RUN n`, 1 <= n <= 62. -/
  | run (n : Nat)
  /-- R101: `INDEX i`, 0 <= i <= 63. -/
  | index (i : Fin cacheSlots)
  /-- R102: `DIFF dr, dg, db`, each -2..1. -/
  | diff (dr dg db : Int)
  /-- R103: `LUMA dg, drg, dbg` with drg = dR - dG and dbg = dB - dG. -/
  | luma (dg drg dbg : Int)
  /-- R104: `RGB r, g, b`, raw bytes. -/
  | rgb (r g b : Byte)
  /-- R105: `RGBA r, g, b, a`, raw bytes. -/
  | rgba (r g b a : Byte)
  deriving DecidableEq, Repr

/-- The chunk types, which R98 reads from the first byte alone. -/
inductive Kind where
  | run | index | diff | luma | rgb | rgba
  deriving DecidableEq, Repr

/-- The chunk type of a chunk. -/
def Instr.kind : Instr → Kind
  | .run _ => .run
  | .index _ => .index
  | .diff _ _ _ => .diff
  | .luma _ _ _ => .luma
  | .rgb _ _ _ => .rgb
  | .rgba _ _ _ _ => .rgba

/-- R97 and R11 CHUNK_LEN: the length in bytes. -/
def Kind.length : Kind → Nat
  | .run => 1
  | .index => 1
  | .diff => 1
  | .luma => 2
  | .rgb => 4
  | .rgba => 5

end Sys2Proof
end

