-- ==== Sys2Proof/WellFormed.lean ====
section
/-! DEFINITION. Which operands have an encoding (30_encoding.md R106, R108). -/

namespace Sys2Proof

/-- `lo <= v <= hi`. -/
def inRange (v lo hi : Int) : Bool := decide (lo ≤ v) && decide (v ≤ hi)

/-- R106 and R108: every operand lies in the range its field encodes.  INDEX, RGB and RGBA operands are in range by
their types. -/
def Instr.wf : Instr → Bool
  | .run n => decide (1 ≤ n) && decide (n ≤ runMax)
  | .index _ => true
  | .diff dr dg db => inRange dr (-2) 1 && inRange dg (-2) 1 && inRange db (-2) 1
  | .luma dg drg dbg => inRange dg (-32) 31 && inRange drg (-8) 7 && inRange dbg (-8) 7
  | .rgb _ _ _ => true
  | .rgba _ _ _ _ => true

end Sys2Proof
end

