-- ==== Sys2Proof/Decode.lean ====
section
/-! DEFINITION. The decoder, from stream bytes to a chunk (30_encoding.md R97 to R107), and after it the encoder. -/

namespace Sys2Proof

/-- The `w` bits of a byte from bit `lo` up, bit 0 the least significant (R13 `b[hi:lo]`). -/
def field (b : Byte) (lo w : Nat) : BitVec w := b.extractLsb' lo w

/-- R106: the operand of a biased field, its unsigned value less the bias; no field is sign-extended. -/
def unbias (w : Nat) (v : BitVec w) (bias : Int) : Int := (v.toNat : Int) - bias

/-- R106: the field of a biased operand, operand plus bias. -/
def rebias (w : Nat) (d bias : Int) : BitVec w := BitVec.ofInt w (d + bias)

/-- R98: the chunk type a first byte selects; the two full-byte tags are tested first. -/
def classify (b0 : Byte) : Kind :=
  if b0 = 0xFE#8 then .rgb
  else if b0 = 0xFF#8 then .rgba
  else if field b0 6 2 = 0b00#2 then .index
  else if field b0 6 2 = 0b01#2 then .diff
  else if field b0 6 2 = 0b10#2 then .luma
  else .run

/-- Why a byte sequence is no chunk.  No first byte is illegal (R107), so the only reason is that bytes are missing. -/
inductive DecodeError where
  /-- There is no first byte. -/
  | noFirstByte
  /-- A payload byte of a chunk of this type is missing (R97). -/
  | payloadMissing (k : Kind)
  deriving DecidableEq, Repr

/-- R103: a LUMA chunk from its first byte and what follows. -/
def decodeLuma (b0 : Byte) : List Byte → Except DecodeError (Instr × List Byte)
  | b1 :: rest =>
    .ok (.luma (unbias 6 (field b0 0 6) 32) (unbias 4 (field b1 4 4) 8) (unbias 4 (field b1 0 4) 8), rest)
  | [] => .error (.payloadMissing .luma)

/-- R104: an RGB chunk from what follows its tag. -/
def decodeRgb : List Byte → Except DecodeError (Instr × List Byte)
  | r :: g :: b :: rest => .ok (.rgb r g b, rest)
  | _ => .error (.payloadMissing .rgb)

/-- R105: an RGBA chunk from what follows its tag. -/
def decodeRgba : List Byte → Except DecodeError (Instr × List Byte)
  | r :: g :: b :: a :: rest => .ok (.rgba r g b a, rest)
  | _ => .error (.payloadMissing .rgba)

/-- R97, R98, R106: the chunk at the head of a byte sequence, and the bytes after it.  Total on any bytes. -/
def decode : List Byte → Except DecodeError (Instr × List Byte)
  | [] => .error .noFirstByte
  | b0 :: rest =>
    match classify b0 with
    | .run => .ok (.run ((field b0 0 6).toNat + 1), rest)
    | .index => .ok (.index (field b0 0 6).toFin, rest)
    | .diff =>
      .ok (.diff (unbias 2 (field b0 4 2) 2) (unbias 2 (field b0 2 2) 2) (unbias 2 (field b0 0 2) 2), rest)
    | .luma => decodeLuma b0 rest
    | .rgb => decodeRgb rest
    | .rgba => decodeRgba rest

/-- The bytes of a chunk, tag in the most significant bits of the first (R68, R100 to R105). -/
def encode : Instr → List Byte
  | .run n => [0b11#2 ++ BitVec.ofNat 6 (n - 1)]
  | .index i => [0b00#2 ++ BitVec.ofNat 6 i.val]
  | .diff dr dg db => [0b01#2 ++ rebias 2 dr 2 ++ rebias 2 dg 2 ++ rebias 2 db 2]
  | .luma dg drg dbg => [0b10#2 ++ rebias 6 dg 32, rebias 4 drg 8 ++ rebias 4 dbg 8]
  | .rgb r g b => [0xFE#8, r, g, b]
  | .rgba r g b a => [0xFF#8, r, g, b, a]

/-- The bytes of the table word `w`: bits above `nbits` are 0, the first byte holds bits 7..0, and zero bytes fill up to
the longest chunk (5 bytes). -/
def tableBytes (nbits w : Nat) : List Byte :=
  let v := w % 2 ^ nbits
  [BitVec.ofNat 8 v, BitVec.ofNat 8 (v / 2 ^ 8), BitVec.ofNat 8 (v / 2 ^ 16), BitVec.ofNat 8 (v / 2 ^ 24),
    BitVec.ofNat 8 (v / 2 ^ 32)]

/-- The chunk the decoder reads from a word numbered as spec/opcode_table.json numbers its bits. -/
def decodeTableWord (nbits w : Nat) : Option Instr :=
  match decode (tableBytes nbits w) with
  | .ok (i, _) => some i
  | .error _ => none

end Sys2Proof
end

