-- ==== Sys2Proof/Machine/State.lean ====
section
/-! DEFINITION. The state of the engine, of the spaces it reaches, and of the host's pending moves, as plain data
(10_state.md R20 to R41, 20_memory.md R60 to R66); the reasons a step can stop; and the state after reset. -/

namespace Sys2Proof.Machine

open Sys2Proof

/-- R28: the pass state machine; the codes 10 to 15 are never held. -/
inductive Phase where
  | idle | encHdr | encBody | encTrl | decHdr | decBody | decTrl | peekHdr | done | error
  deriving DecidableEq, Repr

/-- R300: the five errors; `ERR_CODE = 0` is the absence of one, and the codes 6 to 15 are never held. -/
inductive PassError where
  | malformedMagic | truncatedStream | badTrailer | dimensionOverflow | ioError
  deriving DecidableEq, Repr

/-- R61: the raster bytes, as (byte offset, byte) pairs in canonical form: offsets strictly rising and no pair holding
the byte an unlisted offset reads as. -/
abbrev Memory := List Host.Cell

/-- What the host and the stream environment do, and where the engine steps in between (R10, R271; log entry 4).
Each is one atomic event between two engine steps, `engine` being the step itself. -/
inductive Event where
  /-- The engine takes its next step. -/
  | engine
  /-- A host write of `v`, `size` bytes wide, at byte offset `off` of the register window (R260). -/
  | regWrite (off size : Nat) (v : Word)
  /-- A host read, `size` bytes wide, at byte offset `off` of the register window (R261). -/
  | regRead (off size : Nat)
  /-- Hardware reset (R340, R341). -/
  | reset
  /-- The host binds the input stream; the environment draws IN_ERR for it (R63). -/
  | bindInput (bytes : List Byte) (inErr : Option Nat)
  /-- The environment draws OUT_ERR (R64). -/
  | drawOutErr (outErr : Option Nat)
  /-- The host writes pixel `i` of the raster (R274). -/
  | rasterWrite (i : Count) (px : Pixel)
  /-- The host reads pixel `i` of the raster (R76). -/
  | rasterRead (i : Count)
  /-- The host reads byte `k` of the output stream (R76). -/
  | outputRead (k : Nat)
  deriving DecidableEq, Repr

/-- What a host read returned. -/
inductive HostData where
  /-- A register word. -/
  | word (v : Word)
  /-- A raster pixel. -/
  | pixel (px : Pixel)
  /-- An output byte. -/
  | byte (v : Byte)
  /-- The output stream holds no byte at that position. -/
  | noByte
  deriving DecidableEq, Repr

/-- The state of one engine, of its ports, and of the host's moves still to come. -/
structure State where
  /-- R28 -/
  phase : Phase
  /-- R23 -/
  cache : Vector Pixel cacheSlots
  /-- R22 -/
  prev : Pixel
  /-- R24: CUR -/
  cur : Count
  /-- R26: BYTES -/
  bytes : Count
  /-- R27: N -/
  n : Count
  /-- R34: ERR_CODE, none for the code 0 -/
  errCode : Option PassError
  /-- R34 -/
  posValid : Bool
  /-- R34 -/
  errX : Word
  /-- R34 -/
  errY : Word
  /-- R30: CTRL.IRQ_EN -/
  irqEn : Bool
  /-- R32 -/
  width : Word
  /-- R32 -/
  height : Word
  /-- R33: HDR_INFO.CHANNELS -/
  channels : Byte
  /-- R33: HDR_INFO.COLORSPACE -/
  colorspace : Byte
  /-- R35: RCAP -/
  rcap : Count
  /-- R61: the raster space, host memory -/
  raster : Memory
  /-- R63: IN -/
  input : List Byte
  /-- R63: IN_ERR -/
  inErr : Option Nat
  /-- R64: OUT -/
  output : List Byte
  /-- R64: OUT_ERR -/
  outErr : Option Nat
  /-- R92: MAGIC, a parameter that no step writes -/
  magic : Magic
  /-- MODEL'S OWN (log entry 4): the events still to come; with none left the engine steps alone -/
  events : List Event
  /-- MODEL'S OWN (log entry 16): what the host's latest read returned -/
  lastRead : Option HostData
  /-- MODEL'S OWN (log entry 8): the number of free values used so far -/
  raced : Nat
  deriving DecidableEq, Repr

/-- Why the machine stops. -/
inductive Fault where
  /-- Raised by an engine access to a raster pixel at or above RCAP, which R60 and R62 give no existence; no reachable
  state raises it (R204, R238).  Safe (log entry 9). -/
  | rasterOutOfRange
  /-- Raised by a host write to the raster of a decode pass while the pass is busy: it races with the engine's writes and
  R76 gives no order.  Safe (log entry 5). -/
  | decodeRasterRace
  deriving DecidableEq, Repr

/-- Why an event or a chunk has no meaning. -/
inductive Refusal where
  /-- Raised by an arm of exec whose chunk has no meaning yet; no arm does.  Safe. -/
  | notModelled (mnemonic : String)
  /-- Raised by a register access that is not an aligned 32-bit word (R65).  Safe (log entry 6). -/
  | registerAccess
  /-- Raised by a register access outside the 0x100-byte window (R65).  Safe (log entry 7). -/
  | outsideWindow
  /-- Raised by a host event that R347 gives the host no move for: writing the raster of a busy encode pass, changing the
  input of a busy decode or peek pass, or redrawing OUT_ERR in a busy encode pass.  Safe (log entry 5). -/
  | hostBreaksDuty
  deriving DecidableEq, Repr

/-- R340 and R41: the machine after hardware reset, with nothing bound to its ports and no event to come (log entries 1, 2,
3, 4, 8 and 16 for the fields that are not the engine's). -/
def State.reset : State where
  phase := .idle
  cache := Vector.replicate cacheSlots Pixel.zero
  prev := prevInit
  cur := 0
  bytes := 0
  n := 0
  errCode := none
  posValid := false
  errX := 0
  errY := 0
  irqEn := false
  width := 0
  height := 0
  channels := 4
  colorspace := 0
  rcap := 0
  raster := []
  input := []
  inErr := none
  output := []
  outErr := none
  magic := magicDefault
  events := []
  lastRead := none
  raced := 0

/-! The updates every operation is built from; their lemmas are in Sys2Proof/Laws/State.lean. -/

def State.setPhase (s : State) (p : Phase) : State := { s with phase := p }

def State.setCache (s : State) (c : Vector Pixel cacheSlots) : State := { s with cache := c }

def State.setPrev (s : State) (px : Pixel) : State := { s with prev := px }

def State.setCur (s : State) (v : Count) : State := { s with cur := v }

def State.setBytes (s : State) (v : Count) : State := { s with bytes := v }

def State.setN (s : State) (v : Count) : State := { s with n := v }

/-- The whole error record (R34). -/
def State.setError (s : State) (e : Option PassError) (valid : Bool) (x y : Word) : State :=
  { s with errCode := e, posValid := valid, errX := x, errY := y }

def State.setIrqEn (s : State) (b : Bool) : State := { s with irqEn := b }

def State.setWidth (s : State) (v : Word) : State := { s with width := v }

def State.setHeight (s : State) (v : Word) : State := { s with height := v }

def State.setChannels (s : State) (v : Byte) : State := { s with channels := v }

def State.setColorspace (s : State) (v : Byte) : State := { s with colorspace := v }

def State.setRcap (s : State) (v : Count) : State := { s with rcap := v }

def State.setRaster (s : State) (m : Memory) : State := { s with raster := m }

/-- The input stream and its failure draw (R63). -/
def State.setInput (s : State) (bs : List Byte) (e : Option Nat) : State := { s with input := bs, inErr := e }

def State.setOutput (s : State) (bs : List Byte) : State := { s with output := bs }

def State.setOutErr (s : State) (e : Option Nat) : State := { s with outErr := e }

def State.setEvents (s : State) (es : List Event) : State := { s with events := es }

def State.setLastRead (s : State) (d : Option HostData) : State := { s with lastRead := d }

def State.setRaced (s : State) (k : Nat) : State := { s with raced := k }

end Sys2Proof.Machine
end

