-- ==== Sys2Proof/Machine/Operands.lean ====
section
/-! DEFINITION. The delta unit, the channel adder and the hash (40_datapath_units.md R130 to R134), and the pixel each
chunk's operands stand for (41_chunks.md R161 to R171). -/

namespace Sys2Proof.Machine

open Sys2Proof

/-- R14: a byte value as a signed number. -/
def s8 (u : Nat) : Int := if u < 128 then (u : Int) else (u : Int) - 256

/-- R130: `D8(c, p) = s8((c - p) mod 256)`. -/
def d8 (c p : Byte) : Int := s8 (((c.toNat : Int) - (p.toNat : Int)) % 256).toNat

/-- R132: `ADD8(p, d) = (p + d) mod 256`. -/
def add8 (p : Byte) (d : Int) : Byte := BitVec.ofInt 8 ((p.toNat : Int) + d)

/-- R134: `HASH8(px) = (3r + 5g + 7b + 11a) mod 256`. -/
def hash8 (px : Pixel) : Nat := (px.r.toNat * 3 + px.g.toNat * 5 + px.b.toNat * 7 + px.a.toNat * 11) % 256

/-- R134: `HASH6(px) = HASH8(px) mod 64`, the slot index. -/
def hash6 (px : Pixel) : Fin cacheSlots := ⟨hash8 px % 64, Nat.mod_lt _ (by decide)⟩

/-- R131: the three delta lanes of a pixel against the previous one. -/
def deltaR (px prev : Pixel) : Int := d8 px.r prev.r

def deltaG (px prev : Pixel) : Int := d8 px.g prev.g

def deltaB (px prev : Pixel) : Int := d8 px.b prev.b

/-- R165: the pixel of a DIFF chunk; alpha is kept. -/
def diffPixel (prev : Pixel) (dr dg db : Int) : Pixel :=
  ⟨add8 prev.r dr, add8 prev.g dg, add8 prev.b db, prev.a⟩

/-- R167: the pixel of a LUMA chunk; alpha is kept. -/
def lumaPixel (prev : Pixel) (dg drg dbg : Int) : Pixel :=
  ⟨add8 prev.r (dg + drg), add8 prev.g dg, add8 prev.b (dg + dbg), prev.a⟩

/-- R169: the pixel of an RGB chunk; alpha is taken from the previous pixel. -/
def rgbPixel (prev : Pixel) (r g b : Byte) : Pixel := ⟨r, g, b, prev.a⟩

/-- R171: the pixel of an RGBA chunk. -/
def rgbaPixel (r g b a : Byte) : Pixel := ⟨r, g, b, a⟩

/-- R67: a big-endian 32-bit integer from its bytes in stream order. -/
def be32 (bs : List Byte) : Word := BitVec.ofNat 32 (bs.foldl (fun acc b => acc * 256 + b.toNat) 0)

/-- R67, R111 `be32`: the four bytes of a 32-bit integer in stream order. -/
def be32Bytes (v : Word) : List Byte :=
  [v.extractLsb' 24 8, v.extractLsb' 16 8, v.extractLsb' 8 8, v.extractLsb' 0 8]

/-- R91: the 14 header bytes. -/
def headerBytes (magic : Magic) (w h : Word) (ch cs : Byte) : List Byte :=
  magic.toBytes ++ be32Bytes w ++ be32Bytes h ++ [ch, cs]

/-- R96: the end marker. -/
def trailerBytes : List Byte := [0, 0, 0, 0, 0, 0, 0, 1]

/-- R27: `zext_64(WIDTH) * zext_64(HEIGHT)`. -/
def pixelCount (w h : Word) : Count := w.setWidth 64 * h.setWidth 64

end Sys2Proof.Machine
end

