-- ==== Sys2Proof/Machine/Ops.lean ====
section
/-! DEFINITION. The operations every step is made of: the raster (20_memory.md R61, R62), the two stream ports (R63, R64),
error entry (60_exceptions.md R306), pass-start initialisation (44_control.md R268), `Produce` (43_decoder.md R238) and
`Complete` (41_chunks.md R160). -/

namespace Sys2Proof.Machine

open Sys2Proof

/-! Raster memory. -/

/-- DESIGN CHOICE (log entry 2, unsafe): what a raster byte nothing has written reads as. -/
def unlistedByte : Byte := 0

/-- The byte at an offset. -/
def Memory.read : Memory → Nat → Byte
  | [], _ => unlistedByte
  | (a', v) :: m, a => if a = a' then v else Memory.read m a

/-- The memory with the byte at `a` replaced, in canonical form. -/
def Memory.write : Memory → Nat → Byte → Memory
  | [], a, v => if v = unlistedByte then [] else [(a, v)]
  | (a', v') :: m, a, v =>
    if a < a' then (if v = unlistedByte then (a', v') :: m else (a, v) :: (a', v') :: m)
    else if a = a' then (if v = unlistedByte then m else (a, v) :: m)
    else (a', v') :: Memory.write m a v

/-- The canonical form: offsets strictly rising, no entry equal to what an unlisted offset reads as. -/
abbrev Memory.wf (m : Memory) : Prop :=
  m.Pairwise (fun x y => x.1 < y.1) ∧ ∀ c ∈ m, c.2 ≠ unlistedByte

/-- R62: pixel `i` from raster offsets 4i .. 4i+3. -/
def readPixel (m : Memory) (i : Nat) : Pixel :=
  ⟨m.read (4 * i), m.read (4 * i + 1), m.read (4 * i + 2), m.read (4 * i + 3)⟩

/-- R62: pixel `i` stored at raster offsets 4i .. 4i+3. -/
def writePixel (m : Memory) (i : Nat) (px : Pixel) : Memory :=
  (((m.write (4 * i) px.r).write (4 * i + 1) px.g).write (4 * i + 2) px.b).write (4 * i + 3) px.a

/-- `w` copies of a pixel from index `i` up, in increasing order (R75). -/
def fillPixels : Memory → Nat → Pixel → Nat → Memory
  | m, _, _, 0 => m
  | m, i, px, w + 1 => fillPixels (writePixel m i px) (i + 1) px w

/-- R62 `RasterRead(i)` by the engine; a pixel at or above RCAP does not exist (log entry 9). -/
def rasterRead (s : State) (i : Nat) : Except Fault Pixel :=
  if i < s.rcap.toNat then .ok (readPixel s.raster i) else .error .rasterOutOfRange

/-! The pass state and the interrupt. -/

/-- R28: BUSY by phase. -/
def Phase.busy : Phase → Bool
  | .idle => false
  | .encHdr => true
  | .encBody => true
  | .encTrl => true
  | .decHdr => true
  | .decBody => true
  | .decTrl => true
  | .peekHdr => true
  | .done => false
  | .error => false

/-- R28, R31: STATUS.BUSY. -/
def busy (s : State) : Bool := s.phase.busy

/-- R310: `irq = CTRL.IRQ_EN and (PHASE == DONE or PHASE == ERROR)`. -/
def irq (s : State) : Bool := s.irqEn && (decide (s.phase = .done) || decide (s.phase = .error))

/-- R306: a chunk step is one with PHASE = ENC_BODY or DEC_BODY and CUR < N. -/
def inChunkStep (s : State) : Bool :=
  (decide (s.phase = .encBody) || decide (s.phase = .decBody)) && decide (s.cur.toNat < s.n.toNat)

/-! Taking an error, and leaving it. -/

/-- R306: error entry, the last action of a step.  CUR, PREV and CACHE stand as they were at the start of the step,
because a step makes its transfers before it changes them (R307). -/
def raise (e : PassError) (s : State) : State :=
  if inChunkStep s then
    (s.setError (some e) true (BitVec.ofNat 32 (s.cur.toNat % s.width.toNat))
      (BitVec.ofNat 32 (s.cur.toNat / s.width.toNat))).setPhase .error
  else (s.setError (some e) false 0 0).setPhase .error

/-- R266, R268, R309: there is no return from an error; a new pass or CLEAR empties the error record. -/
def clearError (s : State) : State := s.setError none false 0 0

/-- R268: pass-start initialisation. -/
def passStart (s : State) : State :=
  clearError
    (((((s.setCache (Vector.replicate cacheSlots Pixel.zero)).setPrev prevInit).setCur 0).setBytes 0).setN 0)

/-! The stream ports. -/

/-- R63: what the input port answers. -/
inductive InAnswer where
  | byte (v : Byte)
  | eof
  | ioErr
  deriving DecidableEq, Repr

/-- R64: what the output port answers. -/
inductive OutAnswer where
  | ok
  | ioErr
  deriving DecidableEq, Repr

/-- R63, R64: a port with failure draw `e` fails at every position from `e` on. -/
def portFails (e : Option Nat) (p : Nat) : Bool :=
  match e with
  | some e => decide (e ≤ p)
  | none => false

/-- R63 `InRead()`: IOERR comes before EOF (R305); a byte read counts in BYTES (R26). -/
def inRead (s : State) : InAnswer × State :=
  if portFails s.inErr s.bytes.toNat then (.ioErr, s)
  else
    match s.input[s.bytes.toNat]? with
    | some v => (.byte v, s.setBytes (s.bytes + 1))
    | none => (.eof, s)

/-- R64 `OutWrite(v)`: a byte accepted is appended and counts in BYTES (R26). -/
def outWrite (v : Byte) (s : State) : OutAnswer × State :=
  if portFails s.outErr s.bytes.toNat then (.ioErr, s)
  else (.ok, (s.setOutput (s.output ++ [v])).setBytes (s.bytes + 1))

/-- What a run of transfers inside a step ends in: a value, or an error already entered. -/
inductive Xfer (α : Type) where
  | ok (a : α) (s : State)
  | raised (s : State)

/-- The next transfers, unless an error was entered. -/
def Xfer.andThen {α β : Type} (x : Xfer α) (f : α → State → Xfer β) : Xfer β :=
  match x with
  | .ok a s => f a s
  | .raised s => .raised s

/-- The rest of the step, unless an error was entered: error entry ends the step in a next state (R306). -/
def Xfer.finish {α : Type} (x : Xfer α) (f : α → State → Host.Outcome State Fault Refusal) :
    Host.Outcome State Fault Refusal :=
  match x with
  | .ok a s => f a s
  | .raised s => .next s

/-- R233 `NextByte()`, `HdrByte()` and `TrlByte()`: one helper, because error entry tells the positions apart. -/
def nextByte (s : State) : Xfer Byte :=
  match inRead s with
  | (.byte v, t) => .ok v t
  | (.eof, t) => .raised (raise .truncatedStream t)
  | (.ioErr, t) => .raised (raise .ioError t)

/-- `k` bytes in stream order. -/
def readBytes : Nat → State → Xfer (List Byte)
  | 0, s => .ok [] s
  | k + 1, s => (nextByte s).andThen fun v t => (readBytes k t).andThen fun vs u => .ok (v :: vs) u

/-- R16 `emit(bs)`. -/
def emit : List Byte → State → Xfer Unit
  | [], s => .ok () s
  | v :: vs, s =>
    match outWrite v s with
    | (.ok, t) => emit vs t
    | (.ioErr, t) => .raised (raise .ioError t)

/-! Producing pixels and completing a chunk step. -/

/-- R238: the number of pixels of `n` that fit before the end of the raster. -/
def clip (n : Nat) (s : State) : Nat := min n (s.n.toNat - s.cur.toNat)

/-- R238 `Produce(px, n)`: the pixels that fit are written at the cursor and the cursor advances by them.  A pixel at or
above RCAP does not exist (log entry 9). -/
def produce (px : Pixel) (n : Nat) (s : State) : Except Fault State :=
  if clip n s = 0 ∨ s.cur.toNat + clip n s ≤ s.rcap.toNat then
    .ok ((s.setRaster (fillPixels s.raster s.cur.toNat px (clip n s))).setCur
      (BitVec.ofNat 64 (s.cur.toNat + clip n s)))
  else .error .rasterOutOfRange

/-- R136 `CacheInsert(px)`: an unconditional overwrite of the pixel's slot. -/
def cacheInsert (px : Pixel) (s : State) : State :=
  s.setCache (s.cache.set (hash6 px).val px (hash6 px).isLt)

/-- R160 `Complete(px)`: insert, then PREV. -/
def complete (px : Pixel) (s : State) : State := (cacheInsert px s).setPrev px

/-- The common tail of every decode rule (R161 to R171): `Produce(px, n); Complete(px)`. -/
def writeChunk (px : Pixel) (n : Nat) (s : State) : Host.Outcome State Fault Refusal :=
  match produce px n s with
  | .ok t => .next (complete px t)
  | .error f => .fault f

end Sys2Proof.Machine
end

