-- ==== Sys2Proof/Machine/Flags.lean ====
section
/-! DEFINITION. The predicates the encoder computes inside a chunk step (40_datapath_units.md R135, R137, R139, R140).
The engine stores no flags (10_state.md R38). -/

namespace Sys2Proof.Machine

open Sys2Proof

/-- R140 `ALPHA_SAME(px)`. -/
def alphaSame (px prev : Pixel) : Bool := decide (px.a = prev.a)

/-- R140 `DIFF_OK(px)`. -/
def diffOk (px prev : Pixel) : Bool :=
  alphaSame px prev && inRange (deltaR px prev) (-2) 1 && inRange (deltaG px prev) (-2) 1
    && inRange (deltaB px prev) (-2) 1

/-- R140 `LUMA_OK(px)`; the differences are plain integers (R141: either reading gives the same predicate). -/
def lumaOk (px prev : Pixel) : Bool :=
  alphaSame px prev && inRange (deltaG px prev) (-32) 31
    && inRange (deltaR px prev - deltaG px prev) (-8) 7 && inRange (deltaB px prev - deltaG px prev) (-8) 7

/-- R135 `CacheLookup(px)`: a hit only on an exact match (R137). -/
def cacheLookup (px : Pixel) (s : State) : Option (Fin cacheSlots) :=
  if s.cache[hash6 px] = px then some (hash6 px) else none

end Sys2Proof.Machine
end

