-- ==== Sys2Proof/Machine/Chunks.lean ====
section
/-! DEFINITION. The meaning of each chunk, its decode rule (41_chunks.md R161 to R171), on the state after the chunk's
bytes were read.  The bytes are read, and counted, by `fetch` (Machine/Decoder.lean; log entry 14). -/

namespace Sys2Proof.Machine

open Sys2Proof

/-- R161: RUN repeats PREV `n` times, clipped at the end of the raster. -/
def execRun (n : Nat) (s : State) : Host.Outcome State Fault Refusal := writeChunk s.prev n s

/-- R163: INDEX produces the pixel of slot `i`; the slot is not checked against the hash. -/
def execIndex (i : Fin cacheSlots) (s : State) : Host.Outcome State Fault Refusal := writeChunk s.cache[i] 1 s

/-- R165: DIFF. -/
def execDiff (dr dg db : Int) (s : State) : Host.Outcome State Fault Refusal :=
  writeChunk (diffPixel s.prev dr dg db) 1 s

/-- R167: LUMA. -/
def execLuma (dg drg dbg : Int) (s : State) : Host.Outcome State Fault Refusal :=
  writeChunk (lumaPixel s.prev dg drg dbg) 1 s

/-- R169: RGB. -/
def execRgb (r g b : Byte) (s : State) : Host.Outcome State Fault Refusal := writeChunk (rgbPixel s.prev r g b) 1 s

/-- R171: RGBA. -/
def execRgba (r g b a : Byte) (s : State) : Host.Outcome State Fault Refusal := writeChunk (rgbaPixel r g b a) 1 s

/-- The pixel a chunk produces, by the same functions its meaning uses (R161 to R171). -/
def chunkPixel (i : Instr) (s : State) : Pixel :=
  match i with
  | .run _ => s.prev
  | .index k => s.cache[k]
  | .diff dr dg db => diffPixel s.prev dr dg db
  | .luma dg drg dbg => lumaPixel s.prev dg drg dbg
  | .rgb r g b => rgbPixel s.prev r g b
  | .rgba r g b a => rgbaPixel r g b a

/-- The number of pixels a chunk stands for, before clipping (R161 to R171). -/
def chunkCount (i : Instr) : Nat :=
  match i with
  | .run n => n
  | .index _ => 1
  | .diff _ _ _ => 1
  | .luma _ _ _ => 1
  | .rgb _ _ _ => 1
  | .rgba _ _ _ _ => 1

end Sys2Proof.Machine
end

