-- ==== Sys2Proof/Machine/Decoder.lean ====
section
/-! DEFINITION. The decoder sequencer and peek (43_decoder.md R231 to R238). -/

namespace Sys2Proof.Machine

open Sys2Proof

/-- R231, shared by peek (R237): the magic is compared as soon as its 4 bytes are read (R232); then the other 10 bytes
are read and WIDTH, HEIGHT and HDR_INFO written. -/
def readHeader (s : State) : Xfer Unit :=
  (readBytes 4 s).andThen fun m t =>
    if m ≠ t.magic.toBytes then .raised (raise .malformedMagic t)
    else
      (readBytes 10 t).andThen fun h u =>
        .ok () ((((u.setWidth (be32 (h.take 4))).setHeight (be32 ((h.drop 4).take 4))).setChannels
          (h.getD 8 0)).setColorspace (h.getD 9 0))

/-- R231: the decode header step. -/
def decHeaderStep (s : State) : Host.Outcome State Fault Refusal :=
  (readHeader s).finish fun _ t =>
    let u := t.setN (pixelCount t.width t.height)
    if u.rcap.toNat < u.n.toNat then .next (raise .dimensionOverflow u) else .next (u.setPhase .decBody)

/-- R237: the peek step; no capacity test, N keeps its pass-start value (log entry 13). -/
def peekStep (s : State) : Host.Outcome State Fault Refusal :=
  (readHeader s).finish fun _ t => .next (t.setPhase .done)

/-- R97, R233, R234: the bytes of the next chunk, read one by one, and the chunk they are.  The first byte gives the
length (R97), so a chunk whose bytes were all read always decodes. -/
def fetch (s : State) : Xfer Instr :=
  (nextByte s).andThen fun b0 t =>
    (readBytes ((classify b0).length - 1) t).andThen fun payload u =>
      match decode (b0 :: payload) with
      | .ok (i, _) => .ok i u
      | .error _ => .raised (raise .truncatedStream u)

/-- R234: the decode chunk step, for CUR < N. -/
def decChunkStep (s : State) : Host.Outcome State Fault Refusal := (fetch s).finish fun i t => exec i t

/-- R234, R235: PHASE = DEC_BODY. -/
def decBodyStep (s : State) : Host.Outcome State Fault Refusal :=
  if s.cur.toNat < s.n.toNat then decChunkStep s else .next (s.setPhase .decTrl)

/-- R236: the trailer step; all 8 bytes are read before they are compared. -/
def decTrailerStep (s : State) : Host.Outcome State Fault Refusal :=
  (readBytes trailerLen s).finish fun m t =>
    if m ≠ trailerBytes then .next (raise .badTrailer t) else .next (t.setPhase .done)

end Sys2Proof.Machine
end

