-- ==== Sys2Proof/Machine/Encoder.lean ====
section
/-! DEFINITION. The encoder sequencer and its priority selector (42_encoder.md R201 to R206), with the encode rule of each
chunk (41_chunks.md R162 to R172). -/

namespace Sys2Proof.Machine

open Sys2Proof

/-- R201: the encode header step; the capacity test comes before any byte is written. -/
def encHeaderStep (s : State) : Host.Outcome State Fault Refusal :=
  let t := s.setN (pixelCount s.width s.height)
  if t.rcap.toNat < t.n.toNat then .next (raise .dimensionOverflow t)
  else
    (emit (headerBytes t.magic t.width t.height t.channels 0) t).finish fun _ u => .next (u.setPhase .encBody)

/-- R203: the run measurement from a run of `n` pixels so far, with `fuel` more pixels allowed. -/
def runLengthFrom (s : State) : Nat → Nat → Except Fault Nat
  | n, 0 => .ok n
  | n, fuel + 1 =>
    if s.cur.toNat + n < s.n.toNat then
      match rasterRead s (s.cur.toNat + n) with
      | .error f => .error f
      | .ok q => if q = s.prev then runLengthFrom s (n + 1) fuel else .ok n
    else .ok n

/-- R203 `RunLength()`: at least 1, at most 62 and at most N - CUR. -/
def runLength (s : State) : Except Fault Nat := runLengthFrom s 1 (runMax - 1)

/-- R166: the DIFF chunk of a pixel. -/
def diffChunk (px prev : Pixel) : Instr := .diff (deltaR px prev) (deltaG px prev) (deltaB px prev)

/-- R168: the LUMA chunk of a pixel. -/
def lumaChunk (px prev : Pixel) : Instr :=
  .luma (deltaG px prev) (deltaR px prev - deltaG px prev) (deltaB px prev - deltaG px prev)

/-- R202, priorities 2 to 6: the chunk of a pixel that is not PREV, the first applicable in the fixed order. -/
def selectChunk (px : Pixel) (s : State) : Instr :=
  match cacheLookup px s with
  | some k => .index k
  | none =>
    if diffOk px s.prev then diffChunk px s.prev
    else if lumaOk px s.prev then lumaChunk px s.prev
    else if alphaSame px s.prev then .rgb px.r px.g px.b
    else .rgba px.r px.g px.b px.a

/-- R202: a chunk's bytes are emitted; then the cursor advances by its `n` pixels and the step completes (R160). -/
def emitChunk (i : Instr) (n : Nat) (px : Pixel) (s : State) : Host.Outcome State Fault Refusal :=
  (emit (encode i) s).finish fun _ t => .next (complete px (t.setCur (BitVec.ofNat 64 (t.cur.toNat + n))))

/-- R202: the encode chunk step, for CUR < N; RUN has priority 1 (R162). -/
def encChunkStep (s : State) : Host.Outcome State Fault Refusal :=
  match rasterRead s s.cur.toNat with
  | .error f => .fault f
  | .ok px =>
    if px = s.prev then
      match runLength s with
      | .error f => .fault f
      | .ok n => emitChunk (.run n) n s.prev s
    else emitChunk (selectChunk px s) 1 px s

/-- R202, R205: PHASE = ENC_BODY. -/
def encBodyStep (s : State) : Host.Outcome State Fault Refusal :=
  if s.cur.toNat < s.n.toNat then encChunkStep s else .next (s.setPhase .encTrl)

/-- R206: the trailer step. -/
def encTrailerStep (s : State) : Host.Outcome State Fault Refusal :=
  (emit trailerBytes s).finish fun _ t => .next (t.setPhase .done)

end Sys2Proof.Machine
end

