-- ==== Sys2Proof/Machine/Control.lean ====
section
/-! DEFINITION. The register window and the commands (10_state.md R30 to R37, 44_control.md R260 to R270), and hardware
reset (70_reset_and_hazards.md R340, R341). -/

namespace Sys2Proof.Machine

open Sys2Proof

/-- The thirteen registers of the window (10_state.md section 4). -/
inductive Reg where
  | ctrl | status | width | height | hdrInfo | errX | errY | rcapLo | rcapHi | pixLo | pixHi | bytesLo | bytesHi
  deriving DecidableEq, Repr

/-- R30 to R36: the register at each byte offset; every other offset of the window is unmapped (R37). -/
def regTable : List (Nat × Reg) :=
  [(0x00, .ctrl), (0x04, .status), (0x08, .width), (0x0C, .height), (0x10, .hdrInfo), (0x14, .errX), (0x18, .errY),
    (0x1C, .rcapLo), (0x20, .rcapHi), (0x24, .pixLo), (0x28, .pixHi), (0x2C, .bytesLo), (0x30, .bytesHi)]

def regAt (off : Nat) : Option Reg := regTable.lookup off

/-- R28: the 4-bit code of a phase. -/
def phaseCode : Phase → BitVec 4
  | .idle => 0
  | .encHdr => 1
  | .encBody => 2
  | .encTrl => 3
  | .decHdr => 4
  | .decBody => 5
  | .decTrl => 6
  | .peekHdr => 7
  | .done => 8
  | .error => 9

/-- R300: the 4-bit error code. -/
def errorCode : Option PassError → BitVec 4
  | none => 0
  | some .malformedMagic => 1
  | some .truncatedStream => 2
  | some .badTrailer => 3
  | some .dimensionOverflow => 4
  | some .ioError => 5

/-- One bit of a register. -/
def bit (b : Bool) : BitVec 1 := BitVec.ofBool b

/-- R31: STATUS, bit 31 first: 31:25 reserved, IRQ, 23:20 reserved, PHASE, 15:12 reserved, ERR_CODE, 7:4 reserved,
POS_VALID, ERR, DONE, BUSY. -/
def statusWord (s : State) : Word :=
  0#7 ++ bit (irq s) ++ 0#4 ++ phaseCode s.phase ++ 0#4 ++ errorCode s.errCode ++ 0#4 ++ bit s.posValid
    ++ bit (decide (s.phase = .error)) ++ bit (decide (s.phase = .done)) ++ bit (busy s)

/-- R261: the value each register reads; CMD and reserved bits read 0 (R30, R33). -/
def readReg (r : Reg) (s : State) : Word :=
  match r with
  | .ctrl => 0#23 ++ bit s.irqEn ++ 0#8
  | .status => statusWord s
  | .width => s.width
  | .height => s.height
  | .hdrInfo => 0#16 ++ s.colorspace ++ s.channels
  | .errX => s.errX
  | .errY => s.errY
  | .rcapLo => s.rcap.extractLsb' 0 32
  | .rcapHi => s.rcap.extractLsb' 32 32
  | .pixLo => s.cur.extractLsb' 0 32
  | .pixHi => s.cur.extractLsb' 32 32
  | .bytesLo => s.bytes.extractLsb' 0 32
  | .bytesHi => s.bytes.extractLsb' 32 32

/-- R261, R37: the word at an offset of the window; unmapped offsets read 0. -/
def regRead (off : Nat) (s : State) : Word :=
  match regAt off with
  | some r => readReg r s
  | none => 0

/-- R263: ENCODE; the output stream is bound empty.  DESIGN CHOICE (log entry 20, unsafe for claims across passes): the port
keeps the draw OUT_ERR it has; a new draw for the pass is an event before it. -/
def startEncode (s : State) : State := ((passStart s).setOutput []).setPhase .encHdr

/-- R264: DECODE; BYTES = 0 is the input's position 0.  DESIGN CHOICE (log entry 20, unsafe for claims across passes): the
port keeps the input and the draw IN_ERR it has; a new draw for the pass is an event before it. -/
def startDecode (s : State) : State := (passStart s).setPhase .decHdr

/-- R265: PEEK; the port keeps the input and the draw IN_ERR, as for DECODE (DESIGN CHOICE, log entry 20, unsafe for claims
across passes). -/
def startPeek (s : State) : State := (passStart s).setPhase .peekHdr

/-- R266: CLEAR. -/
def clear (s : State) : State := (clearError s).setPhase .idle

/-- R262, R267, R269: the command of a CTRL write, accepted only while BUSY = 0; the codes 0, 5, 6 and 7 start nothing. -/
def command (cmd : BitVec 3) (s : State) : State :=
  if busy s then s
  else if cmd = 1 then startEncode s
  else if cmd = 2 then startDecode s
  else if cmd = 3 then startPeek s
  else if cmd = 4 then clear s
  else s

/-- R260: the effect of a host write on each register; configuration writes while BUSY have none (R270). -/
def writeReg (r : Reg) (v : Word) (s : State) : State :=
  match r with
  | .ctrl => command (v.extractLsb' 0 3) (s.setIrqEn (v.getLsbD 8))
  | .status => s
  | .width => if busy s then s else s.setWidth v
  | .height => if busy s then s else s.setHeight v
  | .hdrInfo => if busy s then s else s.setChannels (v.extractLsb' 0 8)
  | .errX => s
  | .errY => s
  | .rcapLo => if busy s then s else s.setRcap (s.rcap.extractLsb' 32 32 ++ v)
  | .rcapHi => if busy s then s else s.setRcap (v ++ s.rcap.extractLsb' 0 32)
  | .pixLo => s
  | .pixHi => s
  | .bytesLo => s
  | .bytesHi => s

/-- R260, R37: a host write of a word at an offset of the window; unmapped offsets ignore writes. -/
def regWrite (off : Nat) (v : Word) (s : State) : State :=
  match regAt off with
  | some r => writeReg r v s
  | none => s

/-- R340, R341: hardware reset puts the engine's state to R41's values; the raster and the stream buffers are host memory
and stay, and so do the parameter MAGIC and the model's own fields (log entry 17). -/
def hardReset (s : State) : State :=
  { State.reset with
    raster := s.raster, input := s.input, inErr := s.inErr, output := s.output, outErr := s.outErr, magic := s.magic,
    events := s.events, lastRead := s.lastRead, raced := s.raced }

end Sys2Proof.Machine
end

