-- ==== Sys2Proof/Machine/Host.lean ====
section
/-! DEFINITION. What each event of the host and of the stream environment does, between two engine steps (44_control.md
R271, R274; 20_memory.md R63 to R65, R76; 70_reset_and_hazards.md R347). -/

namespace Sys2Proof.Machine

open Sys2Proof

/-- R65: an access is an aligned 32-bit word; anything else is refused. -/
def wordAccess (off size : Nat) : Bool := decide (size = 4) && decide (off % 4 = 0)

/-- R65: the checks of a register access, then its effect. -/
def regAccess (off size : Nat) (t : State) : Host.Outcome State Fault Refusal :=
  if wordAccess off size = false then .refused .registerAccess
  else if regWindow ≤ off then .refused .outsideWindow
  else .next t

/-- R260: a host register write. -/
def hostRegWrite (off size : Nat) (v : Word) (s : State) : Host.Outcome State Fault Refusal :=
  regAccess off size (regWrite off v s)

/-- R261: a host register read; it changes nothing of the engine. -/
def hostRegRead (off size : Nat) (s : State) : Host.Outcome State Fault Refusal :=
  regAccess off size (s.setLastRead (some (.word (regRead off s))))

/-- A phase of an encode pass. -/
def Phase.encoding : Phase → Bool
  | .encHdr => true
  | .encBody => true
  | .encTrl => true
  | .decHdr => false
  | .decBody => false
  | .decTrl => false
  | .peekHdr => false
  | .idle => false
  | .done => false
  | .error => false

/-- R274, R347: the host binds an input only while no decode or peek pass is busy. -/
def hostBindInput (bs : List Byte) (e : Option Nat) (s : State) : Host.Outcome State Fault Refusal :=
  if busy s && !s.phase.encoding then .refused .hostBreaksDuty else .next (s.setInput bs e)

/-- R64: the draw OUT_ERR is fixed for an encode pass. -/
def drawOutErr (e : Option Nat) (s : State) : Host.Outcome State Fault Refusal :=
  if s.phase.encoding then .refused .hostBreaksDuty else .next (s.setOutErr e)

/-- R61: the pixels of the raster of a busy encode pass, indices 0 .. N-1. -/
def inEncodeRaster (i : Count) (s : State) : Bool :=
  s.phase.encoding && decide (i.toNat < s.width.toNat * s.height.toNat)

/-- R61: the pixels of the raster of a busy decode pass, indices 0 .. N-1; before the header is read, any index may be one
of them. -/
def inDecodeRaster (i : Count) (s : State) : Bool :=
  match s.phase with
  | .decHdr => true
  | .decBody => decide (i.toNat < s.n.toNat)
  | .decTrl => decide (i.toNat < s.n.toNat)
  | .idle => false
  | .encHdr => false
  | .encBody => false
  | .encTrl => false
  | .peekHdr => false
  | .done => false
  | .error => false

/-- R274, R76, R347: the host writes a pixel of its raster memory. -/
def hostRasterWrite (i : Count) (px : Pixel) (s : State) : Host.Outcome State Fault Refusal :=
  if inEncodeRaster i s then .refused .hostBreaksDuty
  else if inDecodeRaster i s then .fault .decodeRasterRace
  else .next (s.setRaster (writePixel s.raster i.toNat px))

/-- R76, 93_implementation_defined.md section 2: the pixels a busy decode pass has not yet finished, those of the pass from
CUR on. -/
def unfinishedPixel (i : Count) (s : State) : Bool := inDecodeRaster i s && decide (s.cur.toNat ≤ i.toNat)

/-- R76, R347: the host reads a pixel of its raster memory.  A pixel that a busy decode pass has not yet finished has no
guaranteed value, so four free values are read (log entry 8); every other pixel reads what is stored, a finished one its
final value (93_implementation_defined.md section 2). -/
def hostRasterRead (i : Count) (s : State) : Host.Outcome State Fault Refusal :=
  if unfinishedPixel i s then
    .next ((s.setLastRead (some (.pixel ⟨racedByte s.raced, racedByte (s.raced + 1), racedByte (s.raced + 2),
      racedByte (s.raced + 3)⟩))).setRaced (s.raced + 4))
  else .next (s.setLastRead (some (.pixel (readPixel s.raster i.toNat))))

/-- R76, R347: the host reads a byte of the output stream.  A byte that is in the stream is final, because the stream is
append-only (R64); one that a busy encode pass has not yet written has no guaranteed value, so a free value is read
(log entry 8). -/
def hostOutputRead (k : Nat) (s : State) : Host.Outcome State Fault Refusal :=
  match s.output[k]? with
  | some v => .next (s.setLastRead (some (.byte v)))
  | none =>
    if s.phase.encoding then
      .next ((s.setLastRead (some (.byte (racedByte s.raced)))).setRaced (s.raced + 1))
    else .next (s.setLastRead (some .noByte))

end Sys2Proof.Machine
end

