-- ==== Sys2Proof/Machine/Engine.lean ====
section
/-! DEFINITION. One step of the engine by phase (10_state.md R29, 44_control.md R271), one event, and the placing of a
chunk where the next step fetches it. -/

namespace Sys2Proof.Machine

open Sys2Proof

/-- R29, R271: the step that PHASE selects; while BUSY = 0 the engine takes no step and the state stands (R352). -/
def engineStep (s : State) : Host.Outcome State Fault Refusal :=
  match s.phase with
  | .idle => .next s
  | .encHdr => encHeaderStep s
  | .encBody => encBodyStep s
  | .encTrl => encTrailerStep s
  | .decHdr => decHeaderStep s
  | .decBody => decBodyStep s
  | .decTrl => decTrailerStep s
  | .peekHdr => peekStep s
  | .done => .next s
  | .error => .next s

/-- R271: one event, on the state with the event taken off the list. -/
def eventStep (e : Event) (s : State) : Host.Outcome State Fault Refusal :=
  match e with
  | .engine => engineStep s
  | .regWrite off size v => hostRegWrite off size v s
  | .regRead off size => hostRegRead off size s
  | .reset => .next (hardReset s)
  | .bindInput bs e => hostBindInput bs e s
  | .drawOutErr e => drawOutErr e s
  | .rasterWrite i px => hostRasterWrite i px s
  | .rasterRead i => hostRasterRead i s
  | .outputRead k => hostOutputRead k s

/-- The next event, or the engine's step when none is left (log entry 4). -/
def machineStep (s : State) : Host.Outcome State Fault Refusal :=
  match s.events with
  | [] => engineStep s
  | e :: es => eventStep e (s.setEvents es)

/-- A decode pass whose next unread bytes are the given ones: BYTES is kept and the bytes before it are filled up. -/
def placeInput (bs : List Byte) (s : State) : State :=
  s.setInput
    (s.input.take s.bytes.toNat ++ List.replicate (s.bytes.toNat - s.input.length) 0 ++ bs) none

/-- The state in which the very next step fetches `bs`, with room for the longest RUN: no event pending, PHASE =
DEC_BODY, a 62 x 1 raster and the cursor at its start (log entry 11). -/
def placeChunk (bs : List Byte) (s : State) : State :=
  ((((((((placeInput bs s).setEvents []).setPhase .decBody).setCur 0).setN 62).setWidth 62).setHeight 1).setRcap 62)

end Sys2Proof.Machine
end

