-- ==== Sys2Proof/Machine/Step.lean ====
section
/-! DEFINITION. One step of the machine, and a chunk placed where it is fetched next. -/

namespace Sys2Proof.Machine

open Sys2Proof

/-- The step of the whole machine (R271): next, fault or refusal. -/
def step (s : State) : Host.Outcome State Fault Refusal := machineStep s

/-- `s` with the chunk of the table word `w` stored where `step` fetches next (log entry 11). -/
def State.withFetchWord (s : State) (nbits w : Nat) : State := placeChunk (tableBytes nbits w) s

end Sys2Proof.Machine
end

