-- ==== Sys2Proof/Safety.lean ====
section
/-! DEFINITION. The terms the statements use: the invariant of the machine, what a chunk's effect is, what the ports hold,
how many steps a pass has left, and when a decode pass mirrors an encode pass. -/

namespace Sys2Proof.Machine

open Sys2Proof

/-- The phases that begin a pass, right after its command (R268). -/
def Phase.header : Phase → Bool
  | .encHdr => true
  | .decHdr => true
  | .peekHdr => true
  | .idle => false
  | .encBody => false
  | .encTrl => false
  | .decBody => false
  | .decTrl => false
  | .done => false
  | .error => false

/-- The phases in which N is set and the raster of the pass exists (R201, R231). -/
def Phase.sized : Phase → Bool
  | .encBody => true
  | .encTrl => true
  | .decBody => true
  | .decTrl => true
  | .idle => false
  | .encHdr => false
  | .decHdr => false
  | .peekHdr => false
  | .done => false
  | .error => false

/-- R138: each slot holds the zero pixel or a pixel of that hash. -/
def CacheInv (s : State) : Prop :=
  ∀ k : Fin cacheSlots, s.cache[k] = Pixel.zero ∨ hash6 s.cache[k] = k

/-- What holds of the machine in every state a run reaches. -/
structure Inv (s : State) : Prop where
  /-- The raster memory is in canonical form. -/
  rasterWf : Memory.wf s.raster
  /-- R138. -/
  cacheInv : CacheInv s
  /-- R300, R306: an error code stands exactly in PHASE = ERROR. -/
  errorIff : s.errCode.isSome = true ↔ s.phase = .error
  /-- R34: without a position, ERR_X and ERR_Y are 0. -/
  noPosition : s.posValid = false → s.errX = 0 ∧ s.errY = 0
  /-- R300: only TruncatedStream and IOError carry a position. -/
  position : s.posValid = true → s.errCode = some .truncatedStream ∨ s.errCode = some .ioError
  /-- R268: a pass that has not taken its header step has its initial pass state. -/
  fresh : s.phase.header = true → s.cur = 0 ∧ s.bytes = 0 ∧ s.n = 0 ∧ s.prev = prevInit
    ∧ s.cache = Vector.replicate cacheSlots Pixel.zero
  /-- R27, R201, R231, R24: N is WIDTH * HEIGHT, fits the raster, and CUR never exceeds it. -/
  sized : s.phase.sized = true → s.n.toNat = s.width.toNat * s.height.toNat ∧ s.n.toNat ≤ s.rcap.toNat
    ∧ s.cur.toNat ≤ s.n.toNat
  /-- R205, R235: the end marker comes when CUR = N. -/
  atEnd : s.phase = .encTrl ∨ s.phase = .decTrl → s.cur = s.n
  /-- R26, R64: in an encode pass BYTES counts the output (modulo 2^64, log entry 10). -/
  outCount : s.phase.encoding = true → s.bytes = BitVec.ofNat 64 s.output.length

/-- The effect of a decode chunk of `w` pixels `px` (R160, R238): the pixels at CUR .. CUR+w-1 are `px`, every other raster
byte is as before, CUR advances by `w`, slot HASH6(px) and PREV become `px`, every other slot and all the rest of the
state are as before. -/
structure ChunkEffect (px : Pixel) (w : Nat) (s t : State) : Prop where
  pixels : ∀ k, k < w → readPixel t.raster (s.cur.toNat + k) = px
  bytesOutside : ∀ a, a < 4 * s.cur.toNat ∨ 4 * (s.cur.toNat + w) ≤ a → Memory.read t.raster a = Memory.read s.raster a
  cursor : t.cur.toNat = s.cur.toNat + w
  prevIs : t.prev = px
  slot : t.cache[hash6 px] = px
  otherSlots : ∀ k : Fin cacheSlots, k ≠ hash6 px → t.cache[k] = s.cache[k]
  rest : t = (((s.setRaster t.raster).setCur t.cur).setCache t.cache).setPrev t.prev

/-- The state after the output port accepted `bs` (R64, R26). -/
def emitted (bs : List Byte) (s : State) : State :=
  (s.setOutput (s.output ++ bs)).setBytes (s.bytes + BitVec.ofNat 64 bs.length)

/-- The state after the input port gave `k` bytes (R63, R26). -/
def consumed (k : Nat) (s : State) : State := s.setBytes (s.bytes + BitVec.ofNat 64 k)

/-- The next bytes of the input stream are `bs`, and the port gives them without failure (R63). -/
structure InputHolds (s : State) (bs : List Byte) : Prop where
  next : bs <+: s.input.drop s.bytes.toNat
  noFailure : ∀ e, s.inErr = some e → s.bytes.toNat + bs.length ≤ e
  noWrap : s.bytes.toNat + bs.length < 2 ^ 64

/-- The input port gives exactly the bytes `pre` and then answers EOF (R63). -/
structure InputEnds (s : State) (pre : List Byte) : Prop where
  all : s.input.drop s.bytes.toNat = pre
  noFailure : ∀ e, s.inErr = some e → s.bytes.toNat + pre.length < e
  noWrap : s.bytes.toNat + pre.length < 2 ^ 64

/-- The input port gives the bytes `pre` and then answers IOERR, whether or not a byte follows (R63, R305). -/
structure InputFails (s : State) (pre : List Byte) : Prop where
  next : pre <+: s.input.drop s.bytes.toNat
  failure : s.inErr = some (s.bytes.toNat + pre.length)
  noWrap : s.bytes.toNat + pre.length < 2 ^ 64

/-- The output port accepts `k` more bytes (R64). -/
structure OutputAccepts (s : State) (k : Nat) : Prop where
  noFailure : ∀ e, s.outErr = some e → s.bytes.toNat + k ≤ e
  noWrap : s.bytes.toNat + k < 2 ^ 64

/-- The output port accepts `k` more bytes and then answers IOERR (R64). -/
structure OutputFails (s : State) (k : Nat) : Prop where
  failure : s.outErr = some (s.bytes.toNat + k)
  noWrap : s.bytes.toNat + k < 2 ^ 64

/-- A decode chunk step is due, with no host event before it (R234): PHASE = DEC_BODY and CUR < N, N fits the raster. -/
structure DecodeDue (s : State) : Prop where
  phaseIs : s.phase = .decBody
  alone : s.events = []
  pixelsLeft : s.cur.toNat < s.n.toNat
  fits : s.n.toNat ≤ s.rcap.toNat

/-- An encode chunk step is due, with no host event before it (R202). -/
structure EncodeDue (s : State) : Prop where
  phaseIs : s.phase = .encBody
  alone : s.events = []
  pixelsLeft : s.cur.toNat < s.n.toNat
  fits : s.n.toNat ≤ s.rcap.toNat

/-- What a decode chunk step whose next bytes are only the first `k` of a chunk's does: TruncatedStream at the end of the
stream, IOError at a failing port, with the `k` bytes counted (R233, R240). -/
def CutShort (bs : List Byte) (s : State) : Prop :=
  ∀ k, k < bs.length →
    (InputEnds s (bs.take k) → step s = .next (raise .truncatedStream (consumed k s)))
      ∧ (InputFails s (bs.take k) → step s = .next (raise .ioError (consumed k s)))

/-- The bytes of the chunk that R202 selects for the pixel `px` at the cursor, written out as R202 writes them; `n` is the
run length and is used by RUN alone. -/
def selectedBytes (s : State) (px : Pixel) (n : Nat) : List Byte :=
  let dR := deltaR px s.prev
  let dG := deltaG px s.prev
  let dB := deltaB px s.prev
  if px = s.prev then [BitVec.ofNat 8 (0xC0 + (n - 1))]
  else if s.cache[hash6 px] = px then [BitVec.ofNat 8 (hash6 px).val]
  else if diffOk px s.prev = true then [BitVec.ofInt 8 (0x40 + (dR + 2) * 16 + (dG + 2) * 4 + (dB + 2))]
  else if lumaOk px s.prev = true then
    [BitVec.ofInt 8 (0x80 + (dG + 32)), BitVec.ofInt 8 ((dR - dG + 8) * 16 + (dB - dG + 8))]
  else if px.a = s.prev.a then [0xFE, px.r, px.g, px.b]
  else [0xFF, px.r, px.g, px.b, px.a]

/-- R203: `n` is the run length at the cursor, at most 62 and at most N - CUR, and maximal. -/
structure IsRunLength (s : State) (n : Nat) : Prop where
  atLeastOne : 1 ≤ n
  atMost : n ≤ 62
  inRaster : s.cur.toNat + n ≤ s.n.toNat
  allEqual : ∀ k, k < n → readPixel s.raster (s.cur.toNat + k) = s.prev
  maximal : n = 62 ∨ s.cur.toNat + n = s.n.toNat ∨ readPixel s.raster (s.cur.toNat + n) ≠ s.prev

/-- R29: the phase changes an engine step may make. -/
def EngineEdge (s : State) (q : Phase) : Prop :=
  match s.phase with
  | .encHdr => q = .encBody ∨ q = .error
  | .encBody => if s.cur.toNat < s.n.toNat then q = .encBody ∨ q = .error else q = .encTrl
  | .encTrl => q = .done ∨ q = .error
  | .decHdr => q = .decBody ∨ q = .error
  | .decBody => if s.cur.toNat < s.n.toNat then q = .decBody ∨ q = .error else q = .decTrl
  | .decTrl => q = .done ∨ q = .error
  | .peekHdr => q = .done ∨ q = .error
  | .idle => q = .idle
  | .done => q = .done
  | .error => q = .error

/-- R350: a bound on the engine steps a pass still takes; a decode pass learns N from its header. -/
def stepsLeft (s : State) : Nat :=
  match s.phase with
  | .idle => 0
  | .encHdr => s.width.toNat * s.height.toNat + 3
  | .encBody => s.n.toNat - s.cur.toNat + 2
  | .encTrl => 1
  | .decHdr => 2 ^ 64 + 3
  | .decBody => s.n.toNat - s.cur.toNat + 2
  | .decTrl => 1
  | .peekHdr => 1
  | .done => 0
  | .error => 0

/-- The phase of a decode pass that stands where an encode pass stands. -/
def mirrorPhase : Phase → Option Phase
  | .encHdr => some .decHdr
  | .encBody => some .decBody
  | .encTrl => some .decTrl
  | .done => some .done
  | .idle => none
  | .decHdr => none
  | .decBody => none
  | .decTrl => none
  | .peekHdr => none
  | .error => none

/-- R173: the decode pass `d` stands where the encode pass `e` stands, with the same CACHE, PREV, CUR and BYTES, and the
raster it has written is the encoder's. -/
structure Mirror (e d : State) : Prop where
  phases : mirrorPhase e.phase = some d.phase
  eventsE : e.events = []
  eventsD : d.events = []
  invE : Inv e
  invD : Inv d
  magic : d.magic = e.magic
  bytes : d.bytes = e.bytes
  cur : d.cur = e.cur
  n : d.n = e.n
  prev : d.prev = e.prev
  cache : d.cache = e.cache
  dims : e.phase ≠ .encHdr →
    d.width = e.width ∧ d.height = e.height ∧ d.channels = e.channels ∧ d.colorspace = 0
  capacity : e.width.toNat * e.height.toNat ≤ d.rcap.toNat
  noInErr : d.inErr = none
  ended : e.phase = .done → e.cur = e.n ∧ e.n.toNat = e.width.toNat * e.height.toNat
  raster : ∀ i, i < e.cur.toNat → readPixel d.raster i = readPixel e.raster i

/-- R208: what the output of an encode pass may measure, by the pixels encoded so far. -/
structure OutputBounds (s : State) : Prop where
  atHeader : s.phase = .encHdr → s.output = []
  inBody : s.phase = .encBody ∨ s.phase = .encTrl →
    14 ≤ s.output.length ∧ s.output.length ≤ 14 + 5 * s.cur.toNat
      ∧ s.cur.toNat ≤ 62 * (s.output.length - 14)

end Sys2Proof.Machine
end

