-- ==== Sys2Proof/Certificates/Slice0/Obligations.lean ====
section
/-! DEFINITION. The statements for the provers, one `def Obligations.<Name> : Prop` each; OBLIGATIONS.json lists them with
the rules they formalise. -/

open Sys2Proof Sys2Proof.Machine

/-! Encoding (30_encoding.md). -/

/-- R106 (and R100 to R105): decoding the encoding of a well-formed chunk, whatever follows it, gives the chunk back. -/
def Obligations.DecodeOfEncode : Prop :=
  ∀ (i : Instr) (rest : List Byte), i.wf = true → decode (encode i ++ rest) = .ok (i, rest)

/-- R106 (and R100 to R105): every chunk the decoder reads has operands in their ranges, and its encoding is exactly the
bytes read. -/
def Obligations.EncodeOfDecode : Prop :=
  ∀ (bs : List Byte) (i : Instr) (rest : List Byte),
    decode bs = .ok (i, rest) → i.wf = true ∧ encode i ++ rest = bs

/-- A few chunks written out from R100 to R105 (the bytes are those of 95_test_vectors.md, P1). -/
def Obligations.SpecWordsDecode : Prop :=
  decode [0xC2] = .ok (.run 3, []) ∧ decode [0x0C] = .ok (.index 12, []) ∧ decode [0x76] = .ok (.diff 1 (-1) 0, [])
    ∧ decode [0xA5, 0x6B] = .ok (.luma 5 (-2) 3, []) ∧ decode [0xFE, 0x64, 0x16, 0x21] = .ok (.rgb 100 22 33, [])
    ∧ decode [0xFF, 0x0A, 0x14, 0x1E, 0x28] = .ok (.rgba 10 20 30 40, [])

/-- R107: the 256 first-byte values partition among the six chunks, and with any payload bytes each gives a chunk of its
type. -/
def Obligations.FirstByteMap : Prop :=
  ∀ b0 : Byte,
    classify b0 = (if b0.toNat ≤ 0x3F then .index else if b0.toNat ≤ 0x7F then .diff
      else if b0.toNat ≤ 0xBF then .luma else if b0.toNat ≤ 0xFD then .run
      else if b0.toNat = 0xFE then .rgb else .rgba)
    ∧ ∀ p1 p2 p3 p4 : Byte, ∃ i rest, decode [b0, p1, p2, p3, p4] = .ok (i, rest) ∧ i.kind = classify b0

/-- R97: the length of a chunk is fixed by its first byte alone: a chunk is read exactly when that many bytes are there,
and exactly they are taken. -/
def Obligations.LengthFixedByFirstByte : Prop :=
  ∀ (b0 : Byte) (rest : List Byte),
    let len := if b0.toNat = 0xFE then 4 else if b0.toNat = 0xFF then 5
      else if field b0 6 2 = 0b10#2 then 2 else 1
    (len ≤ rest.length + 1 → ∃ i, decode (b0 :: rest) = .ok (i, rest.drop (len - 1)) ∧ (encode i).length = len)
      ∧ (rest.length + 1 < len → ∃ e, decode (b0 :: rest) = .error e)

/-! Datapath units (40_datapath_units.md). -/

/-- R130: the channel delta is the signed byte congruent to `c - p` modulo 256, with the rule's corner cases. -/
def Obligations.DeltaIsWrappedDifference : Prop :=
  (∀ c p : Byte, -128 ≤ d8 c p ∧ d8 c p ≤ 127 ∧ (d8 c p - ((c.toNat : Int) - (p.toNat : Int))) % 256 = 0)
    ∧ d8 255 0 = -1 ∧ d8 0 255 = 1 ∧ d8 128 0 = -128 ∧ d8 0 128 = -128 ∧ d8 127 0 = 127
    ∧ (∀ c : Byte, d8 c c = 0) ∧ d8 200 100 = 100 ∧ d8 100 200 = -100

/-- R132, R133: the adder is addition modulo 256, with the rule's corner cases, and inverts the delta, so a DIFF or LUMA
chunk made of a pixel's deltas reconstructs the pixel. -/
def Obligations.AdderInvertsDelta : Prop :=
  (∀ (p : Byte) (d : Int), ((add8 p d).toNat : Int) = (p.toNat + d) % 256)
    ∧ add8 0 (-1) = 255 ∧ add8 255 1 = 0 ∧ add8 250 6 = 0 ∧ add8 5 (-8) = 253
    ∧ (∀ c p : Byte, add8 p (d8 c p) = c)
    ∧ ∀ px prev : Pixel, px.a = prev.a →
        diffPixel prev (deltaR px prev) (deltaG px prev) (deltaB px prev) = px
          ∧ lumaPixel prev (deltaG px prev) (deltaR px prev - deltaG px prev) (deltaB px prev - deltaG px prev) = px

/-- R134: the hash formula, its low six bits, and the rule's corner values. -/
def Obligations.HashSlots : Prop :=
  (∀ px : Pixel, hash8 px = (px.r.toNat * 3 + px.g.toNat * 5 + px.b.toNat * 7 + px.a.toNat * 11) % 256
      ∧ (hash6 px).val = hash8 px % 64
      ∧ (hash6 px).val = (3 * px.r.toNat + 5 * px.g.toNat + 7 * px.b.toNat + 11 * px.a.toNat) % 64)
    ∧ hash6 ⟨0, 0, 0, 0⟩ = 0 ∧ hash6 ⟨0, 0, 0, 255⟩ = 53 ∧ hash8 ⟨0, 0, 0, 255⟩ = 245
    ∧ hash6 ⟨255, 255, 255, 255⟩ = 38 ∧ hash8 ⟨255, 255, 255, 255⟩ = 230 ∧ hash6 ⟨1, 1, 1, 255⟩ = 4
    ∧ hash6 ⟨10, 20, 30, 40⟩ = 12

/-- R141: LUMA_OK is the same whether the differences are plain integers or wrapped to 8 bits. -/
def Obligations.LumaDifferenceWidthIrrelevant : Prop :=
  ∀ px prev : Pixel,
    lumaOk px prev =
      (alphaSame px prev && inRange (deltaG px prev) (-32) 31
        && inRange (s8 ((deltaR px prev - deltaG px prev) % 256).toNat) (-8) 7
        && inRange (s8 ((deltaB px prev - deltaG px prev) % 256).toNat) (-8) 7)

/-- R140, R142: DIFF_OK and LUMA_OK are the rule's ranges of the deltas, both ends included; DIFF_OK implies LUMA_OK, and
where DIFF applies the selector never takes LUMA. -/
def Obligations.RangePredicates : Prop :=
  (∀ px prev : Pixel,
      let dR := d8 px.r prev.r
      let dG := d8 px.g prev.g
      let dB := d8 px.b prev.b
      (alphaSame px prev = true ↔ px.a = prev.a)
        ∧ (diffOk px prev = true ↔
            px.a = prev.a ∧ -2 ≤ dR ∧ dR ≤ 1 ∧ -2 ≤ dG ∧ dG ≤ 1 ∧ -2 ≤ dB ∧ dB ≤ 1)
        ∧ (lumaOk px prev = true ↔
            px.a = prev.a ∧ -32 ≤ dG ∧ dG ≤ 31 ∧ -8 ≤ dR - dG ∧ dR - dG ≤ 7 ∧ -8 ≤ dB - dG ∧ dB - dG ≤ 7))
    ∧ (∀ px prev : Pixel, diffOk px prev = true → lumaOk px prev = true)
    ∧ ∀ (px : Pixel) (s : State) (dg drg dbg : Int),
        diffOk px s.prev = true → selectChunk px s ≠ .luma dg drg dbg

/-- R137: a hash collision is a miss; with the rule's example. -/
def Obligations.CollisionIsMiss : Prop :=
  (∀ (s : State) (px q : Pixel), hash6 px = hash6 q → px ≠ q → cacheLookup px (cacheInsert q s) = none)
    ∧ hash6 ⟨64, 0, 0, 255⟩ = 53 ∧ hash8 ⟨64, 0, 0, 255⟩ = 181 ∧ hash6 ⟨0, 0, 0, 255⟩ = 53
    ∧ hash8 ⟨0, 0, 0, 255⟩ = 245
    ∧ ∀ s : State, cacheLookup ⟨0, 0, 0, 255⟩ (cacheInsert ⟨64, 0, 0, 255⟩ s) = none

/-- R135, R136: an inserted pixel is hit in its own slot, the insert writes that slot alone, and a lookup is a hit exactly
when the slot holds the pixel; with the rules' examples. -/
def Obligations.InsertThenLookup : Prop :=
  ∀ (s : State) (px q : Pixel),
    cacheLookup px (cacheInsert px s) = some (hash6 px)
      ∧ (∀ k : Fin cacheSlots, k ≠ hash6 px → (cacheInsert px s).cache[k] = s.cache[k])
      ∧ cacheInsert px s = s.setCache (cacheInsert px s).cache
      ∧ (cacheLookup q s = some (hash6 q) ↔ s.cache[hash6 q] = q)
      ∧ (cacheLookup q s = none ↔ s.cache[hash6 q] ≠ q)
      ∧ cacheLookup ⟨0, 0, 0, 0⟩ (passStart s) = some 0 ∧ cacheLookup ⟨0, 0, 0, 255⟩ (passStart s) = none
      ∧ hash6 ⟨0, 0, 0, 255⟩ = 53

/-! The chunks, decode (41_chunks.md).  Each says that the chunk completes, with its effect, and how its bytes come in. -/

/-- R161: RUN writes `min(n, N - CUR)` copies of PREV and completes; its one byte is counted. -/
def Obligations.RunRepeatsPrev : Prop :=
  ∀ (n : Nat) (s : State),
    1 ≤ n → n ≤ 62 → Memory.wf s.raster → s.cur.toNat < s.n.toNat → s.n.toNat ≤ s.rcap.toNat →
    (∃ t, exec (.run n) s = .next t ∧ ChunkEffect s.prev (min n (s.n.toNat - s.cur.toNat)) s t)
      ∧ (DecodeDue s → InputHolds s [BitVec.ofNat 8 (0xC0 + (n - 1))] → step s = exec (.run n) (consumed 1 s))

/-- R163: INDEX produces the pixel of the slot it names, whatever its hash, and completes; its one byte is counted. -/
def Obligations.IndexProducesSlot : Prop :=
  ∀ (i : Fin cacheSlots) (s : State),
    Memory.wf s.raster → s.cur.toNat < s.n.toNat → s.n.toNat ≤ s.rcap.toNat →
    (∃ t, exec (.index i) s = .next t ∧ ChunkEffect s.cache[i] 1 s t)
      ∧ (DecodeDue s → InputHolds s [BitVec.ofNat 8 i.val] → step s = exec (.index i) (consumed 1 s))

/-- R165: DIFF adds its three deltas to PREV modulo 256, keeps alpha, and completes; its one byte is counted. -/
def Obligations.DiffAddsDeltas : Prop :=
  ∀ (dr dg db : Int) (s : State),
    -2 ≤ dr → dr ≤ 1 → -2 ≤ dg → dg ≤ 1 → -2 ≤ db → db ≤ 1 →
    Memory.wf s.raster → s.cur.toNat < s.n.toNat → s.n.toNat ≤ s.rcap.toNat →
    (∃ px t, exec (.diff dr dg db) s = .next t ∧ ChunkEffect px 1 s t
      ∧ (px.r.toNat : Int) = (s.prev.r.toNat + dr) % 256 ∧ (px.g.toNat : Int) = (s.prev.g.toNat + dg) % 256
      ∧ (px.b.toNat : Int) = (s.prev.b.toNat + db) % 256 ∧ px.a = s.prev.a)
      ∧ (DecodeDue s → InputHolds s [BitVec.ofInt 8 (0x40 + (dr + 2) * 16 + (dg + 2) * 4 + (db + 2))] →
          step s = exec (.diff dr dg db) (consumed 1 s))

/-- R167: LUMA adds dG to green and dG plus its difference to red and blue, modulo 256, keeps alpha, and completes; its two
bytes are counted; cut short, it raises the error and nothing but BYTES has changed. -/
def Obligations.LumaAddsRelativeDeltas : Prop :=
  ∀ (dg drg dbg : Int) (s : State),
    -32 ≤ dg → dg ≤ 31 → -8 ≤ drg → drg ≤ 7 → -8 ≤ dbg → dbg ≤ 7 →
    Memory.wf s.raster → s.cur.toNat < s.n.toNat → s.n.toNat ≤ s.rcap.toNat →
    let bs : List Byte := [BitVec.ofInt 8 (0x80 + (dg + 32)), BitVec.ofInt 8 ((drg + 8) * 16 + (dbg + 8))]
    (∃ px t, exec (.luma dg drg dbg) s = .next t ∧ ChunkEffect px 1 s t
      ∧ (px.r.toNat : Int) = (s.prev.r.toNat + (dg + drg)) % 256 ∧ (px.g.toNat : Int) = (s.prev.g.toNat + dg) % 256
      ∧ (px.b.toNat : Int) = (s.prev.b.toNat + (dg + dbg)) % 256 ∧ px.a = s.prev.a)
      ∧ (DecodeDue s → InputHolds s bs → step s = exec (.luma dg drg dbg) (consumed 2 s))
      ∧ (DecodeDue s → CutShort bs s)

/-- R169: RGB takes its three channels raw and alpha from PREV, and completes; its four bytes are counted; cut short, it
raises the error. -/
def Obligations.RgbKeepsAlpha : Prop :=
  ∀ (r g b : Byte) (s : State),
    Memory.wf s.raster → s.cur.toNat < s.n.toNat → s.n.toNat ≤ s.rcap.toNat →
    (∃ t, exec (.rgb r g b) s = .next t ∧ ChunkEffect ⟨r, g, b, s.prev.a⟩ 1 s t)
      ∧ (DecodeDue s → InputHolds s [0xFE, r, g, b] → step s = exec (.rgb r g b) (consumed 4 s))
      ∧ (DecodeDue s → CutShort [0xFE, r, g, b] s)

/-- R171: RGBA takes all four channels raw, and completes; its five bytes are counted; cut short, it raises the error. -/
def Obligations.RgbaIsRaw : Prop :=
  ∀ (r g b a : Byte) (s : State),
    Memory.wf s.raster → s.cur.toNat < s.n.toNat → s.n.toNat ≤ s.rcap.toNat →
    (∃ t, exec (.rgba r g b a) s = .next t ∧ ChunkEffect ⟨r, g, b, a⟩ 1 s t)
      ∧ (DecodeDue s → InputHolds s [0xFF, r, g, b, a] → step s = exec (.rgba r g b a) (consumed 5 s))
      ∧ (DecodeDue s → CutShort [0xFF, r, g, b, a] s)

/-- The frame of all six chunks (R161 to R171, R238): only CUR, PREV, the slot HASH6 of the produced pixel and the raster
bytes of the produced pixels may change.  `chunkPixel` and `chunkCount` are what the meanings use. -/
def Obligations.ChunkFrame : Prop :=
  ∀ (i : Instr) (s t : State), exec i s = .next t →
    let w := min (chunkCount i) (s.n.toNat - s.cur.toNat)
    t = (((s.setRaster t.raster).setCur t.cur).setCache t.cache).setPrev t.prev
      ∧ (∀ a, a < 4 * s.cur.toNat ∨ 4 * (s.cur.toNat + w) ≤ a → Memory.read t.raster a = Memory.read s.raster a)
      ∧ (∀ k : Fin cacheSlots, k ≠ hash6 (chunkPixel i s) → t.cache[k] = s.cache[k])
      ∧ t.cur.toNat = s.cur.toNat + w ∧ t.prev = chunkPixel i s ∧ t.cache[hash6 (chunkPixel i s)] = chunkPixel i s

/-- The MODEL'S choice of log entry 9: a chunk stops, by the fault of that name, exactly when it would write a pixel at or
above RCAP; in every other state it completes. -/
def Obligations.ChunkStopsOnlyAboveCapacity : Prop :=
  ∀ (i : Instr) (s : State),
    let w := min (chunkCount i) (s.n.toNat - s.cur.toNat)
    (0 < w ∧ s.rcap.toNat < s.cur.toNat + w → exec i s = .fault .rasterOutOfRange)
      ∧ (¬ (0 < w ∧ s.rcap.toNat < s.cur.toNat + w) → ∃ t, exec i s = .next t)

/-- R160: the completion of every chunk step, decode and encode: the last pixel produced is inserted in its slot and becomes
PREV; a chunk step that raises an error performs no completion. -/
def Obligations.EveryChunkCompletes : Prop :=
  (∀ (i : Instr) (s t : State), exec i s = .next t →
      t.cache = s.cache.set (hash6 (chunkPixel i s)).val (chunkPixel i s) (hash6 (chunkPixel i s)).isLt
        ∧ t.prev = chunkPixel i s)
    ∧ (∀ s t : State, EncodeDue s → step s = .next t → t.phase ≠ .error →
        let px := readPixel s.raster s.cur.toNat
        t.cache = s.cache.set (hash6 px).val px (hash6 px).isLt ∧ t.prev = px)
    ∧ ∀ s t : State, DecodeDue s ∨ EncodeDue s → step s = .next t → t.phase = .error →
        t.cache = s.cache ∧ t.prev = s.prev

/-! The step and the decoder (43_decoder.md). -/

/-- R234: when the bytes at the stream position decode to a chunk, the step counts its bytes and is exec of it, whether the
engine steps alone or as the next event. -/
def Obligations.StepRunsDecodedChunk : Prop :=
  ∀ (i : Instr) (rest : List Byte) (s : State),
    s.phase = .decBody → s.cur.toNat < s.n.toNat →
    decode (s.input.drop s.bytes.toNat) = .ok (i, rest) →
    (∀ e, s.inErr = some e → s.bytes.toNat + (encode i).length ≤ e) →
    s.bytes.toNat + (encode i).length < 2 ^ 64 →
    (s.events = [] → step s = exec i (consumed (encode i).length s))
      ∧ ∀ es, s.events = .engine :: es → step s = exec i (consumed (encode i).length (s.setEvents es))

/-- R302, R240, R233 for every chunk: a chunk of which only the first `k` bytes come in raises TruncatedStream at the end
of the stream and IOError at a failing port, with the coordinate of the first pixel it would have produced; nothing but
BYTES, PHASE and the error record has changed. -/
def Obligations.CutChunkRaises : Prop :=
  ∀ (i : Instr) (k : Nat) (s : State),
    i.wf = true → k < (encode i).length → DecodeDue s →
    s.n.toNat = s.width.toNat * s.height.toNat →
    (InputEnds s ((encode i).take k) → ∃ x y : Word, x.toNat = s.cur.toNat % s.width.toNat
        ∧ y.toNat = s.cur.toNat / s.width.toNat
        ∧ step s = .next (((consumed k s).setError (some .truncatedStream) true x y).setPhase .error))
      ∧ (InputFails s ((encode i).take k) → ∃ x y : Word, x.toNat = s.cur.toNat % s.width.toNat
        ∧ y.toNat = s.cur.toNat / s.width.toNat
        ∧ step s = .next (((consumed k s).setError (some .ioError) true x y).setPhase .error))

/-- R231: the decode header step: MAGIC, then width, height, channels and colorspace are taken over whatever they are, N is
their product, and DimensionOverflow is raised when it exceeds RCAP, the registers already written. -/
def Obligations.DecodeHeaderStep : Prop :=
  ∀ (s : State) (w h : Word) (ch cs : Byte),
    s.phase = .decHdr → s.events = [] → InputHolds s (headerBytes s.magic w h ch cs) →
    let u := (((((consumed 14 s).setWidth w).setHeight h).setChannels ch).setColorspace cs).setN (pixelCount w h)
    (pixelCount w h).toNat = w.toNat * h.toNat
      ∧ (w.toNat * h.toNat ≤ s.rcap.toNat → step s = .next (u.setPhase .decBody))
      ∧ (s.rcap.toNat < w.toNat * h.toNat →
          step s = .next ((u.setError (some .dimensionOverflow) false 0 0).setPhase .error))

/-- R232, R301, R302: the magic is checked as soon as its 4 bytes are read, in a decode and in a peek pass: 4 bytes that
differ raise MalformedMagic whatever follows; fewer than 4 bytes, or a right magic with fewer than 14 bytes, raise
TruncatedStream.  WIDTH, HEIGHT and HDR_INFO are unchanged and no position is recorded. -/
def Obligations.HeaderErrors : Prop :=
  ∀ (s : State) (m : List Byte), (s.phase = .decHdr ∨ s.phase = .peekHdr) → s.events = [] →
    (m.length = 4 → m ≠ s.magic.toBytes → InputHolds s m →
        step s = .next (((consumed 4 s).setError (some .malformedMagic) false 0 0).setPhase .error))
      ∧ ((m.length < 4 ∨ (m.length < 14 ∧ m.take 4 = s.magic.toBytes)) → InputEnds s m →
        step s = .next (((consumed m.length s).setError (some .truncatedStream) false 0 0).setPhase .error))
      ∧ ((m.length < 4 ∨ (m.length < 14 ∧ m.take 4 = s.magic.toBytes)) → InputFails s m →
        step s = .next (((consumed m.length s).setError (some .ioError) false 0 0).setPhase .error))

/-- R237: a peek reads the header, writes WIDTH, HEIGHT and HDR_INFO and is DONE: no capacity test, no chunk, no trailer, no
raster access.  N stays what it was (log entry 13). -/
def Obligations.PeekStep : Prop :=
  ∀ (s : State) (w h : Word) (ch cs : Byte),
    s.phase = .peekHdr → s.events = [] → InputHolds s (headerBytes s.magic w h ch cs) →
    step s = .next (((((consumed 14 s).setWidth w).setHeight h).setChannels ch).setColorspace cs |>.setPhase .done)

/-- R236: all 8 trailer bytes are read before they are compared: the end marker ends the pass in DONE, any other 8 bytes
raise BadTrailer, fewer raise TruncatedStream, a failing port IOError; no position is recorded. -/
def Obligations.DecodeTrailerStep : Prop :=
  ∀ (s : State) (m : List Byte), s.phase = .decTrl → s.events = [] →
    (InputHolds s [0, 0, 0, 0, 0, 0, 0, 1] → step s = .next ((consumed 8 s).setPhase .done))
      ∧ (m.length = 8 → m ≠ [0, 0, 0, 0, 0, 0, 0, 1] → InputHolds s m →
        step s = .next (((consumed 8 s).setError (some .badTrailer) false 0 0).setPhase .error))
      ∧ (m.length < 8 → InputEnds s m →
        step s = .next (((consumed m.length s).setError (some .truncatedStream) false 0 0).setPhase .error))
      ∧ (m.length < 8 → InputFails s m →
        step s = .next (((consumed m.length s).setError (some .ioError) false 0 0).setPhase .error))

/-- R205, R235: with CUR = N the chunk loop goes to the end marker; no other state changes. -/
def Obligations.EndTests : Prop :=
  ∀ s : State, s.events = [] → s.cur = s.n →
    (s.phase = .encBody → step s = .next (s.setPhase .encTrl))
      ∧ (s.phase = .decBody → step s = .next (s.setPhase .decTrl))

/-! The encoder (42_encoder.md). -/

/-- R201: the encode header step: DimensionOverflow before any byte when N exceeds RCAP; else the 14 header bytes, WIDTH and
HEIGHT most significant byte first (R67), with colorspace 0; a failing port raises IOError with the bytes before the failing
one in the output. -/
def Obligations.EncodeHeaderStep : Prop :=
  ∀ s : State, s.phase = .encHdr → s.events = [] →
    let be := fun v : Word =>
      [BitVec.ofNat 8 (v.toNat / 256 ^ 3 % 256), BitVec.ofNat 8 (v.toNat / 256 ^ 2 % 256),
        BitVec.ofNat 8 (v.toNat / 256 % 256), BitVec.ofNat 8 (v.toNat % 256)]
    let hdr := s.magic.toBytes ++ be s.width ++ be s.height ++ [s.channels, 0]
    let u := s.setN (pixelCount s.width s.height)
    hdr.length = 14 ∧ hdr = headerBytes s.magic s.width s.height s.channels 0
      ∧ u.n.toNat = s.width.toNat * s.height.toNat
      ∧ (s.rcap.toNat < s.width.toNat * s.height.toNat →
          step s = .next ((u.setError (some .dimensionOverflow) false 0 0).setPhase .error))
      ∧ (s.width.toNat * s.height.toNat ≤ s.rcap.toNat → OutputAccepts s 14 →
          step s = .next ((emitted hdr u).setPhase .encBody))
      ∧ ∀ k, k < 14 → s.width.toNat * s.height.toNat ≤ s.rcap.toNat → OutputFails s k →
          step s = .next (((emitted (hdr.take k) u).setError (some .ioError) false 0 0).setPhase .error)

/-- R202: the priority selector emits the first applicable chunk in the fixed order, advances CUR by its pixels and
completes; a failing port raises IOError with the bytes before the failing one in the output and CUR, PREV and CACHE as
they were. -/
def Obligations.SelectorEmitsFirstApplicable : Prop :=
  ∀ s : State, EncodeDue s →
    let px := readPixel s.raster s.cur.toNat
    ∃ n, 1 ≤ n ∧ (px = s.prev → IsRunLength s n) ∧ (px ≠ s.prev → n = 1)
      ∧ (OutputAccepts s (selectedBytes s px n).length →
          step s = .next (complete px
            ((emitted (selectedBytes s px n) s).setCur (BitVec.ofNat 64 (s.cur.toNat + n)))))
      ∧ ∀ k, k < (selectedBytes s px n).length → OutputFails s k →
          step s = .next (raise .ioError (emitted ((selectedBytes s px n).take k) s))

/-- R203: the run measurement returns the maximal run of pixels equal to PREV from the cursor, 1 to 62 long and inside the
raster. -/
def Obligations.RunLengthIsMaximal : Prop :=
  ∀ s : State, s.cur.toNat < s.n.toNat → s.n.toNat ≤ s.rcap.toNat →
    readPixel s.raster s.cur.toNat = s.prev → ∃ n, runLength s = .ok n ∧ IsRunLength s n

/-- R108: the encoder emits no operand outside its range: a RUN is 1 to 62 long and every other chunk it selects is
well-formed. -/
def Obligations.EncoderEmitsEncodable : Prop :=
  (∀ (s : State) (n : Nat), runLength s = .ok n → (Instr.run n).wf = true)
    ∧ ∀ (px : Pixel) (s : State), (selectChunk px s).wf = true

/-- R209, chunk by chunk: outside a RUN the chunk emitted produces a pixel that is not PREV; an INDEX names the pixel's own
slot; DIFF, LUMA and RGB keep alpha and RGBA changes it; a RUN stays in the raster, and one shorter than 62 is followed by
another pixel or by the end. -/
def Obligations.EncoderOutputIsCanonical : Prop :=
  ∀ s : State, EncodeDue s →
    let px := readPixel s.raster s.cur.toNat
    let i := selectChunk px s
    (px ≠ s.prev →
        chunkPixel i s = px ∧ (∀ k, i = .index k → hash6 px = k)
          ∧ (∀ dr dg db, i = .diff dr dg db → px.a = s.prev.a)
          ∧ (∀ dg drg dbg, i = .luma dg drg dbg → px.a = s.prev.a) ∧ (∀ r g b, i = .rgb r g b → px.a = s.prev.a)
          ∧ ∀ r g b a, i = .rgba r g b a → px.a ≠ s.prev.a)
      ∧ (px = s.prev → ∀ t, step s = .next t → t.phase ≠ .error →
          t.cur.toNat ≤ s.n.toNat ∧ t.prev = s.prev
            ∧ (t.cur.toNat < s.cur.toNat + 62 → t.cur.toNat < s.n.toNat →
                readPixel t.raster t.cur.toNat ≠ t.prev))

/-- R206: the encode trailer step writes the end marker and is DONE; a failing port raises IOError with no position. -/
def Obligations.EncodeTrailerStep : Prop :=
  ∀ s : State, s.phase = .encTrl → s.events = [] →
    (OutputAccepts s 8 → step s = .next ((emitted [0, 0, 0, 0, 0, 0, 0, 1] s).setPhase .done))
      ∧ ∀ k, k < 8 → OutputFails s k →
          step s = .next (((emitted (([0, 0, 0, 0, 0, 0, 0, 1] : List Byte).take k) s).setError
            (some .ioError) false 0 0).setPhase .error)

/-- R208: the output length stays within the bounds of the pixels encoded so far, and a finished encode pass wrote between
22 + ceil(N / 62) and 22 + 5N bytes. -/
def Obligations.OutputLengthBounds : Prop :=
  ∀ s t : State, Inv s → OutputBounds s → step s = .next t →
    OutputBounds t
      ∧ (s.phase = .encTrl → t.phase = .done →
          22 + (s.n.toNat + 61) / 62 ≤ t.output.length ∧ t.output.length ≤ 22 + 5 * s.n.toNat)

/-! Errors (60_exceptions.md). -/

/-- R306, R34: error entry writes PHASE, the code and the position record and nothing else: the coordinate of CUR in a chunk
step, no position otherwise. -/
def Obligations.ErrorEntry : Prop :=
  ∀ (e : PassError) (s : State), Inv s → busy s = true →
    ∃ x y : Word,
      raise e s = (s.setError (some e) (inChunkStep s) x y).setPhase .error
        ∧ (inChunkStep s = true ↔ ((s.phase = .encBody ∨ s.phase = .decBody) ∧ s.cur.toNat < s.n.toNat))
        ∧ (inChunkStep s = true →
            x.toNat = s.cur.toNat % s.width.toNat ∧ y.toNat = s.cur.toNat / s.width.toNat)
        ∧ (inChunkStep s = false → x = 0 ∧ y = 0)
        ∧ busy (raise e s) = false ∧ (readReg .status (raise e s)).extractLsb' 0 3 = 0b100#3
        ∧ (readReg .status (raise e s)).extractLsb' 8 4 = errorCode (some e)

/-- R307: an engine step that raises an error keeps CUR, PREV, CACHE and the raster; the bytes it transferred stay read or
written and counted. -/
def Obligations.FailingStepKeepsState : Prop :=
  ∀ s t : State, s.events = [] → busy s = true → step s = .next t → t.phase = .error →
    t.cur = s.cur ∧ t.prev = s.prev ∧ t.cache = s.cache ∧ t.raster = s.raster ∧ t.input = s.input
      ∧ (s.phase.encoding = true →
          ∃ bs, t.output = s.output ++ bs ∧ t.bytes = s.bytes + BitVec.ofNat 64 bs.length)
      ∧ (s.phase.encoding = false → t.output = s.output ∧ ∃ j, j ≤ 14 ∧ t.bytes = s.bytes + BitVec.ofNat 64 j)

/-- R310: irq is IRQ_EN and (DONE or ERROR): it rises at the step that ends a pass and at a write of IRQ_EN = 1 in DONE or
ERROR, falls with IRQ_EN, with CLEAR, with a new pass and with reset, and with nothing else, and is read in STATUS. -/
def Obligations.InterruptLevel : Prop :=
  (∀ s : State, irq s = true ↔ (s.irqEn = true ∧ (s.phase = .done ∨ s.phase = .error)))
    ∧ (∀ s t : State, s.events = [] → busy s = true → step s = .next t → busy t = false → irq t = s.irqEn)
    ∧ (∀ (s : State) (v : Word), (v.extractLsb' 0 3).toNat = 0 ∨ 5 ≤ (v.extractLsb' 0 3).toNat →
        irq (regWrite 0 v s) = (v.getLsbD 8 && (decide (s.phase = .done) || decide (s.phase = .error))))
    ∧ (∀ (s : State) (v : Word), busy s = false → 1 ≤ (v.extractLsb' 0 3).toNat → (v.extractLsb' 0 3).toNat ≤ 4 →
        irq (regWrite 0 v s) = false)
    ∧ (∀ s : State, irq (hardReset s) = false)
    ∧ (∀ s t : State, step s = .next t → irq s = true → irq t = false →
        ∃ e es, s.events = e :: es ∧ (e = .reset ∨ ∃ size v, e = .regWrite 0 size v))
    ∧ ∀ s : State, (regRead 0x04 s).getLsbD 24 = irq s

/-! Registers, commands and reset (10_state.md, 44_control.md, 70_reset_and_hazards.md). -/

/-- R31: the fields of STATUS, PHASE and ERR_CODE by the numbers of R28 and R300, and 0 in every other bit; it is read-only,
0 at reset, and reading it changes nothing. -/
def Obligations.StatusFields : Prop :=
  ∀ s : State,
    let v := regRead 0x04 s
    let phaseNumber : Nat := match s.phase with
      | .idle => 0
      | .encHdr => 1
      | .encBody => 2
      | .encTrl => 3
      | .decHdr => 4
      | .decBody => 5
      | .decTrl => 6
      | .peekHdr => 7
      | .done => 8
      | .error => 9
    let errorNumber : Nat := match s.errCode with
      | none => 0
      | some .malformedMagic => 1
      | some .truncatedStream => 2
      | some .badTrailer => 3
      | some .dimensionOverflow => 4
      | some .ioError => 5
    (v.getLsbD 0 = true ↔ 1 ≤ phaseNumber ∧ phaseNumber ≤ 7) ∧ (v.getLsbD 1 = true ↔ phaseNumber = 8)
      ∧ (v.getLsbD 2 = true ↔ phaseNumber = 9) ∧ v.getLsbD 3 = s.posValid ∧ v.extractLsb' 4 4 = 0
      ∧ (v.extractLsb' 8 4).toNat = errorNumber ∧ v.extractLsb' 12 4 = 0
      ∧ (v.extractLsb' 16 4).toNat = phaseNumber ∧ v.extractLsb' 20 4 = 0
      ∧ v.getLsbD 24 = irq s ∧ v.extractLsb' 25 7 = 0
      ∧ (∀ x : Word, regWrite 0x04 x s = s) ∧ regRead 0x04 State.reset = 0
      ∧ ∀ es, s.events = .regRead 0x04 4 :: es → step s = .next ((s.setEvents es).setLastRead (some (.word v)))

/-- R30, R32 to R36, R261: what every other mapped register reads, its reserved bits 0. -/
def Obligations.RegisterReads : Prop :=
  ∀ s : State,
    (regRead 0x00 s).toNat = s.irqEn.toNat * 2 ^ 8 ∧ regRead 0x08 s = s.width ∧ regRead 0x0C s = s.height
      ∧ (regRead 0x10 s).toNat = s.colorspace.toNat * 2 ^ 8 + s.channels.toNat
      ∧ regRead 0x14 s = s.errX ∧ regRead 0x18 s = s.errY
      ∧ (regRead 0x1C s).toNat = s.rcap.toNat % 2 ^ 32 ∧ (regRead 0x20 s).toNat = s.rcap.toNat / 2 ^ 32
      ∧ (regRead 0x24 s).toNat = s.cur.toNat % 2 ^ 32 ∧ (regRead 0x28 s).toNat = s.cur.toNat / 2 ^ 32
      ∧ (regRead 0x2C s).toNat = s.bytes.toNat % 2 ^ 32 ∧ (regRead 0x30 s).toNat = s.bytes.toNat / 2 ^ 32

/-- R32, R33, R35, R270: a configuration register written while not BUSY reads back what was written, and nothing else
changes; while BUSY the write has no effect. -/
def Obligations.ConfigurationWrites : Prop :=
  ∀ (s : State) (v : Word),
    (busy s = false →
        regWrite 0x08 v s = s.setWidth v ∧ regWrite 0x0C v s = s.setHeight v
          ∧ regWrite 0x10 v s = s.setChannels (BitVec.ofNat 8 v.toNat)
          ∧ regWrite 0x1C v s = s.setRcap (BitVec.ofNat 64 (s.rcap.toNat / 2 ^ 32 * 2 ^ 32 + v.toNat))
          ∧ regWrite 0x20 v s = s.setRcap (BitVec.ofNat 64 (v.toNat * 2 ^ 32 + s.rcap.toNat % 2 ^ 32))
          ∧ regRead 0x08 (regWrite 0x08 v s) = v ∧ regRead 0x0C (regWrite 0x0C v s) = v
          ∧ regRead 0x1C (regWrite 0x1C v s) = v ∧ regRead 0x20 (regWrite 0x20 v s) = v
          ∧ regRead 0x20 (regWrite 0x1C v s) = regRead 0x20 s ∧ regRead 0x1C (regWrite 0x20 v s) = regRead 0x1C s)
      ∧ (busy s = true → ∀ off, off ∈ [0x08, 0x0C, 0x10, 0x1C, 0x20] → regWrite off v s = s)

/-- R31, R34, R36, R37: writes to read-only registers and to the unmapped offsets 0x34 to 0xFC have no effect, and those
offsets read 0.  (An access beyond the window is refused: log entry 7, RegisterAccessEvents.) -/
def Obligations.ReadOnlyAndUnmapped : Prop :=
  ∀ (s : State) (v : Word) (off : Nat),
    (off ∈ [0x04, 0x14, 0x18, 0x24, 0x28, 0x2C, 0x30] → regWrite off v s = s)
      ∧ (0x34 ≤ off → off ≤ 0xFC → off % 4 = 0 → regWrite off v s = s ∧ regRead off s = 0)

/-- R262, R267, R269: a CTRL write sets IRQ_EN at any time; its command is accepted only while BUSY = 0, and starts the pass
or clears the error record on the state with IRQ_EN set; the configuration registers, the raster and the input stay; NONE
and the reserved codes start nothing.  That a start command keeps the draws IN_ERR and OUT_ERR, as the equations for the
whole next state say, is the MODEL'S choice of log entry 20 (DESIGN CHOICE, unsafe for claims across passes). -/
def Obligations.CommandAcceptance : Prop :=
  ∀ (s : State) (v : Word),
    let c := (v.extractLsb' 0 3).toNat
    let t := s.setIrqEn (v.getLsbD 8)
    let u := regWrite 0x00 v s
    (busy s = true → u = t)
      ∧ (busy s = false →
          (c = 1 → u = startEncode t ∧ u = ((passStart t).setOutput []).setPhase .encHdr)
          ∧ (c = 2 → u = startDecode t ∧ u = (passStart t).setPhase .decHdr)
          ∧ (c = 3 → u = startPeek t ∧ u = (passStart t).setPhase .peekHdr)
          ∧ (c = 4 → u = (t.setError none false 0 0).setPhase .idle)
          ∧ (c = 0 ∨ 5 ≤ c → u = t))
      ∧ u.irqEn = v.getLsbD 8 ∧ u.width = s.width ∧ u.height = s.height ∧ u.channels = s.channels
      ∧ u.colorspace = s.colorspace ∧ u.rcap = s.rcap ∧ u.raster = s.raster ∧ u.input = s.input

/-- R268, R342: the three pass-start commands set every pass state, so what a pass starts from does not depend on earlier
passes: states that agree on the rest start equal. -/
def Obligations.PassStartForgetsThePast : Prop :=
  (∀ s t : State, t = startEncode s ∨ t = startDecode s ∨ t = startPeek s →
      (∀ k : Fin cacheSlots, t.cache[k] = ⟨0, 0, 0, 0⟩) ∧ t.prev = ⟨0, 0, 0, 255⟩ ∧ t.cur = 0 ∧ t.bytes = 0 ∧ t.n = 0
        ∧ t.errCode = none ∧ t.posValid = false ∧ t.errX = 0 ∧ t.errY = 0)
    ∧ ∀ (s : State) (c : Vector Pixel cacheSlots) (p : Pixel) (u v w : Count) (e : Option PassError) (b : Bool)
        (x y : Word) (ph : Phase) (out : List Byte),
        let s' := ((((((s.setCache c).setPrev p).setCur u).setBytes v).setN w).setError e b x y).setPhase ph
        startEncode (s'.setOutput out) = startEncode s ∧ startDecode s' = startDecode s ∧ startPeek s' = startPeek s

/-- R340, R341, R41: hardware reset as an event, at any step boundary: every engine register at its reset value, the raster
and the stream buffers as they were; every register then reads its reset value and the engine takes no step. -/
def Obligations.HardwareReset : Prop :=
  ∀ (s : State) (es : List Event), s.events = .reset :: es →
    ∃ t, step s = .next t ∧ t.phase = .idle ∧ (∀ k : Fin cacheSlots, t.cache[k] = ⟨0, 0, 0, 0⟩)
      ∧ t.prev = ⟨0, 0, 0, 255⟩ ∧ t.cur = 0 ∧ t.bytes = 0 ∧ t.n = 0 ∧ t.errCode = none ∧ t.posValid = false
      ∧ t.errX = 0 ∧ t.errY = 0 ∧ t.irqEn = false ∧ t.width = 0 ∧ t.height = 0 ∧ t.channels = 4 ∧ t.colorspace = 0
      ∧ t.rcap = 0 ∧ irq t = false ∧ t.raster = s.raster ∧ t.input = s.input ∧ t.output = s.output
      ∧ t.events = es
      ∧ (∀ off, regRead off t = if off = 0x10 then 4 else 0) ∧ engineStep t = .next t

/-- R340: after reset every register of the window reads 0 but HDR_INFO, which reads 4, and the engine takes no step; and,
by the MODEL'S choice of log entry 17, a reset leaves the ports' draws and MAGIC as they were. -/
def Obligations.ResetRegisters : Prop :=
  (∀ off, regRead off State.reset = if off = 0x10 then 4 else 0)
    ∧ step State.reset = .next State.reset ∧ busy State.reset = false
    ∧ ∀ s : State, (hardReset s).inErr = s.inErr ∧ (hardReset s).outErr = s.outErr ∧ (hardReset s).magic = s.magic

/-- R260, R261, R65: an aligned word read inside the window returns the register and has no side effect on the engine, the
raster or the streams; an aligned word write inside the window has the register's effect and no other; an access that is no
aligned word is refused (log entry 6), and so is an aligned word access beyond the window (log entry 7). -/
def Obligations.RegisterAccessEvents : Prop :=
  ∀ (s : State) (off size : Nat) (es : List Event),
    (s.events = .regRead off size :: es →
      (size = 4 → off % 4 = 0 → off < 0x100 →
          step s = .next ((s.setEvents es).setLastRead (some (.word (regRead off s)))))
        ∧ (size ≠ 4 ∨ off % 4 ≠ 0 → step s = .refused .registerAccess)
        ∧ (size = 4 → off % 4 = 0 → 0x100 ≤ off → step s = .refused .outsideWindow))
      ∧ ∀ v : Word, s.events = .regWrite off size v :: es →
        (size = 4 → off % 4 = 0 → off < 0x100 → step s = .next (regWrite off v (s.setEvents es)))
          ∧ (size ≠ 4 ∨ off % 4 ≠ 0 → step s = .refused .registerAccess)
          ∧ (size = 4 → off % 4 = 0 → 0x100 ≤ off → step s = .refused .outsideWindow)

/-- R76, R274, R347: what the host's moves on its raster and on the streams do.  A read changes nothing of the engine; it
returns what is stored, but for a pixel or a byte that the busy pass has not yet finished, where it returns free values (log
entry 8).  A permitted write, input or draw replaces just that; one that the host has no right to while a pass is busy stops
by name (log entry 5). -/
def Obligations.HostAccess : Prop :=
  ∀ (s : State) (es : List Event),
    let decoding := s.phase = .decHdr ∨ s.phase = .decBody ∨ s.phase = .decTrl
    (∀ i, s.events = .rasterRead i :: es →
        (¬ decoding ∨ i.toNat < s.cur.toNat ∨ (s.phase ≠ .decHdr ∧ s.n.toNat ≤ i.toNat) →
            step s = .next ((s.setEvents es).setLastRead (some (.pixel (readPixel s.raster i.toNat)))))
          ∧ (decoding → s.cur.toNat ≤ i.toNat → s.phase = .decHdr ∨ i.toNat < s.n.toNat →
            step s = .next (((s.setEvents es).setLastRead (some (.pixel ⟨racedByte s.raced, racedByte (s.raced + 1),
              racedByte (s.raced + 2), racedByte (s.raced + 3)⟩))).setRaced (s.raced + 4))))
      ∧ (∀ k, s.events = .outputRead k :: es →
        (∀ h : k < s.output.length, step s = .next ((s.setEvents es).setLastRead (some (.byte s.output[k]))))
          ∧ (s.output.length ≤ k → s.phase.encoding = true →
            step s = .next (((s.setEvents es).setLastRead (some (.byte (racedByte s.raced)))).setRaced (s.raced + 1)))
          ∧ (s.output.length ≤ k → s.phase.encoding = false →
            step s = .next ((s.setEvents es).setLastRead (some .noByte))))
      ∧ (∀ i px, s.events = .rasterWrite i px :: es →
        (s.phase.encoding = true → i.toNat < s.width.toNat * s.height.toNat → step s = .refused .hostBreaksDuty)
          ∧ (decoding → s.phase = .decHdr ∨ i.toNat < s.n.toNat → step s = .fault .decodeRasterRace)
          ∧ ((s.phase.encoding = true → s.width.toNat * s.height.toNat ≤ i.toNat) →
            (decoding → s.phase ≠ .decHdr ∧ s.n.toNat ≤ i.toNat) → Memory.wf s.raster →
            ∃ m, step s = .next ((s.setEvents es).setRaster m) ∧ m = writePixel s.raster i.toNat px
              ∧ readPixel m i.toNat = px ∧ ∀ j, j ≠ i.toNat → readPixel m j = readPixel s.raster j))
      ∧ (∀ bs e, s.events = .bindInput bs e :: es →
        (decoding ∨ s.phase = .peekHdr → step s = .refused .hostBreaksDuty)
          ∧ (¬ (decoding ∨ s.phase = .peekHdr) → step s = .next ((s.setEvents es).setInput bs e)))
      ∧ ∀ e, s.events = .drawOutErr e :: es →
        (s.phase.encoding = true → step s = .refused .hostBreaksDuty)
          ∧ (s.phase.encoding = false → step s = .next ((s.setEvents es).setOutErr e))

/-! The whole machine. -/

/-- R29: the only phase changes: by the engine's own step those of the table, by a CTRL write while not BUSY to the phase of
its command, by reset to IDLE; every other event, and a command while BUSY, keeps PHASE. -/
def Obligations.OnlyListedTransitions : Prop :=
  ∀ s t : State, step s = .next t →
    match s.events with
    | [] => EngineEdge s t.phase
    | .engine :: _ => EngineEdge s t.phase
    | .regWrite off _ v :: _ => t.phase =
        (if off = 0 ∧ busy s = false then
          if v.extractLsb' 0 3 = 1 then .encHdr else if v.extractLsb' 0 3 = 2 then .decHdr
          else if v.extractLsb' 0 3 = 3 then .peekHdr else if v.extractLsb' 0 3 = 4 then .idle else s.phase
        else s.phase)
    | .reset :: _ => t.phase = .idle
    | .regRead _ _ :: _ => t.phase = s.phase
    | .bindInput _ _ :: _ => t.phase = s.phase
    | .drawOutErr _ :: _ => t.phase = s.phase
    | .rasterWrite _ _ :: _ => t.phase = s.phase
    | .rasterRead _ :: _ => t.phase = s.phase
    | .outputRead _ :: _ => t.phase = s.phase

/-- R62, R72, R270, R92: what no engine step changes: MAGIC, IRQ_EN, RCAP, the input and the ports' draws; only a decode chunk
step writes the raster; only an encode step writes the output; only a decode or peek header step writes WIDTH, HEIGHT and
HDR_INFO; only an encode or decode header step writes N (that a peek does not is the MODEL'S choice, log entry 13). -/
def Obligations.EngineStepFrame : Prop :=
  ∀ s t : State, s.events = [] → step s = .next t →
    t.magic = s.magic ∧ t.irqEn = s.irqEn ∧ t.rcap = s.rcap ∧ t.input = s.input ∧ t.inErr = s.inErr
      ∧ t.outErr = s.outErr ∧ t.events = [] ∧ t.lastRead = s.lastRead ∧ t.raced = s.raced
      ∧ (s.phase ≠ .decBody → t.raster = s.raster) ∧ (s.phase.encoding = false → t.output = s.output)
      ∧ (s.phase ≠ .decHdr → s.phase ≠ .peekHdr →
          t.width = s.width ∧ t.height = s.height ∧ t.channels = s.channels ∧ t.colorspace = s.colorspace)
      ∧ (s.phase ≠ .encHdr → s.phase ≠ .decHdr → t.n = s.n)

/-- R24, R238, R241, R351: CUR never moves back and never passes N; a completed chunk step moves it by 1 to 62 pixels and
transfers 1 to 5 bytes; no other step moves it. -/
def Obligations.CursorAdvances : Prop :=
  ∀ s t : State, Inv s → s.events = [] → step s = .next t →
    (((s.phase = .encBody ∨ s.phase = .decBody) ∧ s.cur.toNat < s.n.toNat ∧ t.phase ≠ .error) →
        s.cur.toNat < t.cur.toNat ∧ t.cur.toNat ≤ s.cur.toNat + 62 ∧ t.cur.toNat ≤ s.n.toNat
          ∧ ∃ j, 1 ≤ j ∧ j ≤ 5 ∧ t.bytes = s.bytes + BitVec.ofNat 64 j)
      ∧ (¬ ((s.phase = .encBody ∨ s.phase = .decBody) ∧ s.cur.toNat < s.n.toNat ∧ t.phase ≠ .error) →
          t.cur = s.cur)

/-- The invariant (canonical raster memory, R138, R300, R34, R268, R27, R24, R205, R235, R26) holds after reset. -/
def Obligations.InvAtReset : Prop := Inv State.reset

/-- Every step that answers a next state keeps the invariant, whatever the host does. -/
def Obligations.InvKept : Prop := ∀ s t : State, Inv s → step s = .next t → Inv t

/-- R204, R238: from a state that meets the invariant no step, and no run, leaves the raster the host provided. -/
def Obligations.EngineStaysInRaster : Prop :=
  ∀ (s : State) (k : Nat), Inv s → Host.Core.run core k s ≠ .fault .rasterOutOfRange

/-- R350, R351: with no host event pending, every step of a busy engine completes and comes closer to the end of the pass. -/
def Obligations.EveryStepProgresses : Prop :=
  ∀ s : State, Inv s → s.events = [] → busy s = true → ∃ t, step s = .next t ∧ stepsLeft t < stepsLeft s

/-- R352, R241, R350: every pass ends in DONE or ERROR after at most `stepsLeft` steps, a whole pass after at most N + 3. -/
def Obligations.EveryPassEnds : Prop :=
  ∀ s : State, Inv s → s.events = [] → busy s = true →
    ∃ k t, k ≤ stepsLeft s ∧ Host.Core.run core k s = .next t ∧ (t.phase = .done ∨ t.phase = .error)
      ∧ (s.phase.header = true → k ≤ t.n.toNat + 3)

/-- R242, R238, R72: at every point of a decode pass the pass has written every pixel below CUR (what it holds there is the
same whatever the raster held before the pass) and no raster byte from pixel CUR on; at DONE that is all N pixels. -/
def Obligations.DecodePassWritesBelowCursor : Prop :=
  ∀ (k : Nat) (s t : State), Inv s → s.phase = .decHdr → s.events = [] → Host.Core.run core k s = .next t →
    (∀ a, 4 * t.cur.toNat ≤ a → Memory.read t.raster a = Memory.read s.raster a)
      ∧ (∀ m, Memory.wf m → ∃ m', Host.Core.run core k (s.setRaster m) = .next (t.setRaster m')
          ∧ ∀ i, i < t.cur.toNat → readPixel m' i = readPixel t.raster i)
      ∧ (t.phase = .done → t.cur = t.n ∧ t.n.toNat = t.width.toNat * t.height.toNat)

/-- R200, R342: what an encode pass writes is a function of the pixels of the raster, WIDTH, HEIGHT, CHANNELS and MAGIC (and
of the port's draw OUT_ERR): two passes that agree on these run alike, whatever else differs. -/
def Obligations.EncodeDependsOnlyOnOperands : Prop :=
  ∀ (k : Nat) (s t s' : State),
    Inv s → Inv t → s.phase = .encHdr → t.phase = .encHdr → s.events = [] → t.events = [] →
    t.width = s.width → t.height = s.height → t.channels = s.channels → t.magic = s.magic →
    t.outErr = s.outErr → t.output = s.output →
    s.width.toNat * s.height.toNat ≤ s.rcap.toNat → s.width.toNat * s.height.toNat ≤ t.rcap.toNat →
    (∀ i, i < s.width.toNat * s.height.toNat → readPixel t.raster i = readPixel s.raster i) →
    Host.Core.run core k s = .next s' →
    ∃ t', Host.Core.run core k t = .next t' ∧ t'.phase = s'.phase ∧ t'.output = s'.output ∧ t'.bytes = s'.bytes
      ∧ t'.cur = s'.cur ∧ t'.errCode = s'.errCode
      ∧ (s'.phase = .error → t'.posValid = s'.posValid ∧ t'.errX = s'.errX ∧ t'.errY = s'.errY)

/-- R173: for every step the encoder takes, a decoder that stands where it stood and has its output for input takes one step
and stands where it stands: the same pixels, CACHE and PREV.  The output is short enough for BYTES (log entry 10). -/
def Obligations.DecoderMirrorsEncoder : Prop :=
  ∀ e e' d : State, Mirror e d → step e = .next e' → e'.phase ≠ .error →
    e'.output <+: d.input → e'.output.length < 2 ^ 64 →
    ∃ d', step d = .next d' ∧ Mirror e' d'

/-- R173: decode(encode(R)) = R for every raster R: a decode pass over the output of a finished encode pass ends in DONE with
the encoder's dimensions, channels byte and pixels.  The output is short enough for BYTES (log entry 10). -/
def Obligations.DecodeOfEncodedRaster : Prop :=
  ∀ (k : Nat) (e e' d : State),
    Inv e → e.phase = .encHdr → e.events = [] → Host.Core.run core k e = .next e' → e'.phase = .done →
    e'.output.length < 2 ^ 64 →
    Inv d → d.phase = .decHdr → d.events = [] → d.input = e'.output → d.inErr = none → d.magic = e.magic →
    e.width.toNat * e.height.toNat ≤ d.rcap.toNat →
    ∃ d', Host.Core.run core k d = .next d' ∧ d'.phase = .done ∧ d'.width = e.width ∧ d'.height = e.height
      ∧ d'.channels = e.channels ∧ d'.colorspace = 0 ∧ d'.cache = e'.cache ∧ d'.prev = e'.prev
      ∧ ∀ i, i < e.width.toNat * e.height.toNat → readPixel d'.raster i = readPixel e.raster i
end

