-- ==== Sys2Proof/Laws/Memory.lean ====
section
/-! SUPPORT. The raster memory: read after write, and the canonical form under every memory operation. -/

namespace Sys2Proof.Machine

open Sys2Proof

theorem Memory.read_of_above (m : Memory) (a : Nat) (h : ∀ c ∈ m, a < c.1) : Memory.read m a = unlistedByte := by
  induction m with
  | nil => rfl
  | cons c m ih =>
    have hc := h c (by simp)
    simp only [Memory.read]
    rw [if_neg (by omega)]
    exact ih fun d hd => h d (by simp [hd])

theorem Memory.read_write_ne (m : Memory) (a b : Nat) (v : Byte) (h : b ≠ a) :
    Memory.read (Memory.write m a v) b = Memory.read m b := by
  induction m with
  | nil =>
    simp only [Memory.write]
    split
    · rfl
    · simp [Memory.read, h]
  | cons c m ih =>
    simp only [Memory.write]
    split
    · split
      · rfl
      · simp [Memory.read, h]
    · split
      · split
        · simp [Memory.read]; omega
        · simp only [Memory.read]
          rw [if_neg h, if_neg (by omega)]
      · simp only [Memory.read, ih]

theorem Memory.read_write_self (m : Memory) (a : Nat) (v : Byte) (h : Memory.wf m) :
    Memory.read (Memory.write m a v) a = v := by
  induction m with
  | nil =>
    simp only [Memory.write]
    split
    · simp_all [Memory.read]
    · simp [Memory.read]
  | cons c m ih =>
    obtain ⟨hp, hz⟩ := h
    rw [List.pairwise_cons] at hp
    have above : ∀ d ∈ m, c.1 < d.1 := hp.1
    simp only [Memory.write]
    split
    · split
      · rename_i hlt hv
        rw [hv]
        refine Memory.read_of_above _ _ fun d hd => ?_
        rcases List.mem_cons.mp hd with rfl | hd
        · exact hlt
        · have := above d hd; omega
      · simp [Memory.read]
    · split
      · split
        · rename_i heq hv
          rw [hv, heq]
          exact Memory.read_of_above _ _ above
        · simp [Memory.read]
      · rename_i h1 h2
        simp only [Memory.read, if_neg h2]
        exact ih ⟨hp.2, fun d hd => hz d (by simp [hd])⟩

theorem Memory.mem_write (m : Memory) (a : Nat) (v : Byte) (c : Host.Cell) (h : c ∈ Memory.write m a v) :
    c ∈ m ∨ (c = (a, v) ∧ v ≠ unlistedByte) := by
  induction m with
  | nil =>
    simp only [Memory.write] at h
    split at h
    · simp at h
    · simp_all
  | cons d m ih =>
    simp only [Memory.write] at h
    split at h
    · split at h
      · exact .inl h
      · simp only [List.mem_cons] at h ⊢
        tauto
    · split at h
      · split at h
        · simp [h]
        · simp only [List.mem_cons] at h ⊢
          tauto
      · simp only [List.mem_cons] at h ⊢
        rcases h with h | h
        · exact .inl (.inl h)
        · rcases ih h with h | h
          · exact .inl (.inr h)
          · exact .inr h

theorem Memory.write_wf (m : Memory) (a : Nat) (v : Byte) (h : Memory.wf m) : Memory.wf (Memory.write m a v) := by
  refine ⟨?_, fun c hc => ?_⟩
  · obtain ⟨hp, -⟩ := h
    induction m with
    | nil =>
      simp only [Memory.write]
      split <;> simp
    | cons d m ih =>
      rw [List.pairwise_cons] at hp
      have above : ∀ e ∈ m, d.1 < e.1 := hp.1
      simp only [Memory.write]
      split
      · split
        · exact List.pairwise_cons.mpr hp
        · refine List.pairwise_cons.mpr ⟨fun e he => ?_, List.pairwise_cons.mpr hp⟩
          rcases List.mem_cons.mp he with rfl | he
          · assumption
          · have := above e he; simp only; omega
      · split
        · split
          · exact hp.2
          · refine List.pairwise_cons.mpr ⟨fun e he => ?_, hp.2⟩
            have := above e he; simp only; omega
        · refine List.pairwise_cons.mpr ⟨fun e he => ?_, ih hp.2⟩
          rcases Memory.mem_write m a v e he with he | ⟨rfl, -⟩
          · exact above e he
          · simp only; omega
  · rcases Memory.mem_write m a v c hc with hc | ⟨rfl, hv⟩
    · exact h.2 c hc
    · exact hv

theorem writePixel_wf (m : Memory) (i : Nat) (px : Pixel) (h : Memory.wf m) : Memory.wf (writePixel m i px) :=
  Memory.write_wf _ _ _ (Memory.write_wf _ _ _ (Memory.write_wf _ _ _ (Memory.write_wf _ _ _ h)))

/-- A pixel write leaves every byte outside its four alone. -/
theorem read_writePixel_outside (m : Memory) (i : Nat) (px : Pixel) (a : Nat) (h : a < 4 * i ∨ 4 * i + 4 ≤ a) :
    Memory.read (writePixel m i px) a = Memory.read m a := by
  unfold writePixel
  rw [Memory.read_write_ne _ _ _ _ (by omega), Memory.read_write_ne _ _ _ _ (by omega),
    Memory.read_write_ne _ _ _ _ (by omega), Memory.read_write_ne _ _ _ _ (by omega)]

theorem readPixel_writePixel_self (m : Memory) (i : Nat) (px : Pixel) (h : Memory.wf m) :
    readPixel (writePixel m i px) i = px := by
  have h0 := Memory.write_wf m (4 * i) px.r h
  have h1 := Memory.write_wf _ (4 * i + 1) px.g h0
  have h2 := Memory.write_wf _ (4 * i + 2) px.b h1
  unfold readPixel writePixel
  rw [Memory.read_write_self _ _ _ h2, Memory.read_write_ne _ _ (4 * i + 2) _ (by omega),
    Memory.read_write_self _ _ _ h1, Memory.read_write_ne _ _ (4 * i + 1) _ (by omega),
    Memory.read_write_ne _ _ (4 * i + 1) _ (by omega), Memory.read_write_self _ _ _ h0,
    Memory.read_write_ne _ _ (4 * i) _ (by omega), Memory.read_write_ne _ _ (4 * i) _ (by omega),
    Memory.read_write_ne _ _ (4 * i) _ (by omega), Memory.read_write_self _ _ _ h]

theorem fillPixels_wf (m : Memory) (i : Nat) (px : Pixel) (w : Nat) (h : Memory.wf m) :
    Memory.wf (fillPixels m i px w) := by
  induction w generalizing m i with
  | zero => exact h
  | succ w ih => exact ih _ _ (writePixel_wf _ _ _ h)

/-- A fill leaves every byte outside its pixels alone. -/
theorem read_fillPixels_outside (m : Memory) (i : Nat) (px : Pixel) (w a : Nat) (h : a < 4 * i ∨ 4 * (i + w) ≤ a) :
    Memory.read (fillPixels m i px w) a = Memory.read m a := by
  induction w generalizing m i with
  | zero => rfl
  | succ w ih =>
    rw [fillPixels, ih _ _ (by omega), read_writePixel_outside _ _ _ _ (by omega)]

/-- The pixel at an index is a function of its four bytes. -/
theorem readPixel_congr (m m' : Memory) (i : Nat)
    (h : ∀ a, 4 * i ≤ a → a < 4 * i + 4 → Memory.read m a = Memory.read m' a) : readPixel m i = readPixel m' i := by
  simp only [readPixel, h (4 * i) (by omega) (by omega), h (4 * i + 1) (by omega) (by omega),
    h (4 * i + 2) (by omega) (by omega), h (4 * i + 3) (by omega) (by omega)]

theorem readPixel_fillPixels_outside (m : Memory) (i : Nat) (px : Pixel) (w j : Nat) (h : j < i ∨ i + w ≤ j) :
    readPixel (fillPixels m i px w) j = readPixel m j :=
  readPixel_congr _ _ _ fun a _ _ => read_fillPixels_outside m i px w a (by omega)

theorem readPixel_fillPixels_inside (m : Memory) (i : Nat) (px : Pixel) (w k : Nat) (h : Memory.wf m) (hk : k < w) :
    readPixel (fillPixels m i px w) (i + k) = px := by
  induction w generalizing m i k with
  | zero => omega
  | succ w ih =>
    rw [fillPixels]
    rcases Nat.eq_zero_or_pos k with rfl | hpos
    · rw [readPixel_fillPixels_outside _ _ _ _ _ (by omega)]
      exact readPixel_writePixel_self m i px h
    · have := ih (writePixel m i px) (i + 1) (k - 1) (writePixel_wf _ _ _ h) (by omega)
      rwa [show i + 1 + (k - 1) = i + k by omega] at this

end Sys2Proof.Machine
end

