-- ==== Sys2Proof/Laws/State.lean ====
section
/-! SUPPORT. What each update of State does to each field: one lemma per field and update, so that no proof unfolds a
record update. -/

namespace Sys2Proof.Machine

open Sys2Proof

variable (s : State)

@[simp] theorem State.setPhase_phase (p : Phase) : (s.setPhase p).phase = p := rfl
@[simp] theorem State.setPhase_cache (p : Phase) : (s.setPhase p).cache = s.cache := rfl
@[simp] theorem State.setPhase_prev (p : Phase) : (s.setPhase p).prev = s.prev := rfl
@[simp] theorem State.setPhase_cur (p : Phase) : (s.setPhase p).cur = s.cur := rfl
@[simp] theorem State.setPhase_bytes (p : Phase) : (s.setPhase p).bytes = s.bytes := rfl
@[simp] theorem State.setPhase_n (p : Phase) : (s.setPhase p).n = s.n := rfl
@[simp] theorem State.setPhase_errCode (p : Phase) : (s.setPhase p).errCode = s.errCode := rfl
@[simp] theorem State.setPhase_posValid (p : Phase) : (s.setPhase p).posValid = s.posValid := rfl
@[simp] theorem State.setPhase_errX (p : Phase) : (s.setPhase p).errX = s.errX := rfl
@[simp] theorem State.setPhase_errY (p : Phase) : (s.setPhase p).errY = s.errY := rfl
@[simp] theorem State.setPhase_irqEn (p : Phase) : (s.setPhase p).irqEn = s.irqEn := rfl
@[simp] theorem State.setPhase_width (p : Phase) : (s.setPhase p).width = s.width := rfl
@[simp] theorem State.setPhase_height (p : Phase) : (s.setPhase p).height = s.height := rfl
@[simp] theorem State.setPhase_channels (p : Phase) : (s.setPhase p).channels = s.channels := rfl
@[simp] theorem State.setPhase_colorspace (p : Phase) : (s.setPhase p).colorspace = s.colorspace := rfl
@[simp] theorem State.setPhase_rcap (p : Phase) : (s.setPhase p).rcap = s.rcap := rfl
@[simp] theorem State.setPhase_raster (p : Phase) : (s.setPhase p).raster = s.raster := rfl
@[simp] theorem State.setPhase_input (p : Phase) : (s.setPhase p).input = s.input := rfl
@[simp] theorem State.setPhase_inErr (p : Phase) : (s.setPhase p).inErr = s.inErr := rfl
@[simp] theorem State.setPhase_output (p : Phase) : (s.setPhase p).output = s.output := rfl
@[simp] theorem State.setPhase_outErr (p : Phase) : (s.setPhase p).outErr = s.outErr := rfl
@[simp] theorem State.setPhase_magic (p : Phase) : (s.setPhase p).magic = s.magic := rfl
@[simp] theorem State.setPhase_events (p : Phase) : (s.setPhase p).events = s.events := rfl
@[simp] theorem State.setPhase_lastRead (p : Phase) : (s.setPhase p).lastRead = s.lastRead := rfl
@[simp] theorem State.setPhase_raced (p : Phase) : (s.setPhase p).raced = s.raced := rfl

@[simp] theorem State.setCache_phase (c : Vector Pixel cacheSlots) : (s.setCache c).phase = s.phase := rfl
@[simp] theorem State.setCache_cache (c : Vector Pixel cacheSlots) : (s.setCache c).cache = c := rfl
@[simp] theorem State.setCache_prev (c : Vector Pixel cacheSlots) : (s.setCache c).prev = s.prev := rfl
@[simp] theorem State.setCache_cur (c : Vector Pixel cacheSlots) : (s.setCache c).cur = s.cur := rfl
@[simp] theorem State.setCache_bytes (c : Vector Pixel cacheSlots) : (s.setCache c).bytes = s.bytes := rfl
@[simp] theorem State.setCache_n (c : Vector Pixel cacheSlots) : (s.setCache c).n = s.n := rfl
@[simp] theorem State.setCache_errCode (c : Vector Pixel cacheSlots) : (s.setCache c).errCode = s.errCode := rfl
@[simp] theorem State.setCache_posValid (c : Vector Pixel cacheSlots) : (s.setCache c).posValid = s.posValid := rfl
@[simp] theorem State.setCache_errX (c : Vector Pixel cacheSlots) : (s.setCache c).errX = s.errX := rfl
@[simp] theorem State.setCache_errY (c : Vector Pixel cacheSlots) : (s.setCache c).errY = s.errY := rfl
@[simp] theorem State.setCache_irqEn (c : Vector Pixel cacheSlots) : (s.setCache c).irqEn = s.irqEn := rfl
@[simp] theorem State.setCache_width (c : Vector Pixel cacheSlots) : (s.setCache c).width = s.width := rfl
@[simp] theorem State.setCache_height (c : Vector Pixel cacheSlots) : (s.setCache c).height = s.height := rfl
@[simp] theorem State.setCache_channels (c : Vector Pixel cacheSlots) : (s.setCache c).channels = s.channels := rfl
@[simp] theorem State.setCache_colorspace (c : Vector Pixel cacheSlots) : (s.setCache c).colorspace = s.colorspace := rfl
@[simp] theorem State.setCache_rcap (c : Vector Pixel cacheSlots) : (s.setCache c).rcap = s.rcap := rfl
@[simp] theorem State.setCache_raster (c : Vector Pixel cacheSlots) : (s.setCache c).raster = s.raster := rfl
@[simp] theorem State.setCache_input (c : Vector Pixel cacheSlots) : (s.setCache c).input = s.input := rfl
@[simp] theorem State.setCache_inErr (c : Vector Pixel cacheSlots) : (s.setCache c).inErr = s.inErr := rfl
@[simp] theorem State.setCache_output (c : Vector Pixel cacheSlots) : (s.setCache c).output = s.output := rfl
@[simp] theorem State.setCache_outErr (c : Vector Pixel cacheSlots) : (s.setCache c).outErr = s.outErr := rfl
@[simp] theorem State.setCache_magic (c : Vector Pixel cacheSlots) : (s.setCache c).magic = s.magic := rfl
@[simp] theorem State.setCache_events (c : Vector Pixel cacheSlots) : (s.setCache c).events = s.events := rfl
@[simp] theorem State.setCache_lastRead (c : Vector Pixel cacheSlots) : (s.setCache c).lastRead = s.lastRead := rfl
@[simp] theorem State.setCache_raced (c : Vector Pixel cacheSlots) : (s.setCache c).raced = s.raced := rfl

@[simp] theorem State.setPrev_phase (p : Pixel) : (s.setPrev p).phase = s.phase := rfl
@[simp] theorem State.setPrev_cache (p : Pixel) : (s.setPrev p).cache = s.cache := rfl
@[simp] theorem State.setPrev_prev (p : Pixel) : (s.setPrev p).prev = p := rfl
@[simp] theorem State.setPrev_cur (p : Pixel) : (s.setPrev p).cur = s.cur := rfl
@[simp] theorem State.setPrev_bytes (p : Pixel) : (s.setPrev p).bytes = s.bytes := rfl
@[simp] theorem State.setPrev_n (p : Pixel) : (s.setPrev p).n = s.n := rfl
@[simp] theorem State.setPrev_errCode (p : Pixel) : (s.setPrev p).errCode = s.errCode := rfl
@[simp] theorem State.setPrev_posValid (p : Pixel) : (s.setPrev p).posValid = s.posValid := rfl
@[simp] theorem State.setPrev_errX (p : Pixel) : (s.setPrev p).errX = s.errX := rfl
@[simp] theorem State.setPrev_errY (p : Pixel) : (s.setPrev p).errY = s.errY := rfl
@[simp] theorem State.setPrev_irqEn (p : Pixel) : (s.setPrev p).irqEn = s.irqEn := rfl
@[simp] theorem State.setPrev_width (p : Pixel) : (s.setPrev p).width = s.width := rfl
@[simp] theorem State.setPrev_height (p : Pixel) : (s.setPrev p).height = s.height := rfl
@[simp] theorem State.setPrev_channels (p : Pixel) : (s.setPrev p).channels = s.channels := rfl
@[simp] theorem State.setPrev_colorspace (p : Pixel) : (s.setPrev p).colorspace = s.colorspace := rfl
@[simp] theorem State.setPrev_rcap (p : Pixel) : (s.setPrev p).rcap = s.rcap := rfl
@[simp] theorem State.setPrev_raster (p : Pixel) : (s.setPrev p).raster = s.raster := rfl
@[simp] theorem State.setPrev_input (p : Pixel) : (s.setPrev p).input = s.input := rfl
@[simp] theorem State.setPrev_inErr (p : Pixel) : (s.setPrev p).inErr = s.inErr := rfl
@[simp] theorem State.setPrev_output (p : Pixel) : (s.setPrev p).output = s.output := rfl
@[simp] theorem State.setPrev_outErr (p : Pixel) : (s.setPrev p).outErr = s.outErr := rfl
@[simp] theorem State.setPrev_magic (p : Pixel) : (s.setPrev p).magic = s.magic := rfl
@[simp] theorem State.setPrev_events (p : Pixel) : (s.setPrev p).events = s.events := rfl
@[simp] theorem State.setPrev_lastRead (p : Pixel) : (s.setPrev p).lastRead = s.lastRead := rfl
@[simp] theorem State.setPrev_raced (p : Pixel) : (s.setPrev p).raced = s.raced := rfl

@[simp] theorem State.setCur_phase (v : Count) : (s.setCur v).phase = s.phase := rfl
@[simp] theorem State.setCur_cache (v : Count) : (s.setCur v).cache = s.cache := rfl
@[simp] theorem State.setCur_prev (v : Count) : (s.setCur v).prev = s.prev := rfl
@[simp] theorem State.setCur_cur (v : Count) : (s.setCur v).cur = v := rfl
@[simp] theorem State.setCur_bytes (v : Count) : (s.setCur v).bytes = s.bytes := rfl
@[simp] theorem State.setCur_n (v : Count) : (s.setCur v).n = s.n := rfl
@[simp] theorem State.setCur_errCode (v : Count) : (s.setCur v).errCode = s.errCode := rfl
@[simp] theorem State.setCur_posValid (v : Count) : (s.setCur v).posValid = s.posValid := rfl
@[simp] theorem State.setCur_errX (v : Count) : (s.setCur v).errX = s.errX := rfl
@[simp] theorem State.setCur_errY (v : Count) : (s.setCur v).errY = s.errY := rfl
@[simp] theorem State.setCur_irqEn (v : Count) : (s.setCur v).irqEn = s.irqEn := rfl
@[simp] theorem State.setCur_width (v : Count) : (s.setCur v).width = s.width := rfl
@[simp] theorem State.setCur_height (v : Count) : (s.setCur v).height = s.height := rfl
@[simp] theorem State.setCur_channels (v : Count) : (s.setCur v).channels = s.channels := rfl
@[simp] theorem State.setCur_colorspace (v : Count) : (s.setCur v).colorspace = s.colorspace := rfl
@[simp] theorem State.setCur_rcap (v : Count) : (s.setCur v).rcap = s.rcap := rfl
@[simp] theorem State.setCur_raster (v : Count) : (s.setCur v).raster = s.raster := rfl
@[simp] theorem State.setCur_input (v : Count) : (s.setCur v).input = s.input := rfl
@[simp] theorem State.setCur_inErr (v : Count) : (s.setCur v).inErr = s.inErr := rfl
@[simp] theorem State.setCur_output (v : Count) : (s.setCur v).output = s.output := rfl
@[simp] theorem State.setCur_outErr (v : Count) : (s.setCur v).outErr = s.outErr := rfl
@[simp] theorem State.setCur_magic (v : Count) : (s.setCur v).magic = s.magic := rfl
@[simp] theorem State.setCur_events (v : Count) : (s.setCur v).events = s.events := rfl
@[simp] theorem State.setCur_lastRead (v : Count) : (s.setCur v).lastRead = s.lastRead := rfl
@[simp] theorem State.setCur_raced (v : Count) : (s.setCur v).raced = s.raced := rfl

@[simp] theorem State.setBytes_phase (v : Count) : (s.setBytes v).phase = s.phase := rfl
@[simp] theorem State.setBytes_cache (v : Count) : (s.setBytes v).cache = s.cache := rfl
@[simp] theorem State.setBytes_prev (v : Count) : (s.setBytes v).prev = s.prev := rfl
@[simp] theorem State.setBytes_cur (v : Count) : (s.setBytes v).cur = s.cur := rfl
@[simp] theorem State.setBytes_bytes (v : Count) : (s.setBytes v).bytes = v := rfl
@[simp] theorem State.setBytes_n (v : Count) : (s.setBytes v).n = s.n := rfl
@[simp] theorem State.setBytes_errCode (v : Count) : (s.setBytes v).errCode = s.errCode := rfl
@[simp] theorem State.setBytes_posValid (v : Count) : (s.setBytes v).posValid = s.posValid := rfl
@[simp] theorem State.setBytes_errX (v : Count) : (s.setBytes v).errX = s.errX := rfl
@[simp] theorem State.setBytes_errY (v : Count) : (s.setBytes v).errY = s.errY := rfl
@[simp] theorem State.setBytes_irqEn (v : Count) : (s.setBytes v).irqEn = s.irqEn := rfl
@[simp] theorem State.setBytes_width (v : Count) : (s.setBytes v).width = s.width := rfl
@[simp] theorem State.setBytes_height (v : Count) : (s.setBytes v).height = s.height := rfl
@[simp] theorem State.setBytes_channels (v : Count) : (s.setBytes v).channels = s.channels := rfl
@[simp] theorem State.setBytes_colorspace (v : Count) : (s.setBytes v).colorspace = s.colorspace := rfl
@[simp] theorem State.setBytes_rcap (v : Count) : (s.setBytes v).rcap = s.rcap := rfl
@[simp] theorem State.setBytes_raster (v : Count) : (s.setBytes v).raster = s.raster := rfl
@[simp] theorem State.setBytes_input (v : Count) : (s.setBytes v).input = s.input := rfl
@[simp] theorem State.setBytes_inErr (v : Count) : (s.setBytes v).inErr = s.inErr := rfl
@[simp] theorem State.setBytes_output (v : Count) : (s.setBytes v).output = s.output := rfl
@[simp] theorem State.setBytes_outErr (v : Count) : (s.setBytes v).outErr = s.outErr := rfl
@[simp] theorem State.setBytes_magic (v : Count) : (s.setBytes v).magic = s.magic := rfl
@[simp] theorem State.setBytes_events (v : Count) : (s.setBytes v).events = s.events := rfl
@[simp] theorem State.setBytes_lastRead (v : Count) : (s.setBytes v).lastRead = s.lastRead := rfl
@[simp] theorem State.setBytes_raced (v : Count) : (s.setBytes v).raced = s.raced := rfl

@[simp] theorem State.setN_phase (v : Count) : (s.setN v).phase = s.phase := rfl
@[simp] theorem State.setN_cache (v : Count) : (s.setN v).cache = s.cache := rfl
@[simp] theorem State.setN_prev (v : Count) : (s.setN v).prev = s.prev := rfl
@[simp] theorem State.setN_cur (v : Count) : (s.setN v).cur = s.cur := rfl
@[simp] theorem State.setN_bytes (v : Count) : (s.setN v).bytes = s.bytes := rfl
@[simp] theorem State.setN_n (v : Count) : (s.setN v).n = v := rfl
@[simp] theorem State.setN_errCode (v : Count) : (s.setN v).errCode = s.errCode := rfl
@[simp] theorem State.setN_posValid (v : Count) : (s.setN v).posValid = s.posValid := rfl
@[simp] theorem State.setN_errX (v : Count) : (s.setN v).errX = s.errX := rfl
@[simp] theorem State.setN_errY (v : Count) : (s.setN v).errY = s.errY := rfl
@[simp] theorem State.setN_irqEn (v : Count) : (s.setN v).irqEn = s.irqEn := rfl
@[simp] theorem State.setN_width (v : Count) : (s.setN v).width = s.width := rfl
@[simp] theorem State.setN_height (v : Count) : (s.setN v).height = s.height := rfl
@[simp] theorem State.setN_channels (v : Count) : (s.setN v).channels = s.channels := rfl
@[simp] theorem State.setN_colorspace (v : Count) : (s.setN v).colorspace = s.colorspace := rfl
@[simp] theorem State.setN_rcap (v : Count) : (s.setN v).rcap = s.rcap := rfl
@[simp] theorem State.setN_raster (v : Count) : (s.setN v).raster = s.raster := rfl
@[simp] theorem State.setN_input (v : Count) : (s.setN v).input = s.input := rfl
@[simp] theorem State.setN_inErr (v : Count) : (s.setN v).inErr = s.inErr := rfl
@[simp] theorem State.setN_output (v : Count) : (s.setN v).output = s.output := rfl
@[simp] theorem State.setN_outErr (v : Count) : (s.setN v).outErr = s.outErr := rfl
@[simp] theorem State.setN_magic (v : Count) : (s.setN v).magic = s.magic := rfl
@[simp] theorem State.setN_events (v : Count) : (s.setN v).events = s.events := rfl
@[simp] theorem State.setN_lastRead (v : Count) : (s.setN v).lastRead = s.lastRead := rfl
@[simp] theorem State.setN_raced (v : Count) : (s.setN v).raced = s.raced := rfl

@[simp] theorem State.setError_phase (e : Option PassError) (b : Bool) (x y : Word) : (s.setError e b x y).phase = s.phase := rfl
@[simp] theorem State.setError_cache (e : Option PassError) (b : Bool) (x y : Word) : (s.setError e b x y).cache = s.cache := rfl
@[simp] theorem State.setError_prev (e : Option PassError) (b : Bool) (x y : Word) : (s.setError e b x y).prev = s.prev := rfl
@[simp] theorem State.setError_cur (e : Option PassError) (b : Bool) (x y : Word) : (s.setError e b x y).cur = s.cur := rfl
@[simp] theorem State.setError_bytes (e : Option PassError) (b : Bool) (x y : Word) : (s.setError e b x y).bytes = s.bytes := rfl
@[simp] theorem State.setError_n (e : Option PassError) (b : Bool) (x y : Word) : (s.setError e b x y).n = s.n := rfl
@[simp] theorem State.setError_errCode (e : Option PassError) (b : Bool) (x y : Word) : (s.setError e b x y).errCode = e := rfl
@[simp] theorem State.setError_posValid (e : Option PassError) (b : Bool) (x y : Word) : (s.setError e b x y).posValid = b := rfl
@[simp] theorem State.setError_errX (e : Option PassError) (b : Bool) (x y : Word) : (s.setError e b x y).errX = x := rfl
@[simp] theorem State.setError_errY (e : Option PassError) (b : Bool) (x y : Word) : (s.setError e b x y).errY = y := rfl
@[simp] theorem State.setError_irqEn (e : Option PassError) (b : Bool) (x y : Word) : (s.setError e b x y).irqEn = s.irqEn := rfl
@[simp] theorem State.setError_width (e : Option PassError) (b : Bool) (x y : Word) : (s.setError e b x y).width = s.width := rfl
@[simp] theorem State.setError_height (e : Option PassError) (b : Bool) (x y : Word) : (s.setError e b x y).height = s.height := rfl
@[simp] theorem State.setError_channels (e : Option PassError) (b : Bool) (x y : Word) : (s.setError e b x y).channels = s.channels := rfl
@[simp] theorem State.setError_colorspace (e : Option PassError) (b : Bool) (x y : Word) : (s.setError e b x y).colorspace = s.colorspace := rfl
@[simp] theorem State.setError_rcap (e : Option PassError) (b : Bool) (x y : Word) : (s.setError e b x y).rcap = s.rcap := rfl
@[simp] theorem State.setError_raster (e : Option PassError) (b : Bool) (x y : Word) : (s.setError e b x y).raster = s.raster := rfl
@[simp] theorem State.setError_input (e : Option PassError) (b : Bool) (x y : Word) : (s.setError e b x y).input = s.input := rfl
@[simp] theorem State.setError_inErr (e : Option PassError) (b : Bool) (x y : Word) : (s.setError e b x y).inErr = s.inErr := rfl
@[simp] theorem State.setError_output (e : Option PassError) (b : Bool) (x y : Word) : (s.setError e b x y).output = s.output := rfl
@[simp] theorem State.setError_outErr (e : Option PassError) (b : Bool) (x y : Word) : (s.setError e b x y).outErr = s.outErr := rfl
@[simp] theorem State.setError_magic (e : Option PassError) (b : Bool) (x y : Word) : (s.setError e b x y).magic = s.magic := rfl
@[simp] theorem State.setError_events (e : Option PassError) (b : Bool) (x y : Word) : (s.setError e b x y).events = s.events := rfl
@[simp] theorem State.setError_lastRead (e : Option PassError) (b : Bool) (x y : Word) : (s.setError e b x y).lastRead = s.lastRead := rfl
@[simp] theorem State.setError_raced (e : Option PassError) (b : Bool) (x y : Word) : (s.setError e b x y).raced = s.raced := rfl

@[simp] theorem State.setIrqEn_phase (b : Bool) : (s.setIrqEn b).phase = s.phase := rfl
@[simp] theorem State.setIrqEn_cache (b : Bool) : (s.setIrqEn b).cache = s.cache := rfl
@[simp] theorem State.setIrqEn_prev (b : Bool) : (s.setIrqEn b).prev = s.prev := rfl
@[simp] theorem State.setIrqEn_cur (b : Bool) : (s.setIrqEn b).cur = s.cur := rfl
@[simp] theorem State.setIrqEn_bytes (b : Bool) : (s.setIrqEn b).bytes = s.bytes := rfl
@[simp] theorem State.setIrqEn_n (b : Bool) : (s.setIrqEn b).n = s.n := rfl
@[simp] theorem State.setIrqEn_errCode (b : Bool) : (s.setIrqEn b).errCode = s.errCode := rfl
@[simp] theorem State.setIrqEn_posValid (b : Bool) : (s.setIrqEn b).posValid = s.posValid := rfl
@[simp] theorem State.setIrqEn_errX (b : Bool) : (s.setIrqEn b).errX = s.errX := rfl
@[simp] theorem State.setIrqEn_errY (b : Bool) : (s.setIrqEn b).errY = s.errY := rfl
@[simp] theorem State.setIrqEn_irqEn (b : Bool) : (s.setIrqEn b).irqEn = b := rfl
@[simp] theorem State.setIrqEn_width (b : Bool) : (s.setIrqEn b).width = s.width := rfl
@[simp] theorem State.setIrqEn_height (b : Bool) : (s.setIrqEn b).height = s.height := rfl
@[simp] theorem State.setIrqEn_channels (b : Bool) : (s.setIrqEn b).channels = s.channels := rfl
@[simp] theorem State.setIrqEn_colorspace (b : Bool) : (s.setIrqEn b).colorspace = s.colorspace := rfl
@[simp] theorem State.setIrqEn_rcap (b : Bool) : (s.setIrqEn b).rcap = s.rcap := rfl
@[simp] theorem State.setIrqEn_raster (b : Bool) : (s.setIrqEn b).raster = s.raster := rfl
@[simp] theorem State.setIrqEn_input (b : Bool) : (s.setIrqEn b).input = s.input := rfl
@[simp] theorem State.setIrqEn_inErr (b : Bool) : (s.setIrqEn b).inErr = s.inErr := rfl
@[simp] theorem State.setIrqEn_output (b : Bool) : (s.setIrqEn b).output = s.output := rfl
@[simp] theorem State.setIrqEn_outErr (b : Bool) : (s.setIrqEn b).outErr = s.outErr := rfl
@[simp] theorem State.setIrqEn_magic (b : Bool) : (s.setIrqEn b).magic = s.magic := rfl
@[simp] theorem State.setIrqEn_events (b : Bool) : (s.setIrqEn b).events = s.events := rfl
@[simp] theorem State.setIrqEn_lastRead (b : Bool) : (s.setIrqEn b).lastRead = s.lastRead := rfl
@[simp] theorem State.setIrqEn_raced (b : Bool) : (s.setIrqEn b).raced = s.raced := rfl

@[simp] theorem State.setWidth_phase (v : Word) : (s.setWidth v).phase = s.phase := rfl
@[simp] theorem State.setWidth_cache (v : Word) : (s.setWidth v).cache = s.cache := rfl
@[simp] theorem State.setWidth_prev (v : Word) : (s.setWidth v).prev = s.prev := rfl
@[simp] theorem State.setWidth_cur (v : Word) : (s.setWidth v).cur = s.cur := rfl
@[simp] theorem State.setWidth_bytes (v : Word) : (s.setWidth v).bytes = s.bytes := rfl
@[simp] theorem State.setWidth_n (v : Word) : (s.setWidth v).n = s.n := rfl
@[simp] theorem State.setWidth_errCode (v : Word) : (s.setWidth v).errCode = s.errCode := rfl
@[simp] theorem State.setWidth_posValid (v : Word) : (s.setWidth v).posValid = s.posValid := rfl
@[simp] theorem State.setWidth_errX (v : Word) : (s.setWidth v).errX = s.errX := rfl
@[simp] theorem State.setWidth_errY (v : Word) : (s.setWidth v).errY = s.errY := rfl
@[simp] theorem State.setWidth_irqEn (v : Word) : (s.setWidth v).irqEn = s.irqEn := rfl
@[simp] theorem State.setWidth_width (v : Word) : (s.setWidth v).width = v := rfl
@[simp] theorem State.setWidth_height (v : Word) : (s.setWidth v).height = s.height := rfl
@[simp] theorem State.setWidth_channels (v : Word) : (s.setWidth v).channels = s.channels := rfl
@[simp] theorem State.setWidth_colorspace (v : Word) : (s.setWidth v).colorspace = s.colorspace := rfl
@[simp] theorem State.setWidth_rcap (v : Word) : (s.setWidth v).rcap = s.rcap := rfl
@[simp] theorem State.setWidth_raster (v : Word) : (s.setWidth v).raster = s.raster := rfl
@[simp] theorem State.setWidth_input (v : Word) : (s.setWidth v).input = s.input := rfl
@[simp] theorem State.setWidth_inErr (v : Word) : (s.setWidth v).inErr = s.inErr := rfl
@[simp] theorem State.setWidth_output (v : Word) : (s.setWidth v).output = s.output := rfl
@[simp] theorem State.setWidth_outErr (v : Word) : (s.setWidth v).outErr = s.outErr := rfl
@[simp] theorem State.setWidth_magic (v : Word) : (s.setWidth v).magic = s.magic := rfl
@[simp] theorem State.setWidth_events (v : Word) : (s.setWidth v).events = s.events := rfl
@[simp] theorem State.setWidth_lastRead (v : Word) : (s.setWidth v).lastRead = s.lastRead := rfl
@[simp] theorem State.setWidth_raced (v : Word) : (s.setWidth v).raced = s.raced := rfl

@[simp] theorem State.setHeight_phase (v : Word) : (s.setHeight v).phase = s.phase := rfl
@[simp] theorem State.setHeight_cache (v : Word) : (s.setHeight v).cache = s.cache := rfl
@[simp] theorem State.setHeight_prev (v : Word) : (s.setHeight v).prev = s.prev := rfl
@[simp] theorem State.setHeight_cur (v : Word) : (s.setHeight v).cur = s.cur := rfl
@[simp] theorem State.setHeight_bytes (v : Word) : (s.setHeight v).bytes = s.bytes := rfl
@[simp] theorem State.setHeight_n (v : Word) : (s.setHeight v).n = s.n := rfl
@[simp] theorem State.setHeight_errCode (v : Word) : (s.setHeight v).errCode = s.errCode := rfl
@[simp] theorem State.setHeight_posValid (v : Word) : (s.setHeight v).posValid = s.posValid := rfl
@[simp] theorem State.setHeight_errX (v : Word) : (s.setHeight v).errX = s.errX := rfl
@[simp] theorem State.setHeight_errY (v : Word) : (s.setHeight v).errY = s.errY := rfl
@[simp] theorem State.setHeight_irqEn (v : Word) : (s.setHeight v).irqEn = s.irqEn := rfl
@[simp] theorem State.setHeight_width (v : Word) : (s.setHeight v).width = s.width := rfl
@[simp] theorem State.setHeight_height (v : Word) : (s.setHeight v).height = v := rfl
@[simp] theorem State.setHeight_channels (v : Word) : (s.setHeight v).channels = s.channels := rfl
@[simp] theorem State.setHeight_colorspace (v : Word) : (s.setHeight v).colorspace = s.colorspace := rfl
@[simp] theorem State.setHeight_rcap (v : Word) : (s.setHeight v).rcap = s.rcap := rfl
@[simp] theorem State.setHeight_raster (v : Word) : (s.setHeight v).raster = s.raster := rfl
@[simp] theorem State.setHeight_input (v : Word) : (s.setHeight v).input = s.input := rfl
@[simp] theorem State.setHeight_inErr (v : Word) : (s.setHeight v).inErr = s.inErr := rfl
@[simp] theorem State.setHeight_output (v : Word) : (s.setHeight v).output = s.output := rfl
@[simp] theorem State.setHeight_outErr (v : Word) : (s.setHeight v).outErr = s.outErr := rfl
@[simp] theorem State.setHeight_magic (v : Word) : (s.setHeight v).magic = s.magic := rfl
@[simp] theorem State.setHeight_events (v : Word) : (s.setHeight v).events = s.events := rfl
@[simp] theorem State.setHeight_lastRead (v : Word) : (s.setHeight v).lastRead = s.lastRead := rfl
@[simp] theorem State.setHeight_raced (v : Word) : (s.setHeight v).raced = s.raced := rfl

@[simp] theorem State.setChannels_phase (v : Byte) : (s.setChannels v).phase = s.phase := rfl
@[simp] theorem State.setChannels_cache (v : Byte) : (s.setChannels v).cache = s.cache := rfl
@[simp] theorem State.setChannels_prev (v : Byte) : (s.setChannels v).prev = s.prev := rfl
@[simp] theorem State.setChannels_cur (v : Byte) : (s.setChannels v).cur = s.cur := rfl
@[simp] theorem State.setChannels_bytes (v : Byte) : (s.setChannels v).bytes = s.bytes := rfl
@[simp] theorem State.setChannels_n (v : Byte) : (s.setChannels v).n = s.n := rfl
@[simp] theorem State.setChannels_errCode (v : Byte) : (s.setChannels v).errCode = s.errCode := rfl
@[simp] theorem State.setChannels_posValid (v : Byte) : (s.setChannels v).posValid = s.posValid := rfl
@[simp] theorem State.setChannels_errX (v : Byte) : (s.setChannels v).errX = s.errX := rfl
@[simp] theorem State.setChannels_errY (v : Byte) : (s.setChannels v).errY = s.errY := rfl
@[simp] theorem State.setChannels_irqEn (v : Byte) : (s.setChannels v).irqEn = s.irqEn := rfl
@[simp] theorem State.setChannels_width (v : Byte) : (s.setChannels v).width = s.width := rfl
@[simp] theorem State.setChannels_height (v : Byte) : (s.setChannels v).height = s.height := rfl
@[simp] theorem State.setChannels_channels (v : Byte) : (s.setChannels v).channels = v := rfl
@[simp] theorem State.setChannels_colorspace (v : Byte) : (s.setChannels v).colorspace = s.colorspace := rfl
@[simp] theorem State.setChannels_rcap (v : Byte) : (s.setChannels v).rcap = s.rcap := rfl
@[simp] theorem State.setChannels_raster (v : Byte) : (s.setChannels v).raster = s.raster := rfl
@[simp] theorem State.setChannels_input (v : Byte) : (s.setChannels v).input = s.input := rfl
@[simp] theorem State.setChannels_inErr (v : Byte) : (s.setChannels v).inErr = s.inErr := rfl
@[simp] theorem State.setChannels_output (v : Byte) : (s.setChannels v).output = s.output := rfl
@[simp] theorem State.setChannels_outErr (v : Byte) : (s.setChannels v).outErr = s.outErr := rfl
@[simp] theorem State.setChannels_magic (v : Byte) : (s.setChannels v).magic = s.magic := rfl
@[simp] theorem State.setChannels_events (v : Byte) : (s.setChannels v).events = s.events := rfl
@[simp] theorem State.setChannels_lastRead (v : Byte) : (s.setChannels v).lastRead = s.lastRead := rfl
@[simp] theorem State.setChannels_raced (v : Byte) : (s.setChannels v).raced = s.raced := rfl

@[simp] theorem State.setColorspace_phase (v : Byte) : (s.setColorspace v).phase = s.phase := rfl
@[simp] theorem State.setColorspace_cache (v : Byte) : (s.setColorspace v).cache = s.cache := rfl
@[simp] theorem State.setColorspace_prev (v : Byte) : (s.setColorspace v).prev = s.prev := rfl
@[simp] theorem State.setColorspace_cur (v : Byte) : (s.setColorspace v).cur = s.cur := rfl
@[simp] theorem State.setColorspace_bytes (v : Byte) : (s.setColorspace v).bytes = s.bytes := rfl
@[simp] theorem State.setColorspace_n (v : Byte) : (s.setColorspace v).n = s.n := rfl
@[simp] theorem State.setColorspace_errCode (v : Byte) : (s.setColorspace v).errCode = s.errCode := rfl
@[simp] theorem State.setColorspace_posValid (v : Byte) : (s.setColorspace v).posValid = s.posValid := rfl
@[simp] theorem State.setColorspace_errX (v : Byte) : (s.setColorspace v).errX = s.errX := rfl
@[simp] theorem State.setColorspace_errY (v : Byte) : (s.setColorspace v).errY = s.errY := rfl
@[simp] theorem State.setColorspace_irqEn (v : Byte) : (s.setColorspace v).irqEn = s.irqEn := rfl
@[simp] theorem State.setColorspace_width (v : Byte) : (s.setColorspace v).width = s.width := rfl
@[simp] theorem State.setColorspace_height (v : Byte) : (s.setColorspace v).height = s.height := rfl
@[simp] theorem State.setColorspace_channels (v : Byte) : (s.setColorspace v).channels = s.channels := rfl
@[simp] theorem State.setColorspace_colorspace (v : Byte) : (s.setColorspace v).colorspace = v := rfl
@[simp] theorem State.setColorspace_rcap (v : Byte) : (s.setColorspace v).rcap = s.rcap := rfl
@[simp] theorem State.setColorspace_raster (v : Byte) : (s.setColorspace v).raster = s.raster := rfl
@[simp] theorem State.setColorspace_input (v : Byte) : (s.setColorspace v).input = s.input := rfl
@[simp] theorem State.setColorspace_inErr (v : Byte) : (s.setColorspace v).inErr = s.inErr := rfl
@[simp] theorem State.setColorspace_output (v : Byte) : (s.setColorspace v).output = s.output := rfl
@[simp] theorem State.setColorspace_outErr (v : Byte) : (s.setColorspace v).outErr = s.outErr := rfl
@[simp] theorem State.setColorspace_magic (v : Byte) : (s.setColorspace v).magic = s.magic := rfl
@[simp] theorem State.setColorspace_events (v : Byte) : (s.setColorspace v).events = s.events := rfl
@[simp] theorem State.setColorspace_lastRead (v : Byte) : (s.setColorspace v).lastRead = s.lastRead := rfl
@[simp] theorem State.setColorspace_raced (v : Byte) : (s.setColorspace v).raced = s.raced := rfl

@[simp] theorem State.setRcap_phase (v : Count) : (s.setRcap v).phase = s.phase := rfl
@[simp] theorem State.setRcap_cache (v : Count) : (s.setRcap v).cache = s.cache := rfl
@[simp] theorem State.setRcap_prev (v : Count) : (s.setRcap v).prev = s.prev := rfl
@[simp] theorem State.setRcap_cur (v : Count) : (s.setRcap v).cur = s.cur := rfl
@[simp] theorem State.setRcap_bytes (v : Count) : (s.setRcap v).bytes = s.bytes := rfl
@[simp] theorem State.setRcap_n (v : Count) : (s.setRcap v).n = s.n := rfl
@[simp] theorem State.setRcap_errCode (v : Count) : (s.setRcap v).errCode = s.errCode := rfl
@[simp] theorem State.setRcap_posValid (v : Count) : (s.setRcap v).posValid = s.posValid := rfl
@[simp] theorem State.setRcap_errX (v : Count) : (s.setRcap v).errX = s.errX := rfl
@[simp] theorem State.setRcap_errY (v : Count) : (s.setRcap v).errY = s.errY := rfl
@[simp] theorem State.setRcap_irqEn (v : Count) : (s.setRcap v).irqEn = s.irqEn := rfl
@[simp] theorem State.setRcap_width (v : Count) : (s.setRcap v).width = s.width := rfl
@[simp] theorem State.setRcap_height (v : Count) : (s.setRcap v).height = s.height := rfl
@[simp] theorem State.setRcap_channels (v : Count) : (s.setRcap v).channels = s.channels := rfl
@[simp] theorem State.setRcap_colorspace (v : Count) : (s.setRcap v).colorspace = s.colorspace := rfl
@[simp] theorem State.setRcap_rcap (v : Count) : (s.setRcap v).rcap = v := rfl
@[simp] theorem State.setRcap_raster (v : Count) : (s.setRcap v).raster = s.raster := rfl
@[simp] theorem State.setRcap_input (v : Count) : (s.setRcap v).input = s.input := rfl
@[simp] theorem State.setRcap_inErr (v : Count) : (s.setRcap v).inErr = s.inErr := rfl
@[simp] theorem State.setRcap_output (v : Count) : (s.setRcap v).output = s.output := rfl
@[simp] theorem State.setRcap_outErr (v : Count) : (s.setRcap v).outErr = s.outErr := rfl
@[simp] theorem State.setRcap_magic (v : Count) : (s.setRcap v).magic = s.magic := rfl
@[simp] theorem State.setRcap_events (v : Count) : (s.setRcap v).events = s.events := rfl
@[simp] theorem State.setRcap_lastRead (v : Count) : (s.setRcap v).lastRead = s.lastRead := rfl
@[simp] theorem State.setRcap_raced (v : Count) : (s.setRcap v).raced = s.raced := rfl

@[simp] theorem State.setRaster_phase (m : Memory) : (s.setRaster m).phase = s.phase := rfl
@[simp] theorem State.setRaster_cache (m : Memory) : (s.setRaster m).cache = s.cache := rfl
@[simp] theorem State.setRaster_prev (m : Memory) : (s.setRaster m).prev = s.prev := rfl
@[simp] theorem State.setRaster_cur (m : Memory) : (s.setRaster m).cur = s.cur := rfl
@[simp] theorem State.setRaster_bytes (m : Memory) : (s.setRaster m).bytes = s.bytes := rfl
@[simp] theorem State.setRaster_n (m : Memory) : (s.setRaster m).n = s.n := rfl
@[simp] theorem State.setRaster_errCode (m : Memory) : (s.setRaster m).errCode = s.errCode := rfl
@[simp] theorem State.setRaster_posValid (m : Memory) : (s.setRaster m).posValid = s.posValid := rfl
@[simp] theorem State.setRaster_errX (m : Memory) : (s.setRaster m).errX = s.errX := rfl
@[simp] theorem State.setRaster_errY (m : Memory) : (s.setRaster m).errY = s.errY := rfl
@[simp] theorem State.setRaster_irqEn (m : Memory) : (s.setRaster m).irqEn = s.irqEn := rfl
@[simp] theorem State.setRaster_width (m : Memory) : (s.setRaster m).width = s.width := rfl
@[simp] theorem State.setRaster_height (m : Memory) : (s.setRaster m).height = s.height := rfl
@[simp] theorem State.setRaster_channels (m : Memory) : (s.setRaster m).channels = s.channels := rfl
@[simp] theorem State.setRaster_colorspace (m : Memory) : (s.setRaster m).colorspace = s.colorspace := rfl
@[simp] theorem State.setRaster_rcap (m : Memory) : (s.setRaster m).rcap = s.rcap := rfl
@[simp] theorem State.setRaster_raster (m : Memory) : (s.setRaster m).raster = m := rfl
@[simp] theorem State.setRaster_input (m : Memory) : (s.setRaster m).input = s.input := rfl
@[simp] theorem State.setRaster_inErr (m : Memory) : (s.setRaster m).inErr = s.inErr := rfl
@[simp] theorem State.setRaster_output (m : Memory) : (s.setRaster m).output = s.output := rfl
@[simp] theorem State.setRaster_outErr (m : Memory) : (s.setRaster m).outErr = s.outErr := rfl
@[simp] theorem State.setRaster_magic (m : Memory) : (s.setRaster m).magic = s.magic := rfl
@[simp] theorem State.setRaster_events (m : Memory) : (s.setRaster m).events = s.events := rfl
@[simp] theorem State.setRaster_lastRead (m : Memory) : (s.setRaster m).lastRead = s.lastRead := rfl
@[simp] theorem State.setRaster_raced (m : Memory) : (s.setRaster m).raced = s.raced := rfl

@[simp] theorem State.setInput_phase (i : List Byte) (e : Option Nat) : (s.setInput i e).phase = s.phase := rfl
@[simp] theorem State.setInput_cache (i : List Byte) (e : Option Nat) : (s.setInput i e).cache = s.cache := rfl
@[simp] theorem State.setInput_prev (i : List Byte) (e : Option Nat) : (s.setInput i e).prev = s.prev := rfl
@[simp] theorem State.setInput_cur (i : List Byte) (e : Option Nat) : (s.setInput i e).cur = s.cur := rfl
@[simp] theorem State.setInput_bytes (i : List Byte) (e : Option Nat) : (s.setInput i e).bytes = s.bytes := rfl
@[simp] theorem State.setInput_n (i : List Byte) (e : Option Nat) : (s.setInput i e).n = s.n := rfl
@[simp] theorem State.setInput_errCode (i : List Byte) (e : Option Nat) : (s.setInput i e).errCode = s.errCode := rfl
@[simp] theorem State.setInput_posValid (i : List Byte) (e : Option Nat) : (s.setInput i e).posValid = s.posValid := rfl
@[simp] theorem State.setInput_errX (i : List Byte) (e : Option Nat) : (s.setInput i e).errX = s.errX := rfl
@[simp] theorem State.setInput_errY (i : List Byte) (e : Option Nat) : (s.setInput i e).errY = s.errY := rfl
@[simp] theorem State.setInput_irqEn (i : List Byte) (e : Option Nat) : (s.setInput i e).irqEn = s.irqEn := rfl
@[simp] theorem State.setInput_width (i : List Byte) (e : Option Nat) : (s.setInput i e).width = s.width := rfl
@[simp] theorem State.setInput_height (i : List Byte) (e : Option Nat) : (s.setInput i e).height = s.height := rfl
@[simp] theorem State.setInput_channels (i : List Byte) (e : Option Nat) : (s.setInput i e).channels = s.channels := rfl
@[simp] theorem State.setInput_colorspace (i : List Byte) (e : Option Nat) : (s.setInput i e).colorspace = s.colorspace := rfl
@[simp] theorem State.setInput_rcap (i : List Byte) (e : Option Nat) : (s.setInput i e).rcap = s.rcap := rfl
@[simp] theorem State.setInput_raster (i : List Byte) (e : Option Nat) : (s.setInput i e).raster = s.raster := rfl
@[simp] theorem State.setInput_input (i : List Byte) (e : Option Nat) : (s.setInput i e).input = i := rfl
@[simp] theorem State.setInput_inErr (i : List Byte) (e : Option Nat) : (s.setInput i e).inErr = e := rfl
@[simp] theorem State.setInput_output (i : List Byte) (e : Option Nat) : (s.setInput i e).output = s.output := rfl
@[simp] theorem State.setInput_outErr (i : List Byte) (e : Option Nat) : (s.setInput i e).outErr = s.outErr := rfl
@[simp] theorem State.setInput_magic (i : List Byte) (e : Option Nat) : (s.setInput i e).magic = s.magic := rfl
@[simp] theorem State.setInput_events (i : List Byte) (e : Option Nat) : (s.setInput i e).events = s.events := rfl
@[simp] theorem State.setInput_lastRead (i : List Byte) (e : Option Nat) : (s.setInput i e).lastRead = s.lastRead := rfl
@[simp] theorem State.setInput_raced (i : List Byte) (e : Option Nat) : (s.setInput i e).raced = s.raced := rfl

@[simp] theorem State.setOutput_phase (bs : List Byte) : (s.setOutput bs).phase = s.phase := rfl
@[simp] theorem State.setOutput_cache (bs : List Byte) : (s.setOutput bs).cache = s.cache := rfl
@[simp] theorem State.setOutput_prev (bs : List Byte) : (s.setOutput bs).prev = s.prev := rfl
@[simp] theorem State.setOutput_cur (bs : List Byte) : (s.setOutput bs).cur = s.cur := rfl
@[simp] theorem State.setOutput_bytes (bs : List Byte) : (s.setOutput bs).bytes = s.bytes := rfl
@[simp] theorem State.setOutput_n (bs : List Byte) : (s.setOutput bs).n = s.n := rfl
@[simp] theorem State.setOutput_errCode (bs : List Byte) : (s.setOutput bs).errCode = s.errCode := rfl
@[simp] theorem State.setOutput_posValid (bs : List Byte) : (s.setOutput bs).posValid = s.posValid := rfl
@[simp] theorem State.setOutput_errX (bs : List Byte) : (s.setOutput bs).errX = s.errX := rfl
@[simp] theorem State.setOutput_errY (bs : List Byte) : (s.setOutput bs).errY = s.errY := rfl
@[simp] theorem State.setOutput_irqEn (bs : List Byte) : (s.setOutput bs).irqEn = s.irqEn := rfl
@[simp] theorem State.setOutput_width (bs : List Byte) : (s.setOutput bs).width = s.width := rfl
@[simp] theorem State.setOutput_height (bs : List Byte) : (s.setOutput bs).height = s.height := rfl
@[simp] theorem State.setOutput_channels (bs : List Byte) : (s.setOutput bs).channels = s.channels := rfl
@[simp] theorem State.setOutput_colorspace (bs : List Byte) : (s.setOutput bs).colorspace = s.colorspace := rfl
@[simp] theorem State.setOutput_rcap (bs : List Byte) : (s.setOutput bs).rcap = s.rcap := rfl
@[simp] theorem State.setOutput_raster (bs : List Byte) : (s.setOutput bs).raster = s.raster := rfl
@[simp] theorem State.setOutput_input (bs : List Byte) : (s.setOutput bs).input = s.input := rfl
@[simp] theorem State.setOutput_inErr (bs : List Byte) : (s.setOutput bs).inErr = s.inErr := rfl
@[simp] theorem State.setOutput_output (bs : List Byte) : (s.setOutput bs).output = bs := rfl
@[simp] theorem State.setOutput_outErr (bs : List Byte) : (s.setOutput bs).outErr = s.outErr := rfl
@[simp] theorem State.setOutput_magic (bs : List Byte) : (s.setOutput bs).magic = s.magic := rfl
@[simp] theorem State.setOutput_events (bs : List Byte) : (s.setOutput bs).events = s.events := rfl
@[simp] theorem State.setOutput_lastRead (bs : List Byte) : (s.setOutput bs).lastRead = s.lastRead := rfl
@[simp] theorem State.setOutput_raced (bs : List Byte) : (s.setOutput bs).raced = s.raced := rfl

@[simp] theorem State.setOutErr_phase (e : Option Nat) : (s.setOutErr e).phase = s.phase := rfl
@[simp] theorem State.setOutErr_cache (e : Option Nat) : (s.setOutErr e).cache = s.cache := rfl
@[simp] theorem State.setOutErr_prev (e : Option Nat) : (s.setOutErr e).prev = s.prev := rfl
@[simp] theorem State.setOutErr_cur (e : Option Nat) : (s.setOutErr e).cur = s.cur := rfl
@[simp] theorem State.setOutErr_bytes (e : Option Nat) : (s.setOutErr e).bytes = s.bytes := rfl
@[simp] theorem State.setOutErr_n (e : Option Nat) : (s.setOutErr e).n = s.n := rfl
@[simp] theorem State.setOutErr_errCode (e : Option Nat) : (s.setOutErr e).errCode = s.errCode := rfl
@[simp] theorem State.setOutErr_posValid (e : Option Nat) : (s.setOutErr e).posValid = s.posValid := rfl
@[simp] theorem State.setOutErr_errX (e : Option Nat) : (s.setOutErr e).errX = s.errX := rfl
@[simp] theorem State.setOutErr_errY (e : Option Nat) : (s.setOutErr e).errY = s.errY := rfl
@[simp] theorem State.setOutErr_irqEn (e : Option Nat) : (s.setOutErr e).irqEn = s.irqEn := rfl
@[simp] theorem State.setOutErr_width (e : Option Nat) : (s.setOutErr e).width = s.width := rfl
@[simp] theorem State.setOutErr_height (e : Option Nat) : (s.setOutErr e).height = s.height := rfl
@[simp] theorem State.setOutErr_channels (e : Option Nat) : (s.setOutErr e).channels = s.channels := rfl
@[simp] theorem State.setOutErr_colorspace (e : Option Nat) : (s.setOutErr e).colorspace = s.colorspace := rfl
@[simp] theorem State.setOutErr_rcap (e : Option Nat) : (s.setOutErr e).rcap = s.rcap := rfl
@[simp] theorem State.setOutErr_raster (e : Option Nat) : (s.setOutErr e).raster = s.raster := rfl
@[simp] theorem State.setOutErr_input (e : Option Nat) : (s.setOutErr e).input = s.input := rfl
@[simp] theorem State.setOutErr_inErr (e : Option Nat) : (s.setOutErr e).inErr = s.inErr := rfl
@[simp] theorem State.setOutErr_output (e : Option Nat) : (s.setOutErr e).output = s.output := rfl
@[simp] theorem State.setOutErr_outErr (e : Option Nat) : (s.setOutErr e).outErr = e := rfl
@[simp] theorem State.setOutErr_magic (e : Option Nat) : (s.setOutErr e).magic = s.magic := rfl
@[simp] theorem State.setOutErr_events (e : Option Nat) : (s.setOutErr e).events = s.events := rfl
@[simp] theorem State.setOutErr_lastRead (e : Option Nat) : (s.setOutErr e).lastRead = s.lastRead := rfl
@[simp] theorem State.setOutErr_raced (e : Option Nat) : (s.setOutErr e).raced = s.raced := rfl

@[simp] theorem State.setEvents_phase (es : List Event) : (s.setEvents es).phase = s.phase := rfl
@[simp] theorem State.setEvents_cache (es : List Event) : (s.setEvents es).cache = s.cache := rfl
@[simp] theorem State.setEvents_prev (es : List Event) : (s.setEvents es).prev = s.prev := rfl
@[simp] theorem State.setEvents_cur (es : List Event) : (s.setEvents es).cur = s.cur := rfl
@[simp] theorem State.setEvents_bytes (es : List Event) : (s.setEvents es).bytes = s.bytes := rfl
@[simp] theorem State.setEvents_n (es : List Event) : (s.setEvents es).n = s.n := rfl
@[simp] theorem State.setEvents_errCode (es : List Event) : (s.setEvents es).errCode = s.errCode := rfl
@[simp] theorem State.setEvents_posValid (es : List Event) : (s.setEvents es).posValid = s.posValid := rfl
@[simp] theorem State.setEvents_errX (es : List Event) : (s.setEvents es).errX = s.errX := rfl
@[simp] theorem State.setEvents_errY (es : List Event) : (s.setEvents es).errY = s.errY := rfl
@[simp] theorem State.setEvents_irqEn (es : List Event) : (s.setEvents es).irqEn = s.irqEn := rfl
@[simp] theorem State.setEvents_width (es : List Event) : (s.setEvents es).width = s.width := rfl
@[simp] theorem State.setEvents_height (es : List Event) : (s.setEvents es).height = s.height := rfl
@[simp] theorem State.setEvents_channels (es : List Event) : (s.setEvents es).channels = s.channels := rfl
@[simp] theorem State.setEvents_colorspace (es : List Event) : (s.setEvents es).colorspace = s.colorspace := rfl
@[simp] theorem State.setEvents_rcap (es : List Event) : (s.setEvents es).rcap = s.rcap := rfl
@[simp] theorem State.setEvents_raster (es : List Event) : (s.setEvents es).raster = s.raster := rfl
@[simp] theorem State.setEvents_input (es : List Event) : (s.setEvents es).input = s.input := rfl
@[simp] theorem State.setEvents_inErr (es : List Event) : (s.setEvents es).inErr = s.inErr := rfl
@[simp] theorem State.setEvents_output (es : List Event) : (s.setEvents es).output = s.output := rfl
@[simp] theorem State.setEvents_outErr (es : List Event) : (s.setEvents es).outErr = s.outErr := rfl
@[simp] theorem State.setEvents_magic (es : List Event) : (s.setEvents es).magic = s.magic := rfl
@[simp] theorem State.setEvents_events (es : List Event) : (s.setEvents es).events = es := rfl
@[simp] theorem State.setEvents_lastRead (es : List Event) : (s.setEvents es).lastRead = s.lastRead := rfl
@[simp] theorem State.setEvents_raced (es : List Event) : (s.setEvents es).raced = s.raced := rfl

@[simp] theorem State.setLastRead_phase (d : Option HostData) : (s.setLastRead d).phase = s.phase := rfl
@[simp] theorem State.setLastRead_cache (d : Option HostData) : (s.setLastRead d).cache = s.cache := rfl
@[simp] theorem State.setLastRead_prev (d : Option HostData) : (s.setLastRead d).prev = s.prev := rfl
@[simp] theorem State.setLastRead_cur (d : Option HostData) : (s.setLastRead d).cur = s.cur := rfl
@[simp] theorem State.setLastRead_bytes (d : Option HostData) : (s.setLastRead d).bytes = s.bytes := rfl
@[simp] theorem State.setLastRead_n (d : Option HostData) : (s.setLastRead d).n = s.n := rfl
@[simp] theorem State.setLastRead_errCode (d : Option HostData) : (s.setLastRead d).errCode = s.errCode := rfl
@[simp] theorem State.setLastRead_posValid (d : Option HostData) : (s.setLastRead d).posValid = s.posValid := rfl
@[simp] theorem State.setLastRead_errX (d : Option HostData) : (s.setLastRead d).errX = s.errX := rfl
@[simp] theorem State.setLastRead_errY (d : Option HostData) : (s.setLastRead d).errY = s.errY := rfl
@[simp] theorem State.setLastRead_irqEn (d : Option HostData) : (s.setLastRead d).irqEn = s.irqEn := rfl
@[simp] theorem State.setLastRead_width (d : Option HostData) : (s.setLastRead d).width = s.width := rfl
@[simp] theorem State.setLastRead_height (d : Option HostData) : (s.setLastRead d).height = s.height := rfl
@[simp] theorem State.setLastRead_channels (d : Option HostData) : (s.setLastRead d).channels = s.channels := rfl
@[simp] theorem State.setLastRead_colorspace (d : Option HostData) : (s.setLastRead d).colorspace = s.colorspace := rfl
@[simp] theorem State.setLastRead_rcap (d : Option HostData) : (s.setLastRead d).rcap = s.rcap := rfl
@[simp] theorem State.setLastRead_raster (d : Option HostData) : (s.setLastRead d).raster = s.raster := rfl
@[simp] theorem State.setLastRead_input (d : Option HostData) : (s.setLastRead d).input = s.input := rfl
@[simp] theorem State.setLastRead_inErr (d : Option HostData) : (s.setLastRead d).inErr = s.inErr := rfl
@[simp] theorem State.setLastRead_output (d : Option HostData) : (s.setLastRead d).output = s.output := rfl
@[simp] theorem State.setLastRead_outErr (d : Option HostData) : (s.setLastRead d).outErr = s.outErr := rfl
@[simp] theorem State.setLastRead_magic (d : Option HostData) : (s.setLastRead d).magic = s.magic := rfl
@[simp] theorem State.setLastRead_events (d : Option HostData) : (s.setLastRead d).events = s.events := rfl
@[simp] theorem State.setLastRead_lastRead (d : Option HostData) : (s.setLastRead d).lastRead = d := rfl
@[simp] theorem State.setLastRead_raced (d : Option HostData) : (s.setLastRead d).raced = s.raced := rfl

@[simp] theorem State.setRaced_phase (k : Nat) : (s.setRaced k).phase = s.phase := rfl
@[simp] theorem State.setRaced_cache (k : Nat) : (s.setRaced k).cache = s.cache := rfl
@[simp] theorem State.setRaced_prev (k : Nat) : (s.setRaced k).prev = s.prev := rfl
@[simp] theorem State.setRaced_cur (k : Nat) : (s.setRaced k).cur = s.cur := rfl
@[simp] theorem State.setRaced_bytes (k : Nat) : (s.setRaced k).bytes = s.bytes := rfl
@[simp] theorem State.setRaced_n (k : Nat) : (s.setRaced k).n = s.n := rfl
@[simp] theorem State.setRaced_errCode (k : Nat) : (s.setRaced k).errCode = s.errCode := rfl
@[simp] theorem State.setRaced_posValid (k : Nat) : (s.setRaced k).posValid = s.posValid := rfl
@[simp] theorem State.setRaced_errX (k : Nat) : (s.setRaced k).errX = s.errX := rfl
@[simp] theorem State.setRaced_errY (k : Nat) : (s.setRaced k).errY = s.errY := rfl
@[simp] theorem State.setRaced_irqEn (k : Nat) : (s.setRaced k).irqEn = s.irqEn := rfl
@[simp] theorem State.setRaced_width (k : Nat) : (s.setRaced k).width = s.width := rfl
@[simp] theorem State.setRaced_height (k : Nat) : (s.setRaced k).height = s.height := rfl
@[simp] theorem State.setRaced_channels (k : Nat) : (s.setRaced k).channels = s.channels := rfl
@[simp] theorem State.setRaced_colorspace (k : Nat) : (s.setRaced k).colorspace = s.colorspace := rfl
@[simp] theorem State.setRaced_rcap (k : Nat) : (s.setRaced k).rcap = s.rcap := rfl
@[simp] theorem State.setRaced_raster (k : Nat) : (s.setRaced k).raster = s.raster := rfl
@[simp] theorem State.setRaced_input (k : Nat) : (s.setRaced k).input = s.input := rfl
@[simp] theorem State.setRaced_inErr (k : Nat) : (s.setRaced k).inErr = s.inErr := rfl
@[simp] theorem State.setRaced_output (k : Nat) : (s.setRaced k).output = s.output := rfl
@[simp] theorem State.setRaced_outErr (k : Nat) : (s.setRaced k).outErr = s.outErr := rfl
@[simp] theorem State.setRaced_magic (k : Nat) : (s.setRaced k).magic = s.magic := rfl
@[simp] theorem State.setRaced_events (k : Nat) : (s.setRaced k).events = s.events := rfl
@[simp] theorem State.setRaced_lastRead (k : Nat) : (s.setRaced k).lastRead = s.lastRead := rfl
@[simp] theorem State.setRaced_raced (k : Nat) : (s.setRaced k).raced = k := rfl

end Sys2Proof.Machine
end

