-- ==== Sys2Proof/Laws/Fields.lean ====
section
/-! SUPPORT. The fields each shared operation leaves as they were, one lemma per field, so that no proof unfolds it. -/

namespace Sys2Proof.Machine

open Sys2Proof

/-- The state after a header was read: WIDTH, HEIGHT and HDR_INFO written (R231, R237). -/
def withHeader (w h : Word) (ch cs : Byte) (s : State) : State :=
  (((s.setWidth w).setHeight h).setChannels ch).setColorspace cs

@[simp] theorem consumed_phase (k : Nat) (s : State) : (consumed k s).phase = s.phase := rfl
@[simp] theorem consumed_cache (k : Nat) (s : State) : (consumed k s).cache = s.cache := rfl
@[simp] theorem consumed_prev (k : Nat) (s : State) : (consumed k s).prev = s.prev := rfl
@[simp] theorem consumed_cur (k : Nat) (s : State) : (consumed k s).cur = s.cur := rfl
@[simp] theorem consumed_n (k : Nat) (s : State) : (consumed k s).n = s.n := rfl
@[simp] theorem consumed_errCode (k : Nat) (s : State) : (consumed k s).errCode = s.errCode := rfl
@[simp] theorem consumed_posValid (k : Nat) (s : State) : (consumed k s).posValid = s.posValid := rfl
@[simp] theorem consumed_errX (k : Nat) (s : State) : (consumed k s).errX = s.errX := rfl
@[simp] theorem consumed_errY (k : Nat) (s : State) : (consumed k s).errY = s.errY := rfl
@[simp] theorem consumed_irqEn (k : Nat) (s : State) : (consumed k s).irqEn = s.irqEn := rfl
@[simp] theorem consumed_width (k : Nat) (s : State) : (consumed k s).width = s.width := rfl
@[simp] theorem consumed_height (k : Nat) (s : State) : (consumed k s).height = s.height := rfl
@[simp] theorem consumed_channels (k : Nat) (s : State) : (consumed k s).channels = s.channels := rfl
@[simp] theorem consumed_colorspace (k : Nat) (s : State) : (consumed k s).colorspace = s.colorspace := rfl
@[simp] theorem consumed_rcap (k : Nat) (s : State) : (consumed k s).rcap = s.rcap := rfl
@[simp] theorem consumed_raster (k : Nat) (s : State) : (consumed k s).raster = s.raster := rfl
@[simp] theorem consumed_input (k : Nat) (s : State) : (consumed k s).input = s.input := rfl
@[simp] theorem consumed_inErr (k : Nat) (s : State) : (consumed k s).inErr = s.inErr := rfl
@[simp] theorem consumed_output (k : Nat) (s : State) : (consumed k s).output = s.output := rfl
@[simp] theorem consumed_outErr (k : Nat) (s : State) : (consumed k s).outErr = s.outErr := rfl
@[simp] theorem consumed_magic (k : Nat) (s : State) : (consumed k s).magic = s.magic := rfl
@[simp] theorem consumed_events (k : Nat) (s : State) : (consumed k s).events = s.events := rfl
@[simp] theorem consumed_lastRead (k : Nat) (s : State) : (consumed k s).lastRead = s.lastRead := rfl
@[simp] theorem consumed_raced (k : Nat) (s : State) : (consumed k s).raced = s.raced := rfl

@[simp] theorem emitted_phase (bs : List Byte) (s : State) : (emitted bs s).phase = s.phase := rfl
@[simp] theorem emitted_cache (bs : List Byte) (s : State) : (emitted bs s).cache = s.cache := rfl
@[simp] theorem emitted_prev (bs : List Byte) (s : State) : (emitted bs s).prev = s.prev := rfl
@[simp] theorem emitted_cur (bs : List Byte) (s : State) : (emitted bs s).cur = s.cur := rfl
@[simp] theorem emitted_n (bs : List Byte) (s : State) : (emitted bs s).n = s.n := rfl
@[simp] theorem emitted_errCode (bs : List Byte) (s : State) : (emitted bs s).errCode = s.errCode := rfl
@[simp] theorem emitted_posValid (bs : List Byte) (s : State) : (emitted bs s).posValid = s.posValid := rfl
@[simp] theorem emitted_errX (bs : List Byte) (s : State) : (emitted bs s).errX = s.errX := rfl
@[simp] theorem emitted_errY (bs : List Byte) (s : State) : (emitted bs s).errY = s.errY := rfl
@[simp] theorem emitted_irqEn (bs : List Byte) (s : State) : (emitted bs s).irqEn = s.irqEn := rfl
@[simp] theorem emitted_width (bs : List Byte) (s : State) : (emitted bs s).width = s.width := rfl
@[simp] theorem emitted_height (bs : List Byte) (s : State) : (emitted bs s).height = s.height := rfl
@[simp] theorem emitted_channels (bs : List Byte) (s : State) : (emitted bs s).channels = s.channels := rfl
@[simp] theorem emitted_colorspace (bs : List Byte) (s : State) : (emitted bs s).colorspace = s.colorspace := rfl
@[simp] theorem emitted_rcap (bs : List Byte) (s : State) : (emitted bs s).rcap = s.rcap := rfl
@[simp] theorem emitted_raster (bs : List Byte) (s : State) : (emitted bs s).raster = s.raster := rfl
@[simp] theorem emitted_input (bs : List Byte) (s : State) : (emitted bs s).input = s.input := rfl
@[simp] theorem emitted_inErr (bs : List Byte) (s : State) : (emitted bs s).inErr = s.inErr := rfl
@[simp] theorem emitted_outErr (bs : List Byte) (s : State) : (emitted bs s).outErr = s.outErr := rfl
@[simp] theorem emitted_magic (bs : List Byte) (s : State) : (emitted bs s).magic = s.magic := rfl
@[simp] theorem emitted_events (bs : List Byte) (s : State) : (emitted bs s).events = s.events := rfl
@[simp] theorem emitted_lastRead (bs : List Byte) (s : State) : (emitted bs s).lastRead = s.lastRead := rfl
@[simp] theorem emitted_raced (bs : List Byte) (s : State) : (emitted bs s).raced = s.raced := rfl

@[simp] theorem complete_phase (px : Pixel) (s : State) : (complete px s).phase = s.phase := rfl
@[simp] theorem complete_cur (px : Pixel) (s : State) : (complete px s).cur = s.cur := rfl
@[simp] theorem complete_bytes (px : Pixel) (s : State) : (complete px s).bytes = s.bytes := rfl
@[simp] theorem complete_n (px : Pixel) (s : State) : (complete px s).n = s.n := rfl
@[simp] theorem complete_errCode (px : Pixel) (s : State) : (complete px s).errCode = s.errCode := rfl
@[simp] theorem complete_posValid (px : Pixel) (s : State) : (complete px s).posValid = s.posValid := rfl
@[simp] theorem complete_errX (px : Pixel) (s : State) : (complete px s).errX = s.errX := rfl
@[simp] theorem complete_errY (px : Pixel) (s : State) : (complete px s).errY = s.errY := rfl
@[simp] theorem complete_irqEn (px : Pixel) (s : State) : (complete px s).irqEn = s.irqEn := rfl
@[simp] theorem complete_width (px : Pixel) (s : State) : (complete px s).width = s.width := rfl
@[simp] theorem complete_height (px : Pixel) (s : State) : (complete px s).height = s.height := rfl
@[simp] theorem complete_channels (px : Pixel) (s : State) : (complete px s).channels = s.channels := rfl
@[simp] theorem complete_colorspace (px : Pixel) (s : State) : (complete px s).colorspace = s.colorspace := rfl
@[simp] theorem complete_rcap (px : Pixel) (s : State) : (complete px s).rcap = s.rcap := rfl
@[simp] theorem complete_raster (px : Pixel) (s : State) : (complete px s).raster = s.raster := rfl
@[simp] theorem complete_input (px : Pixel) (s : State) : (complete px s).input = s.input := rfl
@[simp] theorem complete_inErr (px : Pixel) (s : State) : (complete px s).inErr = s.inErr := rfl
@[simp] theorem complete_output (px : Pixel) (s : State) : (complete px s).output = s.output := rfl
@[simp] theorem complete_outErr (px : Pixel) (s : State) : (complete px s).outErr = s.outErr := rfl
@[simp] theorem complete_magic (px : Pixel) (s : State) : (complete px s).magic = s.magic := rfl
@[simp] theorem complete_events (px : Pixel) (s : State) : (complete px s).events = s.events := rfl
@[simp] theorem complete_lastRead (px : Pixel) (s : State) : (complete px s).lastRead = s.lastRead := rfl
@[simp] theorem complete_raced (px : Pixel) (s : State) : (complete px s).raced = s.raced := rfl

@[simp] theorem withHeader_phase (w h : Word) (ch cs : Byte) (s : State) : (withHeader w h ch cs s).phase = s.phase := rfl
@[simp] theorem withHeader_cache (w h : Word) (ch cs : Byte) (s : State) : (withHeader w h ch cs s).cache = s.cache := rfl
@[simp] theorem withHeader_prev (w h : Word) (ch cs : Byte) (s : State) : (withHeader w h ch cs s).prev = s.prev := rfl
@[simp] theorem withHeader_cur (w h : Word) (ch cs : Byte) (s : State) : (withHeader w h ch cs s).cur = s.cur := rfl
@[simp] theorem withHeader_bytes (w h : Word) (ch cs : Byte) (s : State) : (withHeader w h ch cs s).bytes = s.bytes := rfl
@[simp] theorem withHeader_n (w h : Word) (ch cs : Byte) (s : State) : (withHeader w h ch cs s).n = s.n := rfl
@[simp] theorem withHeader_errCode (w h : Word) (ch cs : Byte) (s : State) : (withHeader w h ch cs s).errCode = s.errCode := rfl
@[simp] theorem withHeader_posValid (w h : Word) (ch cs : Byte) (s : State) : (withHeader w h ch cs s).posValid = s.posValid := rfl
@[simp] theorem withHeader_errX (w h : Word) (ch cs : Byte) (s : State) : (withHeader w h ch cs s).errX = s.errX := rfl
@[simp] theorem withHeader_errY (w h : Word) (ch cs : Byte) (s : State) : (withHeader w h ch cs s).errY = s.errY := rfl
@[simp] theorem withHeader_irqEn (w h : Word) (ch cs : Byte) (s : State) : (withHeader w h ch cs s).irqEn = s.irqEn := rfl
@[simp] theorem withHeader_rcap (w h : Word) (ch cs : Byte) (s : State) : (withHeader w h ch cs s).rcap = s.rcap := rfl
@[simp] theorem withHeader_raster (w h : Word) (ch cs : Byte) (s : State) : (withHeader w h ch cs s).raster = s.raster := rfl
@[simp] theorem withHeader_input (w h : Word) (ch cs : Byte) (s : State) : (withHeader w h ch cs s).input = s.input := rfl
@[simp] theorem withHeader_inErr (w h : Word) (ch cs : Byte) (s : State) : (withHeader w h ch cs s).inErr = s.inErr := rfl
@[simp] theorem withHeader_output (w h : Word) (ch cs : Byte) (s : State) : (withHeader w h ch cs s).output = s.output := rfl
@[simp] theorem withHeader_outErr (w h : Word) (ch cs : Byte) (s : State) : (withHeader w h ch cs s).outErr = s.outErr := rfl
@[simp] theorem withHeader_magic (w h : Word) (ch cs : Byte) (s : State) : (withHeader w h ch cs s).magic = s.magic := rfl
@[simp] theorem withHeader_events (w h : Word) (ch cs : Byte) (s : State) : (withHeader w h ch cs s).events = s.events := rfl
@[simp] theorem withHeader_lastRead (w h : Word) (ch cs : Byte) (s : State) : (withHeader w h ch cs s).lastRead = s.lastRead := rfl
@[simp] theorem withHeader_raced (w h : Word) (ch cs : Byte) (s : State) : (withHeader w h ch cs s).raced = s.raced := rfl

@[simp] theorem withHeader_width (w h : Word) (ch cs : Byte) (s : State) : (withHeader w h ch cs s).width = w := rfl
@[simp] theorem withHeader_height (w h : Word) (ch cs : Byte) (s : State) : (withHeader w h ch cs s).height = h := rfl
@[simp] theorem withHeader_channels (w h : Word) (ch cs : Byte) (s : State) : (withHeader w h ch cs s).channels = ch := rfl
@[simp] theorem withHeader_colorspace (w h : Word) (ch cs : Byte) (s : State) : (withHeader w h ch cs s).colorspace = cs := rfl

@[simp] theorem emitted_output (bs : List Byte) (s : State) : (emitted bs s).output = s.output ++ bs := rfl

/-- Error entry writes PHASE and the error record, and nothing else (R306). -/
theorem raise_eq (e : PassError) (s : State) :
    raise e s = (s.setError (some e) (inChunkStep s) (raise e s).errX (raise e s).errY).setPhase .error := by
  unfold raise
  cases inChunkStep s <;> simp

@[simp] theorem raise_cache (e : PassError) (s : State) : (raise e s).cache = s.cache := by rw [raise_eq]; rfl
@[simp] theorem raise_prev (e : PassError) (s : State) : (raise e s).prev = s.prev := by rw [raise_eq]; rfl
@[simp] theorem raise_cur (e : PassError) (s : State) : (raise e s).cur = s.cur := by rw [raise_eq]; rfl
@[simp] theorem raise_bytes (e : PassError) (s : State) : (raise e s).bytes = s.bytes := by rw [raise_eq]; rfl
@[simp] theorem raise_n (e : PassError) (s : State) : (raise e s).n = s.n := by rw [raise_eq]; rfl
@[simp] theorem raise_irqEn (e : PassError) (s : State) : (raise e s).irqEn = s.irqEn := by rw [raise_eq]; rfl
@[simp] theorem raise_width (e : PassError) (s : State) : (raise e s).width = s.width := by rw [raise_eq]; rfl
@[simp] theorem raise_height (e : PassError) (s : State) : (raise e s).height = s.height := by rw [raise_eq]; rfl
@[simp] theorem raise_channels (e : PassError) (s : State) : (raise e s).channels = s.channels := by rw [raise_eq]; rfl
@[simp] theorem raise_colorspace (e : PassError) (s : State) : (raise e s).colorspace = s.colorspace := by rw [raise_eq]; rfl
@[simp] theorem raise_rcap (e : PassError) (s : State) : (raise e s).rcap = s.rcap := by rw [raise_eq]; rfl
@[simp] theorem raise_raster (e : PassError) (s : State) : (raise e s).raster = s.raster := by rw [raise_eq]; rfl
@[simp] theorem raise_input (e : PassError) (s : State) : (raise e s).input = s.input := by rw [raise_eq]; rfl
@[simp] theorem raise_inErr (e : PassError) (s : State) : (raise e s).inErr = s.inErr := by rw [raise_eq]; rfl
@[simp] theorem raise_output (e : PassError) (s : State) : (raise e s).output = s.output := by rw [raise_eq]; rfl
@[simp] theorem raise_outErr (e : PassError) (s : State) : (raise e s).outErr = s.outErr := by rw [raise_eq]; rfl
@[simp] theorem raise_magic (e : PassError) (s : State) : (raise e s).magic = s.magic := by rw [raise_eq]; rfl
@[simp] theorem raise_events (e : PassError) (s : State) : (raise e s).events = s.events := by rw [raise_eq]; rfl
@[simp] theorem raise_lastRead (e : PassError) (s : State) : (raise e s).lastRead = s.lastRead := by rw [raise_eq]; rfl
@[simp] theorem raise_raced (e : PassError) (s : State) : (raise e s).raced = s.raced := by rw [raise_eq]; rfl

end Sys2Proof.Machine
end

