-- ==== Sys2Proof/Laws/Ports.lean ====
section
/-! SUPPORT. What the stream ports and error entry can do: one lemma per operation, for the two ways it ends. -/

namespace Sys2Proof.Machine

open Sys2Proof

/-! Error entry. -/

@[simp] theorem raise_phase (e : PassError) (s : State) : (raise e s).phase = .error := by
  rw [raise_eq]; rfl

@[simp] theorem raise_errCode (e : PassError) (s : State) : (raise e s).errCode = some e := by
  rw [raise_eq]; rfl

@[simp] theorem raise_posValid (e : PassError) (s : State) : (raise e s).posValid = inChunkStep s := by
  rw [raise_eq]; rfl

theorem raise_noPosition (e : PassError) (s : State) (h : inChunkStep s = false) :
    (raise e s).errX = 0 ∧ (raise e s).errY = 0 := by
  simp [raise, h]

/-- Error entry outside a chunk step records no position (R306). -/
theorem raise_outside {e : PassError} {s : State} (h : inChunkStep s = false) :
    raise e s = (s.setError (some e) false 0 0).setPhase .error := by
  simp [raise, h]

/-! One byte. -/

/-- A byte read came from the input at position BYTES and is counted; nothing else changed. -/
theorem nextByte_ok {s t : State} {v : Byte} (h : nextByte s = .ok v t) :
    t = consumed 1 s ∧ s.input[s.bytes.toNat]? = some v ∧ portFails s.inErr s.bytes.toNat = false := by
  simp only [nextByte, inRead] at h
  split at h
  · rename_i heq
    split at heq
    · simp at heq
    · split at heq
      · simp only [Prod.mk.injEq, InAnswer.byte.injEq] at heq
        simp only [Xfer.ok.injEq] at h
        refine ⟨?_, ?_, ?_⟩
        · rw [← h.2, ← heq.2]; rfl
        · rw [← h.1, ← heq.1]; assumption
        · simp_all
      · simp at heq
  · simp at h
  · simp at h

/-- A byte not read enters TruncatedStream or IOError; nothing was counted. -/
theorem nextByte_raised {s t : State} (h : nextByte s = .raised t) :
    (t = raise .truncatedStream s ∧ portFails s.inErr s.bytes.toNat = false ∧ s.input[s.bytes.toNat]? = none) ∨
      (t = raise .ioError s ∧ portFails s.inErr s.bytes.toNat = true) := by
  simp only [nextByte, inRead] at h
  split at h
  · simp at h
  · rename_i heq
    split at heq
    · simp at heq
    · split at heq
      · simp at heq
      · simp_all
  · rename_i heq
    split at heq
    · simp_all
    · split at heq <;> simp at heq

theorem nextByte_of_ready {s : State} {v : Byte} (h : s.input[s.bytes.toNat]? = some v)
    (hf : portFails s.inErr s.bytes.toNat = false) : nextByte s = .ok v (consumed 1 s) := by
  simp only [nextByte, inRead, hf, h]
  rfl

/-! Counting. -/

@[simp] theorem consumed_zero (s : State) : consumed 0 s = s := by
  simp [consumed, State.setBytes]

theorem consumed_consumed (j k : Nat) (s : State) : consumed k (consumed j s) = consumed (j + k) s := by
  simp [consumed, State.setBytes, BitVec.add_assoc, ← BitVec.ofNat_add]

theorem consumed_bytes_toNat (k : Nat) (s : State) (h : s.bytes.toNat + k < 2 ^ 64) :
    (consumed k s).bytes.toNat = s.bytes.toNat + k := by
  simp only [consumed, State.setBytes_bytes, BitVec.toNat_add, BitVec.toNat_ofNat]
  omega

@[simp] theorem emitted_nil (s : State) : emitted [] s = s := by
  simp [emitted, State.setBytes, State.setOutput]

theorem emitted_emitted (xs ys : List Byte) (s : State) : emitted ys (emitted xs s) = emitted (xs ++ ys) s := by
  simp [emitted, State.setBytes, State.setOutput, BitVec.add_assoc, ← BitVec.ofNat_add]

/-! Several bytes. -/

/-- Bytes read are counted, one by one, and nothing else changes. -/
theorem readBytes_ok {k : Nat} {s t : State} {bs : List Byte} (h : readBytes k s = .ok bs t) :
    t = consumed k s ∧ bs.length = k := by
  induction k generalizing s t bs with
  | zero => simp only [readBytes, Xfer.ok.injEq] at h; simp [← h.1, ← h.2]
  | succ k ih =>
    simp only [readBytes, Xfer.andThen] at h
    split at h
    · rename_i v u hu
      split at h
      · rename_i vs w hw
        simp only [Xfer.ok.injEq] at h
        obtain ⟨hu, -, -⟩ := nextByte_ok hu
        obtain ⟨hw, hl⟩ := ih hw
        refine ⟨?_, ?_⟩
        · rw [← h.2, hw, hu, consumed_consumed, Nat.add_comm]
        · simp [← h.1, hl]
      · simp at h
    · simp at h

/-- A failing read enters TruncatedStream or IOError after the bytes it did read, fewer than it wanted (R307, R308). -/
theorem readBytes_raised {k : Nat} {s t : State} (h : readBytes k s = .raised t) :
    ∃ j, j < k ∧ (t = raise .truncatedStream (consumed j s) ∨ t = raise .ioError (consumed j s)) := by
  induction k generalizing s t with
  | zero => simp [readBytes] at h
  | succ k ih =>
    simp only [readBytes, Xfer.andThen] at h
    split at h
    · rename_i v u hu
      split at h
      · simp at h
      · rename_i w hw
        simp only [Xfer.raised.injEq] at h
        obtain ⟨hu, -, -⟩ := nextByte_ok hu
        obtain ⟨j, hj, hor⟩ := ih hw
        refine ⟨j + 1, by omega, ?_⟩
        rw [← h, Nat.add_comm, ← consumed_consumed, ← hu]
        exact hor
    · rename_i u hu
      simp only [Xfer.raised.injEq] at h
      refine ⟨0, by omega, ?_⟩
      rw [← h, consumed_zero]
      rcases nextByte_raised hu with h | h
      · exact .inl h.1
      · exact .inr h.1

theorem portFails_of_bound {e : Option Nat} {p k : Nat} (h : ∀ x, e = some x → p + k ≤ x) (hk : 0 < k) :
    portFails e p = false := by
  cases e with
  | none => rfl
  | some x =>
    have := h x rfl
    simp only [portFails, decide_eq_false_iff_not]
    omega

/-- Bytes that the input holds, at a port that does not fail, are read. -/
theorem readBytes_of_holds {bs : List Byte} {s : State} (h : InputHolds s bs) :
    readBytes bs.length s = .ok bs (consumed bs.length s) := by
  induction bs generalizing s with
  | nil => simp [readBytes]
  | cons v vs ih =>
    obtain ⟨hn, hf, hw⟩ := h
    obtain ⟨rest, hr⟩ := hn
    have hv : s.input[s.bytes.toNat]? = some v := by
      have := congrArg (fun l => l[0]?) hr
      simpa using this.symm
    have hb : nextByte s = .ok v (consumed 1 s) :=
      nextByte_of_ready hv (portFails_of_bound hf (by simp))
    have hc := consumed_bytes_toNat 1 s (by simp at hw; omega)
    have hs : InputHolds (consumed 1 s) vs := by
      refine ⟨⟨rest, ?_⟩, fun e he => ?_, ?_⟩
      · have := congrArg (List.drop 1) hr
        rw [hc]
        simpa [List.drop_drop, consumed] using this
      · have := hf e he
        simp only [List.length_cons] at this
        omega
      · simp only [List.length_cons] at hw
        omega
    simp only [List.length_cons, readBytes, hb, Xfer.andThen, ih hs]
    rw [consumed_consumed, Nat.add_comm]

/-- The stream after one of the bytes it gives, when it then ends. -/
theorem InputEnds.tail {s : State} {v : Byte} {vs : List Byte} (h : InputEnds s (v :: vs)) :
    nextByte s = .ok v (consumed 1 s) ∧ InputEnds (consumed 1 s) vs := by
  obtain ⟨ha, hf, hw⟩ := h
  simp only [List.length_cons] at hf hw
  have hv : s.input[s.bytes.toNat]? = some v := by
    have := congrArg (fun l => l[0]?) ha
    simpa using this
  have hc := consumed_bytes_toNat 1 s (by omega)
  refine ⟨nextByte_of_ready hv (portFails_of_bound (k := 1) (fun e he => ?_) (by omega)), ⟨?_, fun e he => ?_, by omega⟩⟩
  · have := hf e he; omega
  · have := congrArg (List.drop 1) ha
    rw [hc]
    simpa [List.drop_drop, consumed] using this
  · have := hf e he; omega

/-- The stream after one of the bytes it gives, when its port then fails. -/
theorem InputFails.tail {s : State} {v : Byte} {vs : List Byte} (h : InputFails s (v :: vs)) :
    nextByte s = .ok v (consumed 1 s) ∧ InputFails (consumed 1 s) vs := by
  obtain ⟨⟨rest, ha⟩, hf, hw⟩ := h
  simp only [List.length_cons] at hf hw
  have hv : s.input[s.bytes.toNat]? = some v := by
    have := congrArg (fun l => l[0]?) ha
    simpa using this.symm
  have hc := consumed_bytes_toNat 1 s (by omega)
  refine ⟨nextByte_of_ready hv (by simp [hf, portFails]), ⟨⟨rest, ?_⟩, ?_, by omega⟩⟩
  · have := congrArg (List.drop 1) ha
    rw [hc]
    simpa [List.drop_drop, consumed] using this
  · rw [hc]
    simp [consumed, hf]
    omega

theorem nextByte_of_ends {s : State} (h : InputEnds s []) : nextByte s = .raised (raise .truncatedStream s) := by
  have hv : s.input[s.bytes.toNat]? = none := by
    have := congrArg (fun l => l[0]?) h.all
    simpa using this
  have hf : portFails s.inErr s.bytes.toNat = false :=
    portFails_of_bound (k := 1) (fun e he => by simpa using h.noFailure e he) (by omega)
  simp only [nextByte, inRead, hf, hv]
  rfl

theorem nextByte_of_fails {s : State} (h : InputFails s []) : nextByte s = .raised (raise .ioError s) := by
  have hf : portFails s.inErr s.bytes.toNat = true := by simp [h.failure, portFails]
  simp only [nextByte, inRead, hf]
  rfl

/-- A stream that ends inside the bytes wanted raises TruncatedStream (R233). -/
theorem readBytes_of_ends {pre : List Byte} {s : State} {k : Nat} (h : InputEnds s pre) (hk : pre.length < k) :
    readBytes k s = .raised (raise .truncatedStream (consumed pre.length s)) := by
  induction pre generalizing s k with
  | nil =>
    obtain ⟨k, rfl⟩ : ∃ j, k = j + 1 := ⟨k - 1, by simp at hk; omega⟩
    simp only [readBytes, nextByte_of_ends h, Xfer.andThen, List.length_nil, consumed_zero]
  | cons v vs ih =>
    obtain ⟨k, rfl⟩ : ∃ j, k = j + 1 := ⟨k - 1, by omega⟩
    obtain ⟨h1, h2⟩ := h.tail
    simp only [List.length_cons] at hk
    simp only [readBytes, h1, Xfer.andThen, ih h2 (show vs.length < k by omega), consumed_consumed,
      List.length_cons, Nat.add_comm]

/-- A port that fails inside the bytes wanted raises IOError (R233). -/
theorem readBytes_of_fails {pre : List Byte} {s : State} {k : Nat} (h : InputFails s pre) (hk : pre.length < k) :
    readBytes k s = .raised (raise .ioError (consumed pre.length s)) := by
  induction pre generalizing s k with
  | nil =>
    obtain ⟨k, rfl⟩ : ∃ j, k = j + 1 := ⟨k - 1, by simp at hk; omega⟩
    simp only [readBytes, nextByte_of_fails h, Xfer.andThen, List.length_nil, consumed_zero]
  | cons v vs ih =>
    obtain ⟨k, rfl⟩ : ∃ j, k = j + 1 := ⟨k - 1, by omega⟩
    obtain ⟨h1, h2⟩ := h.tail
    simp only [List.length_cons] at hk
    simp only [readBytes, h1, Xfer.andThen, ih h2 (show vs.length < k by omega), consumed_consumed,
      List.length_cons, Nat.add_comm]

/-- The bytes a stream gives, part by part. -/
theorem InputHolds.split {s : State} {xs ys : List Byte} (h : InputHolds s (xs ++ ys)) :
    InputHolds s xs ∧ InputHolds (consumed xs.length s) ys := by
  obtain ⟨⟨r, hr⟩, hf, hw⟩ := h
  simp only [List.length_append] at hf hw
  have hc := consumed_bytes_toNat xs.length s (by omega)
  refine ⟨⟨⟨ys ++ r, by rw [← hr, List.append_assoc]⟩, fun e he => ?_, by omega⟩, ⟨⟨r, ?_⟩, fun e he => ?_, by omega⟩⟩
  · have := hf e he; omega
  · have := congrArg (List.drop xs.length) hr
    rw [hc]
    simpa [List.drop_drop, consumed] using this
  · have := hf e he; omega

theorem InputEnds.split {s : State} {xs ys : List Byte} (h : InputEnds s (xs ++ ys)) :
    InputHolds s xs ∧ InputEnds (consumed xs.length s) ys := by
  obtain ⟨ha, hf, hw⟩ := h
  simp only [List.length_append] at hf hw
  have hc := consumed_bytes_toNat xs.length s (by omega)
  refine ⟨⟨⟨ys, ha.symm⟩, fun e he => ?_, by omega⟩, ⟨?_, fun e he => ?_, by omega⟩⟩
  · have := hf e he; omega
  · have := congrArg (List.drop xs.length) ha
    rw [hc]
    simpa [List.drop_drop, consumed] using this
  · have := hf e he; omega

theorem InputFails.split {s : State} {xs ys : List Byte} (h : InputFails s (xs ++ ys)) :
    InputHolds s xs ∧ InputFails (consumed xs.length s) ys := by
  obtain ⟨⟨r, hr⟩, hf, hw⟩ := h
  simp only [List.length_append] at hf hw
  have hc := consumed_bytes_toNat xs.length s (by omega)
  refine ⟨⟨⟨ys ++ r, by rw [← hr, List.append_assoc]⟩, fun e he => ?_, by omega⟩, ⟨⟨r, ?_⟩, ?_, by omega⟩⟩
  · rw [hf] at he; simp at he; omega
  · have := congrArg (List.drop xs.length) hr
    rw [hc]
    simpa [List.drop_drop, consumed] using this
  · rw [hc]; simp [consumed, hf]; omega

/-! Output. -/

theorem outWrite_ok {v : Byte} {s t : State} (h : outWrite v s = (.ok, t)) :
    t = emitted [v] s ∧ portFails s.outErr s.bytes.toNat = false := by
  simp only [outWrite] at h
  split at h
  · simp at h
  · simp only [Prod.mk.injEq, true_and] at h
    exact ⟨by rw [← h]; rfl, by simp_all⟩

theorem outWrite_ioErr {v : Byte} {s t : State} (h : outWrite v s = (.ioErr, t)) :
    t = s ∧ portFails s.outErr s.bytes.toNat = true := by
  simp only [outWrite] at h
  split at h
  · simp only [Prod.mk.injEq, true_and] at h
    exact ⟨h.symm, by assumption⟩
  · simp at h

/-- Bytes emitted are appended and counted, and nothing else changes. -/
theorem emit_ok {bs : List Byte} {s t : State} (h : emit bs s = .ok () t) : t = emitted bs s := by
  induction bs generalizing s with
  | nil => simp only [emit, Xfer.ok.injEq, true_and] at h; simp [← h]
  | cons v vs ih =>
    simp only [emit] at h
    split at h
    · rename_i u hu
      rw [ih h, (outWrite_ok hu).1, emitted_emitted]
      rfl
    · simp at h

/-- A failing emit enters IOError with the bytes before the failing one in the output (R305, R307). -/
theorem emit_raised {bs : List Byte} {s t : State} (h : emit bs s = .raised t) :
    ∃ pre, pre <+: bs ∧ pre ≠ bs ∧ t = raise .ioError (emitted pre s) := by
  induction bs generalizing s with
  | nil => simp [emit] at h
  | cons v vs ih =>
    simp only [emit] at h
    split at h
    · rename_i u hu
      obtain ⟨pre, hp, hne, ht⟩ := ih h
      refine ⟨v :: pre, by simpa using hp, by simpa using hne, ?_⟩
      rw [ht, (outWrite_ok hu).1, emitted_emitted]
      rfl
    · rename_i u hu
      simp only [Xfer.raised.injEq] at h
      refine ⟨[], by simp, by simp, ?_⟩
      rw [← h, (outWrite_ioErr hu).1, emitted_nil]

theorem emitted_bytes_toNat (bs : List Byte) (s : State) (h : s.bytes.toNat + bs.length < 2 ^ 64) :
    (emitted bs s).bytes.toNat = s.bytes.toNat + bs.length := by
  simp only [emitted, State.setBytes_bytes, BitVec.toNat_add, BitVec.toNat_ofNat]
  omega

/-- A port that accepts enough bytes takes them all. -/
theorem emit_of_accepts {bs : List Byte} {s : State} (h : OutputAccepts s bs.length) :
    emit bs s = .ok () (emitted bs s) := by
  induction bs generalizing s with
  | nil => simp [emit]
  | cons v vs ih =>
    obtain ⟨hf, hw⟩ := h
    have hp : portFails s.outErr s.bytes.toNat = false := portFails_of_bound hf (by simp)
    have ho : outWrite v s = (.ok, emitted [v] s) := by
      simp only [outWrite, hp]
      rfl
    have hc := emitted_bytes_toNat [v] s (by simp at hw ⊢; omega)
    have hs : OutputAccepts (emitted [v] s) vs.length := by
      refine ⟨fun e he => ?_, ?_⟩
      · have := hf e he
        simp only [List.length_cons, List.length_nil] at this hc
        omega
      · simp only [List.length_cons, List.length_nil] at hw hc
        omega
    simp only [emit, ho, ih hs, emitted_emitted]
    rfl

/-- A port that fails inside the bytes to write raises IOError with the bytes before in the output (R305). -/
theorem emit_of_fails {bs : List Byte} {s : State} {k : Nat} (h : OutputFails s k) (hk : k < bs.length) :
    emit bs s = .raised (raise .ioError (emitted (bs.take k) s)) := by
  induction bs generalizing s k with
  | nil => simp at hk
  | cons v vs ih =>
    obtain ⟨hf, hw⟩ := h
    rcases Nat.eq_zero_or_pos k with rfl | hpos
    · have hp : portFails s.outErr s.bytes.toNat = true := by simp [hf, portFails]
      simp only [emit, outWrite, hp, List.take_zero, emitted_nil]
      rfl
    · obtain ⟨j, rfl⟩ : ∃ j, k = j + 1 := ⟨k - 1, by omega⟩
      have hp : portFails s.outErr s.bytes.toNat = false := by
        simp only [hf, portFails, decide_eq_false_iff_not]; omega
      have ho : outWrite v s = (.ok, emitted [v] s) := by
        simp only [outWrite, hp]
        rfl
      have hc := emitted_bytes_toNat [v] s (by simp; omega)
      simp only [List.length_cons, List.length_nil] at hc hk
      have hs : OutputFails (emitted [v] s) j := by
        refine ⟨?_, by omega⟩
        rw [hc]
        simp [emitted, hf]
        omega
      simp only [emit, ho, ih hs (by omega), emitted_emitted, List.take_succ_cons, List.singleton_append]

end Sys2Proof.Machine
end

