-- ==== Sys2Proof/Laws/Chunks.lean ====
section
/-! SUPPORT. What producing pixels and completing a chunk step can do. -/

namespace Sys2Proof.Machine

open Sys2Proof

/-- A chunk is `Produce; Complete` of its pixel and its count. -/
theorem exec_eq (i : Instr) (s : State) : exec i s = writeChunk (chunkPixel i s) (chunkCount i) s := by
  cases i <;> rfl

/-! Completion (R160). -/

theorem complete_eq (px : Pixel) (s : State) :
    complete px s = (s.setCache (s.cache.set (hash6 px).val px (hash6 px).isLt)).setPrev px := rfl

theorem complete_slot (px : Pixel) (s : State) : (complete px s).cache[hash6 px] = px := by
  simp [complete_eq]

theorem complete_otherSlot (px : Pixel) (s : State) (k : Fin cacheSlots) (h : k ≠ hash6 px) :
    (complete px s).cache[k] = s.cache[k] := by
  simp only [complete_eq, State.setPrev_cache, State.setCache_cache, Fin.getElem_fin]
  rw [Vector.getElem_set_ne]
  exact fun he => h (Fin.ext he.symm)

/-- The insert keeps R138. -/
theorem complete_cacheInv (px : Pixel) (s : State) (h : CacheInv s) : CacheInv (complete px s) := by
  intro k
  by_cases hk : k = hash6 px
  · right
    rw [hk, complete_slot]
  · rw [complete_otherSlot px s k hk]
    exact h k

/-! Producing (R238). -/

theorem clip_le_left (n : Nat) (s : State) : clip n s ≤ n := by unfold clip; omega

theorem cur_add_clip (n : Nat) (s : State) (h : 0 < clip n s) : s.cur.toNat + clip n s ≤ s.n.toNat := by
  unfold clip at *; omega

/-- The advanced cursor fits 64 bits. -/
theorem cursor_toNat (n : Nat) (s : State) :
    (BitVec.ofNat 64 (s.cur.toNat + clip n s)).toNat = s.cur.toNat + clip n s := by
  have h1 := s.cur.isLt
  have h2 := s.n.isLt
  rw [BitVec.toNat_ofNat]
  apply Nat.mod_eq_of_lt
  unfold clip
  omega

/-- The state a chunk of `n` pixels `px` leaves. -/
theorem writeChunk_next {px : Pixel} {n : Nat} {s t : State} (h : writeChunk px n s = .next t) :
    t = complete px ((s.setRaster (fillPixels s.raster s.cur.toNat px (clip n s))).setCur
      (BitVec.ofNat 64 (s.cur.toNat + clip n s))) := by
  unfold writeChunk produce at h
  split at h
  · rename_i heq
    split at heq
    · simp only [Except.ok.injEq] at heq
      simp only [Host.Outcome.next.injEq] at h
      rw [← h, ← heq]
    · simp at heq
  · simp at h

theorem writeChunk_of_fits (px : Pixel) (n : Nat) (s : State)
    (h : clip n s = 0 ∨ s.cur.toNat + clip n s ≤ s.rcap.toNat) :
    writeChunk px n s = .next (complete px ((s.setRaster (fillPixels s.raster s.cur.toNat px (clip n s))).setCur
      (BitVec.ofNat 64 (s.cur.toNat + clip n s)))) := by
  simp only [writeChunk, produce, if_pos h]

theorem writeChunk_fault (px : Pixel) (n : Nat) (s : State)
    (h : ¬ (clip n s = 0 ∨ s.cur.toNat + clip n s ≤ s.rcap.toNat)) :
    writeChunk px n s = .fault .rasterOutOfRange := by
  simp only [writeChunk, produce, if_neg h]

theorem fits_of_capacity (n : Nat) (s : State) (h : s.n.toNat ≤ s.rcap.toNat) :
    clip n s = 0 ∨ s.cur.toNat + clip n s ≤ s.rcap.toNat := by
  unfold clip; omega

/-- A chunk in a pass that fits its raster completes, with the effect R160 and R238 give it. -/
theorem writeChunk_effect (px : Pixel) (n : Nat) (s : State) (hw : Memory.wf s.raster)
    (hr : s.n.toNat ≤ s.rcap.toNat) :
    ∃ t, writeChunk px n s = .next t ∧ ChunkEffect px (clip n s) s t := by
  refine ⟨_, writeChunk_of_fits px n s (fits_of_capacity n s hr), ?_⟩
  refine ⟨fun k hk => ?_, fun a ha => ?_, ?_, rfl, complete_slot _ _, fun k hk => ?_, rfl⟩
  · exact readPixel_fillPixels_inside _ _ _ _ _ hw hk
  · exact read_fillPixels_outside _ _ _ _ _ ha
  · exact cursor_toNat n s
  · exact complete_otherSlot _ _ k hk

/-- A chunk writes the raster, CUR, CACHE and PREV, and nothing else. -/
theorem exec_rest {i : Instr} {s t : State} (h : exec i s = .next t) :
    ∃ m u c px, t = (((s.setRaster m).setCur u).setCache c).setPrev px := by
  rw [exec_eq] at h
  obtain ⟨_, rfl⟩ := writeChunk_next h
  exact ⟨_, _, _, _, rfl⟩

/-- While pixels are left, a chunk of one pixel is not clipped. -/
theorem clip_one {s : State} (h : s.cur.toNat < s.n.toNat) : clip 1 s = 1 := by unfold clip; omega

end Sys2Proof.Machine
end

