-- ==== Sys2Proof/Laws/Encoding.lean ====
section
/-! SUPPORT. The bit fields of a chunk's bytes: what `field` reads from bytes put together, what a biased field gives back,
and the chunk type of each tag. -/

namespace Sys2Proof

/-! A biased field and its operand (R106). -/

theorem unbias_rebias (w : Nat) (d bias : Int) (h0 : 0 ≤ d + bias) (h1 : d + bias < 2 ^ w) :
    unbias w (rebias w d bias) bias = d := by
  unfold unbias rebias
  rw [BitVec.toNat_ofInt]
  have h : (d + bias) % ((2 ^ w : Nat) : Int) = d + bias := Int.emod_eq_of_lt h0 (by exact_mod_cast h1)
  rw [h]
  omega

theorem rebias_unbias (w : Nat) (v : BitVec w) (bias : Int) : rebias w (unbias w v bias) bias = v := by
  unfold unbias rebias
  apply BitVec.eq_of_toNat_eq
  rw [BitVec.toNat_ofInt]
  have : ((v.toNat : Int) - bias + bias) = (v.toNat : Int) := by omega
  rw [this, Int.emod_eq_of_lt (by omega) (by exact_mod_cast v.isLt)]
  simp

theorem unbias_lower (w : Nat) (v : BitVec w) (bias : Int) : -bias ≤ unbias w v bias := by
  unfold unbias; omega

theorem unbias_upper (w : Nat) (v : BitVec w) (bias : Int) : unbias w v bias < 2 ^ w - bias := by
  have : (v.toNat : Int) < 2 ^ w := by exact_mod_cast v.isLt
  unfold unbias; omega

/-! The fields of a byte put together from a two-bit tag and the rest (R99). -/

theorem field_tag (t : BitVec 2) (x : BitVec 6) : field (t ++ x) 6 2 = t := by
  revert t x; decide

theorem field_six (t : BitVec 2) (x : BitVec 6) : field (t ++ x) 0 6 = x := by
  revert t x; decide

theorem field_diff (t r g b : BitVec 2) :
    field (t ++ r ++ g ++ b) 4 2 = r ∧ field (t ++ r ++ g ++ b) 2 2 = g ∧ field (t ++ r ++ g ++ b) 0 2 = b := by
  revert t r g b; decide

theorem field_nibbles (x y : BitVec 4) : field (x ++ y) 4 4 = x ∧ field (x ++ y) 0 4 = y := by
  revert x y; decide

/-! A byte is put together from its fields. -/

theorem byte_of_tag (b : Byte) : field b 6 2 ++ field b 0 6 = b := by
  revert b; decide

theorem byte_of_diff (b : Byte) : field b 6 2 ++ field b 4 2 ++ field b 2 2 ++ field b 0 2 = b := by
  revert b; decide

theorem byte_of_nibbles (b : Byte) : field b 4 4 ++ field b 0 4 = b := by
  revert b; decide

/-! The chunk type of each tag (R98). -/

theorem classify_index (x : BitVec 6) : classify (0b00#2 ++ x) = .index := by
  revert x; decide

theorem classify_diff (r g b : BitVec 2) : classify (0b01#2 ++ r ++ g ++ b) = .diff := by
  revert r g b; decide

theorem classify_luma (x : BitVec 6) : classify (0b10#2 ++ x) = .luma := by
  revert x; decide

theorem classify_run (x : BitVec 6) (h : x.toNat < 62) : classify (0b11#2 ++ x) = .run := by
  revert x; decide

theorem classify_rgb : classify 0xFE#8 = .rgb := by decide

theorem classify_rgba : classify 0xFF#8 = .rgba := by decide

/-- The number a concatenation of two fields stands for. -/
theorem toNat_fields {n m : Nat} (x : BitVec n) (y : BitVec m) : (x ++ y).toNat = x.toNat * 2 ^ m + y.toNat := by
  rw [BitVec.toNat_append, ← Nat.shiftLeft_add_eq_or_of_lt y.isLt, Nat.shiftLeft_eq]

/-- A chunk is 1 to 5 bytes long. -/
theorem encode_length (i : Instr) : 1 ≤ (encode i).length ∧ (encode i).length ≤ 5 := by
  cases i <;> simp [encode]

end Sys2Proof
end

