-- ==== Sys2Proof/Laws/Units.lean ====
section
/-! SUPPORT. What the datapath units compute, as integer equations and inequalities. -/

namespace Sys2Proof

theorem inRange_iff (v lo hi : Int) : inRange v lo hi = true ↔ lo ≤ v ∧ v ≤ hi := by
  simp [inRange]

end Sys2Proof

namespace Sys2Proof.Machine

open Sys2Proof

/-- R14 on a remainder modulo 256. -/
theorem s8_emod (x : Int) : s8 (x % 256).toNat = if x % 256 < 128 then x % 256 else x % 256 - 256 := by
  have : 0 ≤ x % 256 := Int.emod_nonneg _ (by decide)
  unfold s8
  split <;> split <;> omega

theorem d8_eq (c p : Byte) :
    d8 c p = if ((c.toNat : Int) - p.toNat) % 256 < 128 then ((c.toNat : Int) - p.toNat) % 256
      else ((c.toNat : Int) - p.toNat) % 256 - 256 := s8_emod _

theorem add8_toNat (p : Byte) (d : Int) : ((add8 p d).toNat : Int) = (p.toNat + d) % 256 := by
  have : 0 ≤ ((p.toNat : Int) + d) % 256 := Int.emod_nonneg _ (by decide)
  unfold add8
  rw [BitVec.toNat_ofInt]
  norm_num
  exact this

/-- R140, as inequalities. -/
theorem diffOk_iff (px prev : Pixel) :
    diffOk px prev = true ↔ px.a = prev.a ∧ (-2 ≤ deltaR px prev ∧ deltaR px prev ≤ 1)
      ∧ (-2 ≤ deltaG px prev ∧ deltaG px prev ≤ 1) ∧ (-2 ≤ deltaB px prev ∧ deltaB px prev ≤ 1) := by
  simp only [diffOk, alphaSame, Bool.and_eq_true, decide_eq_true_eq, inRange_iff, and_assoc]

/-- R140, as inequalities. -/
theorem lumaOk_iff (px prev : Pixel) :
    lumaOk px prev = true ↔ px.a = prev.a ∧ (-32 ≤ deltaG px prev ∧ deltaG px prev ≤ 31)
      ∧ (-8 ≤ deltaR px prev - deltaG px prev ∧ deltaR px prev - deltaG px prev ≤ 7)
      ∧ (-8 ≤ deltaB px prev - deltaG px prev ∧ deltaB px prev - deltaG px prev ≤ 7) := by
  simp only [lumaOk, alphaSame, Bool.and_eq_true, decide_eq_true_eq, inRange_iff, and_assoc]

end Sys2Proof.Machine
end

