-- ==== Sys2Proof/Laws/Steps.lean ====
section
/-! SUPPORT. What each step of the engine can do: one inversion lemma per step, from which invariants and frames follow. -/

namespace Sys2Proof

/-- The chunk types of R98, with what the first byte then is. -/
theorem classify_cases (b0 : Byte) :
    (classify b0 = .rgb ∧ b0 = 0xFE#8) ∨ (classify b0 = .rgba ∧ b0 = 0xFF#8)
      ∨ (classify b0 = .index ∧ field b0 6 2 = 0b00#2) ∨ (classify b0 = .diff ∧ field b0 6 2 = 0b01#2)
      ∨ (classify b0 = .luma ∧ field b0 6 2 = 0b10#2)
      ∨ (classify b0 = .run ∧ field b0 6 2 = 0b11#2 ∧ (field b0 0 6).toNat < 62) := by
  revert b0; decide

/-- R107: with a whole payload every first byte gives a chunk of its type, and nothing is left over. -/
theorem decode_of_payload (b0 : Byte) (payload : List Byte) (h : payload.length = (classify b0).length - 1) :
    ∃ i, decode (b0 :: payload) = .ok (i, []) ∧ i.kind = classify b0 := by
  rcases classify_cases b0 with ⟨hc, -⟩ | ⟨hc, -⟩ | ⟨hc, -⟩ | ⟨hc, -⟩ | ⟨hc, -⟩ | ⟨hc, -⟩ <;>
    rw [hc] at h <;> simp only [Kind.length] at h
  · obtain ⟨r, g, b, rfl⟩ := List.length_eq_three.mp h
    refine ⟨_, by simp only [decode, hc, decodeRgb]; rfl, by rw [hc]; rfl⟩
  · match payload, h with
    | [r, g, b, a], _ => refine ⟨_, by simp only [decode, hc, decodeRgba]; rfl, by rw [hc]; rfl⟩
  · obtain rfl := List.length_eq_zero_iff.mp h
    refine ⟨_, by simp only [decode, hc]; rfl, by rw [hc]; rfl⟩
  · obtain rfl := List.length_eq_zero_iff.mp h
    refine ⟨_, by simp only [decode, hc]; rfl, by rw [hc]; rfl⟩
  · obtain ⟨b1, rfl⟩ := List.length_eq_one_iff.mp h
    refine ⟨_, by simp only [decode, hc, decodeLuma]; rfl, by rw [hc]; rfl⟩
  · obtain rfl := List.length_eq_zero_iff.mp h
    refine ⟨_, by simp only [decode, hc]; rfl, by rw [hc]; rfl⟩

end Sys2Proof

namespace Sys2Proof.Machine

open Sys2Proof

theorem step_alone {s : State} (h : s.events = []) : step s = engineStep s := by
  simp [step, machineStep, h]

theorem step_event {s : State} {e : Event} {es : List Event} (h : s.events = e :: es) :
    step s = eventStep e (s.setEvents es) := by
  simp [step, machineStep, h]

@[simp] theorem Xfer.finish_ok {α : Type} (a : α) (s : State) (f : α → State → Host.Outcome State Fault Refusal) :
    (Xfer.ok a s).finish f = f a s := rfl

@[simp] theorem Xfer.finish_raised {α : Type} (s : State) (f : α → State → Host.Outcome State Fault Refusal) :
    (Xfer.raised s : Xfer α).finish f = .next s := rfl

/-! Fetching a chunk (R234). -/

/-- A decoded chunk stands for 1 to 62 pixels. -/
theorem decode_chunkCount {bs rest : List Byte} {i : Instr} (h : decode bs = .ok (i, rest)) :
    1 ≤ chunkCount i ∧ chunkCount i ≤ 62 := by
  cases i with
  | run n =>
    cases bs with
    | nil => simp [decode] at h
    | cons b0 tl =>
      rcases classify_cases b0 with ⟨hc, -⟩ | ⟨hc, -⟩ | ⟨hc, -⟩ | ⟨hc, -⟩ | ⟨hc, -⟩ | ⟨hc, -, hl⟩ <;>
        simp only [decode, hc, decodeRgb, decodeRgba, decodeLuma] at h
      case inr.inr.inr.inr.inr =>
        simp only [Except.ok.injEq, Prod.mk.injEq, Instr.run.injEq] at h
        simp only [chunkCount]
        omega
      all_goals repeat (first | (split at h) | (simp at h))
  | _ => exact ⟨Nat.le_refl 1, by simp [chunkCount]⟩

/-- A chunk fetched was read byte by byte, and its bytes counted; nothing else changed. -/
theorem fetch_ok {s t : State} {i : Instr} (h : fetch s = .ok i t) :
    (1 ≤ chunkCount i ∧ chunkCount i ≤ 62) ∧ ∃ k, 1 ≤ k ∧ k ≤ 5 ∧ t = consumed k s := by
  simp only [fetch, Xfer.andThen] at h
  split at h
  · rename_i b0 u hu
    split at h
    · rename_i payload w hw
      obtain ⟨hu, -, -⟩ := nextByte_ok hu
      obtain ⟨hw, hl⟩ := readBytes_ok hw
      split at h
      · rename_i i' rest hd
        simp only [Xfer.ok.injEq] at h
        refine ⟨h.1 ▸ decode_chunkCount hd, 1 + ((classify b0).length - 1), by omega, ?_, ?_⟩
        · cases classify b0 <;> decide
        · rw [← h.2, hw, hu, consumed_consumed]
      · simp at h
    · simp at h
  · simp at h

/-- A fetch that fails enters TruncatedStream or IOError after fewer than 5 bytes (R307). -/
theorem fetch_raised {s t : State} (h : fetch s = .raised t) :
    ∃ k e, k ≤ 4 ∧ (e = .truncatedStream ∨ e = .ioError) ∧ t = raise e (consumed k s) := by
  simp only [fetch, Xfer.andThen] at h
  split at h
  · rename_i b0 u hu
    split at h
    · rename_i payload w hw
      obtain ⟨hw, hl⟩ := readBytes_ok hw
      obtain ⟨i, hi, -⟩ := decode_of_payload b0 payload hl
      rw [hi] at h
      simp at h
    · rename_i w hw
      obtain ⟨hu, -, -⟩ := nextByte_ok hu
      obtain ⟨j, hj, hor⟩ := readBytes_raised hw
      simp only [Xfer.raised.injEq] at h
      have hk : (classify b0).length ≤ 5 := by cases classify b0 <;> decide
      rw [hu, consumed_consumed] at hor
      rcases hor with hor | hor
      · exact ⟨1 + j, .truncatedStream, by omega, .inl rfl, by rw [← h, hor]⟩
      · exact ⟨1 + j, .ioError, by omega, .inr rfl, by rw [← h, hor]⟩
  · rename_i u hu
    simp only [Xfer.raised.injEq] at h
    rcases nextByte_raised hu with ⟨hu, -⟩ | ⟨hu, -⟩
    · exact ⟨0, .truncatedStream, by omega, .inl rfl, by rw [← h, hu, consumed_zero]⟩
    · exact ⟨0, .ioError, by omega, .inr rfl, by rw [← h, hu, consumed_zero]⟩

/-- Bytes that the input holds and that decode to a chunk with nothing left over are fetched as that chunk. -/
theorem fetch_of_holds {s : State} {bs : List Byte} {i : Instr} (h : InputHolds s bs)
    (hd : decode bs = .ok (i, [])) (hl : ∀ b0 tl, bs = b0 :: tl → tl.length = (classify b0).length - 1) :
    fetch s = .ok i (consumed bs.length s) := by
  cases bs with
  | nil => simp [decode] at hd
  | cons b0 tl =>
    have hr := readBytes_of_holds h
    simp only [List.length_cons, readBytes, Xfer.andThen] at hr
    split at hr
    · rename_i v u hu
      split at hr
      · rename_i vs w hw
        simp only [Xfer.ok.injEq, List.cons.injEq] at hr
        obtain ⟨⟨rfl, rfl⟩, rfl⟩ := hr
        simp only [fetch, Xfer.andThen, hu, ← hl v vs rfl, hw, hd, List.length_cons]
      · simp at hr
    · simp at hr

/-- A decode chunk step that ends in a next state either failed while fetching, or fetched a chunk and ran it. -/
theorem decChunkStep_next {s t : State} (h : decChunkStep s = .next t) :
    (∃ k e, k ≤ 4 ∧ (e = .truncatedStream ∨ e = .ioError) ∧ t = raise e (consumed k s))
      ∨ ∃ k i, 1 ≤ k ∧ k ≤ 5 ∧ (1 ≤ chunkCount i ∧ chunkCount i ≤ 62) ∧ exec i (consumed k s) = .next t := by
  simp only [decChunkStep] at h
  cases hf : fetch s with
  | ok i u =>
    rw [hf, Xfer.finish_ok] at h
    obtain ⟨hn, k, h1, h5, rfl⟩ := fetch_ok hf
    exact .inr ⟨k, i, h1, h5, hn, h⟩
  | raised u =>
    rw [hf, Xfer.finish_raised, Host.Outcome.next.injEq] at h
    rw [← h]
    exact .inl (fetch_raised hf)

/-! The header (R231, R237). -/

/-- R67: a 32-bit integer read back from its big-endian bytes. -/
theorem be32_be32Bytes (w : Word) : be32 (be32Bytes w) = w := by
  apply BitVec.eq_of_toNat_eq
  have := w.isLt
  simp only [be32, be32Bytes, List.foldl_cons, List.foldl_nil, BitVec.extractLsb'_toNat, BitVec.toNat_ofNat,
    Nat.shiftRight_eq_div_pow]
  omega

/-- A header that the input holds is read. -/
theorem readHeader_of_holds {s : State} {w h : Word} {ch cs : Byte} (hi : InputHolds s (headerBytes s.magic w h ch cs)) :
    readHeader s = .ok () (withHeader w h ch cs (consumed 14 s)) := by
  have e : headerBytes s.magic w h ch cs = s.magic.toBytes ++ (be32Bytes w ++ be32Bytes h ++ [ch, cs]) := by
    simp [headerBytes]
  rw [e] at hi
  obtain ⟨h1, h2⟩ := InputHolds.split hi
  have r1 := readBytes_of_holds h1
  have r2 := readBytes_of_holds h2
  rw [show s.magic.toBytes.length = 4 from rfl] at r1 r2
  rw [show (be32Bytes w ++ be32Bytes h ++ [ch, cs]).length = 10 from rfl] at r2
  simp only [readHeader, r1, Xfer.andThen, r2, consumed_consumed]
  rw [if_neg (by simp [consumed])]
  have t1 : (be32Bytes w ++ be32Bytes h ++ [ch, cs]).take 4 = be32Bytes w := rfl
  have t2 : ((be32Bytes w ++ be32Bytes h ++ [ch, cs]).drop 4).take 4 = be32Bytes h := rfl
  rw [t1, t2, be32_be32Bytes, be32_be32Bytes]
  rfl

/-- A stream that ends inside the header, with the magic right as far as it goes, raises TruncatedStream (R232). -/
theorem readHeader_of_ends {s : State} {m : List Byte} (hm : m.length < 4 ∨ (m.length < 14 ∧ m.take 4 = s.magic.toBytes))
    (h : InputEnds s m) : readHeader s = .raised (raise .truncatedStream (consumed m.length s)) := by
  by_cases h4 : m.length < 4
  · simp only [readHeader, readBytes_of_ends h h4, Xfer.andThen]
  · obtain ⟨hl, ht⟩ : m.length < 14 ∧ m.take 4 = s.magic.toBytes := by tauto
    have e : m = s.magic.toBytes ++ m.drop 4 := by rw [← ht, List.take_append_drop]
    rw [e] at h
    obtain ⟨h1, h2⟩ := InputEnds.split h
    have r1 := readBytes_of_holds h1
    rw [show s.magic.toBytes.length = 4 from rfl] at r1 h2
    have r2 := readBytes_of_ends h2 (k := 10) (by simp; omega)
    simp only [readHeader, r1, Xfer.andThen, r2, consumed_consumed]
    rw [if_neg (by simp [consumed])]
    simp only [List.length_drop]
    rw [show 4 + (m.length - 4) = m.length by omega]

/-- A port that fails inside the header raises IOError (R233). -/
theorem readHeader_of_fails {s : State} {m : List Byte} (hm : m.length < 4 ∨ (m.length < 14 ∧ m.take 4 = s.magic.toBytes))
    (h : InputFails s m) : readHeader s = .raised (raise .ioError (consumed m.length s)) := by
  by_cases h4 : m.length < 4
  · simp only [readHeader, readBytes_of_fails h h4, Xfer.andThen]
  · obtain ⟨hl, ht⟩ : m.length < 14 ∧ m.take 4 = s.magic.toBytes := by tauto
    have e : m = s.magic.toBytes ++ m.drop 4 := by rw [← ht, List.take_append_drop]
    rw [e] at h
    obtain ⟨h1, h2⟩ := InputFails.split h
    have r1 := readBytes_of_holds h1
    rw [show s.magic.toBytes.length = 4 from rfl] at r1 h2
    have r2 := readBytes_of_fails h2 (k := 10) (by simp; omega)
    simp only [readHeader, r1, Xfer.andThen, r2, consumed_consumed]
    rw [if_neg (by simp [consumed])]
    simp only [List.length_drop]
    rw [show 4 + (m.length - 4) = m.length by omega]

theorem readHeader_ok {s t : State} (h : readHeader s = .ok () t) :
    ∃ w h ch cs, t = withHeader w h ch cs (consumed 14 s) := by
  simp only [readHeader, Xfer.andThen] at h
  split at h
  · rename_i m u hu
    obtain ⟨rfl, -⟩ := readBytes_ok hu
    split at h
    · simp at h
    · split at h
      · rename_i x v hv
        obtain ⟨rfl, -⟩ := readBytes_ok hv
        simp only [Xfer.ok.injEq, true_and] at h
        rw [consumed_consumed] at h
        exact ⟨_, _, _, _, h.symm⟩
      · simp at h
  · simp at h

theorem readHeader_raised {s t : State} (h : readHeader s = .raised t) :
    ∃ k e, k ≤ 14 ∧ (e = .truncatedStream ∨ e = .ioError ∨ e = .malformedMagic) ∧ t = raise e (consumed k s) := by
  simp only [readHeader, Xfer.andThen] at h
  split at h
  · rename_i m u hu
    obtain ⟨rfl, -⟩ := readBytes_ok hu
    split at h
    · simp only [Xfer.raised.injEq] at h
      exact ⟨4, .malformedMagic, by omega, .inr (.inr rfl), h.symm⟩
    · split at h
      · simp at h
      · rename_i v hv
        simp only [Xfer.raised.injEq] at h
        obtain ⟨j, hj, hor⟩ := readBytes_raised hv
        rw [consumed_consumed] at hor
        rcases hor with hor | hor
        · exact ⟨4 + j, .truncatedStream, by omega, .inl rfl, by rw [← h, hor]⟩
        · exact ⟨4 + j, .ioError, by omega, .inr (.inl rfl), by rw [← h, hor]⟩
  · rename_i u hu
    simp only [Xfer.raised.injEq] at h
    obtain ⟨j, hj, hor⟩ := readBytes_raised hu
    rcases hor with hor | hor
    · exact ⟨j, .truncatedStream, by omega, .inl rfl, by rw [← h, hor]⟩
    · exact ⟨j, .ioError, by omega, .inr (.inl rfl), by rw [← h, hor]⟩

/-- R27: the product of two 32-bit dimensions fits 64 bits. -/
theorem pixelCount_toNat (w h : Word) : (pixelCount w h).toNat = w.toNat * h.toNat := by
  have hw := w.isLt
  have hh := h.isLt
  have hm : w.toNat * h.toNat < 2 ^ 64 := by nlinarith
  simp only [pixelCount, BitVec.toNat_mul, BitVec.toNat_setWidth]
  rw [Nat.mod_eq_of_lt (by omega : w.toNat < 2 ^ 64), Nat.mod_eq_of_lt (by omega : h.toNat < 2 ^ 64),
    Nat.mod_eq_of_lt hm]

theorem decHeaderStep_of_fits {s t : State} (h : readHeader s = .ok () t)
    (hf : t.width.toNat * t.height.toNat ≤ t.rcap.toNat) :
    decHeaderStep s = .next ((t.setN (pixelCount t.width t.height)).setPhase .decBody) := by
  simp only [decHeaderStep, h, Xfer.finish_ok]
  refine if_neg ?_
  show ¬ t.rcap.toNat < (pixelCount t.width t.height).toNat
  rw [pixelCount_toNat]
  omega

theorem decHeaderStep_of_overflow {s t : State} (h : readHeader s = .ok () t)
    (hf : t.rcap.toNat < t.width.toNat * t.height.toNat) :
    decHeaderStep s = .next (raise .dimensionOverflow (t.setN (pixelCount t.width t.height))) := by
  simp only [decHeaderStep, h, Xfer.finish_ok]
  refine if_pos ?_
  show t.rcap.toNat < (pixelCount t.width t.height).toNat
  rw [pixelCount_toNat]
  exact hf

/-- The decode header step always ends in a next state: an error entered, a raster too small, or DEC_BODY. -/
theorem decHeaderStep_cases (s : State) :
    ∃ t, decHeaderStep s = .next t ∧
      ((∃ k e, k ≤ 14 ∧ (e = .truncatedStream ∨ e = .ioError ∨ e = .malformedMagic) ∧ t = raise e (consumed k s))
        ∨ ∃ w h ch cs,
          (s.rcap.toNat < w.toNat * h.toNat
            ∧ t = raise .dimensionOverflow ((withHeader w h ch cs (consumed 14 s)).setN (pixelCount w h)))
          ∨ (w.toNat * h.toNat ≤ s.rcap.toNat
            ∧ t = ((withHeader w h ch cs (consumed 14 s)).setN (pixelCount w h)).setPhase .decBody)) := by
  cases hr : readHeader s with
  | raised u => exact ⟨u, by simp [decHeaderStep, hr], .inl (readHeader_raised hr)⟩
  | ok a u =>
    obtain ⟨w, h, ch, cs, rfl⟩ := readHeader_ok hr
    by_cases hlt : s.rcap.toNat < w.toNat * h.toNat
    · exact ⟨_, decHeaderStep_of_overflow hr hlt, .inr ⟨w, h, ch, cs, .inl ⟨hlt, rfl⟩⟩⟩
    · exact ⟨_, decHeaderStep_of_fits hr (by simpa using hlt), .inr ⟨w, h, ch, cs, .inr ⟨by omega, rfl⟩⟩⟩

theorem peekStep_cases (s : State) :
    ∃ t, peekStep s = .next t ∧
      ((∃ k e, k ≤ 14 ∧ (e = .truncatedStream ∨ e = .ioError ∨ e = .malformedMagic) ∧ t = raise e (consumed k s))
        ∨ ∃ w h ch cs, t = (withHeader w h ch cs (consumed 14 s)).setPhase .done) := by
  simp only [peekStep]
  cases hr : readHeader s with
  | raised u => exact ⟨u, rfl, .inl (readHeader_raised hr)⟩
  | ok a u =>
    obtain ⟨w, h, ch, cs, rfl⟩ := readHeader_ok hr
    exact ⟨_, rfl, .inr ⟨w, h, ch, cs, rfl⟩⟩

/-! The trailers (R206, R236). -/

theorem decTrailerStep_cases (s : State) :
    ∃ t, decTrailerStep s = .next t ∧
      ((∃ k e, k ≤ 8 ∧ (e = .truncatedStream ∨ e = .ioError ∨ e = .badTrailer) ∧ t = raise e (consumed k s))
        ∨ t = (consumed 8 s).setPhase .done) := by
  simp only [decTrailerStep, trailerLen]
  cases hr : readBytes 8 s with
  | raised u =>
    obtain ⟨j, hj, hor⟩ := readBytes_raised hr
    rcases hor with hor | hor
    · exact ⟨u, rfl, .inl ⟨j, _, by omega, .inl rfl, hor⟩⟩
    · exact ⟨u, rfl, .inl ⟨j, _, by omega, .inr (.inl rfl), hor⟩⟩
  | ok m u =>
    obtain ⟨rfl, -⟩ := readBytes_ok hr
    rw [Xfer.finish_ok]
    split
    · exact ⟨_, rfl, .inl ⟨8, _, by omega, .inr (.inr rfl), rfl⟩⟩
    · exact ⟨_, rfl, .inr rfl⟩

theorem encTrailerStep_cases (s : State) :
    ∃ t, encTrailerStep s = .next t ∧
      ((∃ pre, pre <+: trailerBytes ∧ t = raise .ioError (emitted pre s))
        ∨ t = (emitted trailerBytes s).setPhase .done) := by
  simp only [encTrailerStep]
  cases hr : emit trailerBytes s with
  | raised u =>
    obtain ⟨pre, hp, -, hu⟩ := emit_raised hr
    exact ⟨u, rfl, .inl ⟨pre, hp, hu⟩⟩
  | ok a u =>
    rw [emit_ok hr]
    exact ⟨_, rfl, .inr rfl⟩

/-! The encoder (R201, R202, R203). -/

theorem encHeaderStep_cases (s : State) :
    ∃ t, encHeaderStep s = .next t ∧
      ((s.rcap.toNat < s.width.toNat * s.height.toNat
          ∧ t = raise .dimensionOverflow (s.setN (pixelCount s.width s.height)))
        ∨ (s.width.toNat * s.height.toNat ≤ s.rcap.toNat
          ∧ ((∃ pre, pre <+: headerBytes s.magic s.width s.height s.channels 0
              ∧ t = raise .ioError (emitted pre (s.setN (pixelCount s.width s.height))))
            ∨ t = (emitted (headerBytes s.magic s.width s.height s.channels 0)
                (s.setN (pixelCount s.width s.height))).setPhase .encBody))) := by
  simp only [encHeaderStep, State.setN_rcap, State.setN_n, State.setN_magic, State.setN_width, State.setN_height,
    State.setN_channels, pixelCount_toNat]
  split
  · rename_i hlt
    exact ⟨_, rfl, .inl ⟨hlt, rfl⟩⟩
  · rename_i hlt
    cases hr : emit (headerBytes s.magic s.width s.height s.channels 0)
        (s.setN (pixelCount s.width s.height)) with
    | raised u =>
      obtain ⟨pre, hp, -, hu⟩ := emit_raised hr
      exact ⟨u, rfl, .inr ⟨by omega, .inl ⟨pre, hp, hu⟩⟩⟩
    | ok a u =>
      rw [emit_ok hr]
      exact ⟨_, rfl, .inr ⟨by omega, .inr rfl⟩⟩

/-- The run measurement, from a run of `n` so far. -/
theorem runLengthFrom_spec (s : State) (hr : s.n.toNat ≤ s.rcap.toNat) (n fuel : Nat)
    (h1 : 1 ≤ n) (hn : n + fuel = 62) (hin : s.cur.toNat + n ≤ s.n.toNat)
    (heq : ∀ k, k < n → readPixel s.raster (s.cur.toNat + k) = s.prev) :
    ∃ m, runLengthFrom s n fuel = .ok m ∧ IsRunLength s m := by
  induction fuel generalizing n with
  | zero => exact ⟨n, rfl, ⟨h1, by omega, hin, heq, .inl (by omega)⟩⟩
  | succ fuel ih =>
    simp only [runLengthFrom]
    split
    · rename_i hlt
      simp only [rasterRead, if_pos (show s.cur.toNat + n < s.rcap.toNat by omega)]
      split
      · rename_i hq
        refine ih (n + 1) (by omega) (by omega) (by omega) fun k hk => ?_
        rcases Nat.lt_or_eq_of_le (Nat.le_of_lt_succ hk) with hk | rfl
        · exact heq k hk
        · exact hq
      · rename_i hq
        exact ⟨n, rfl, ⟨h1, by omega, hin, heq, .inr (.inr hq)⟩⟩
    · exact ⟨n, rfl, ⟨h1, by omega, hin, heq, .inr (.inl (by omega))⟩⟩

/-- What an encode chunk step of a pass that fits its raster emits: one chunk for the pixel at the cursor, a RUN of the
measured length when that pixel is PREV. -/
theorem encChunkStep_eq (s : State) (hc : s.cur.toNat < s.n.toNat) (hr : s.n.toNat ≤ s.rcap.toNat) :
    (readPixel s.raster s.cur.toNat = s.prev
        ∧ ∃ n, runLength s = .ok n ∧ IsRunLength s n ∧ encChunkStep s = emitChunk (.run n) n s.prev s)
      ∨ (readPixel s.raster s.cur.toNat ≠ s.prev
        ∧ encChunkStep s = emitChunk (selectChunk (readPixel s.raster s.cur.toNat) s) 1
            (readPixel s.raster s.cur.toNat) s) := by
  simp only [encChunkStep, rasterRead, if_pos (show s.cur.toNat < s.rcap.toNat by omega)]
  by_cases hp : readPixel s.raster s.cur.toNat = s.prev
  · left
    obtain ⟨m, hm, hrl⟩ := runLengthFrom_spec s hr 1 61 (by omega) (by omega) (by omega) fun k hk => by
      rw [show k = 0 by omega]; exact hp
    refine ⟨hp, m, hm, hrl, ?_⟩
    rw [if_pos hp]
    simp only [runLength, runMax, hm]
  · exact .inr ⟨hp, by rw [if_neg hp]⟩

/-- Emitting a chunk ends in the error, with a part of its bytes written, or in the completed step. -/
theorem emitChunk_cases (i : Instr) (n : Nat) (px : Pixel) (s : State) :
    ∃ t, emitChunk i n px s = .next t ∧
      ((∃ pre, pre <+: encode i ∧ t = raise .ioError (emitted pre s))
        ∨ t = complete px ((emitted (encode i) s).setCur (BitVec.ofNat 64 (s.cur.toNat + n)))) := by
  simp only [emitChunk]
  cases hr : emit (encode i) s with
  | raised u =>
    obtain ⟨pre, hp, -, hu⟩ := emit_raised hr
    exact ⟨u, rfl, .inl ⟨pre, hp, hu⟩⟩
  | ok a u =>
    rw [emit_ok hr]
    exact ⟨_, rfl, .inr rfl⟩

/-- An encode chunk step that ends in a next state: an error with a part of the bytes written, or a completed chunk of 1
to 62 pixels. -/
theorem encChunkStep_cases (s : State) (hc : s.cur.toNat < s.n.toNat) (hr : s.n.toNat ≤ s.rcap.toNat) :
    ∃ i n t, encChunkStep s = .next t ∧ 1 ≤ n ∧ n ≤ 62 ∧ s.cur.toNat + n ≤ s.n.toNat
      ∧ ((∃ pre, pre <+: encode i ∧ t = raise .ioError (emitted pre s))
        ∨ t = complete (readPixel s.raster s.cur.toNat)
            ((emitted (encode i) s).setCur (BitVec.ofNat 64 (s.cur.toNat + n)))) := by
  rcases encChunkStep_eq s hc hr with ⟨hp, n, -, hrl, he⟩ | ⟨-, he⟩
  · obtain ⟨t, ht, hor⟩ := emitChunk_cases (.run n) n s.prev s
    refine ⟨.run n, n, t, by rw [he, ht], hrl.atLeastOne, hrl.atMost, hrl.inRaster, ?_⟩
    rw [hp]
    exact hor
  · obtain ⟨t, ht, hor⟩ := emitChunk_cases (selectChunk (readPixel s.raster s.cur.toNat) s) 1
      (readPixel s.raster s.cur.toNat) s
    exact ⟨_, 1, t, by rw [he, ht], by omega, by omega, by omega, hor⟩

/-! One engine step, whichever (R29, R271). -/

/-- An encode chunk step that ends in a next state, whatever the raster's size: an error with a part of the bytes written,
or the pixel at the cursor completed. -/
theorem encChunkStep_next {s t : State} (h : encChunkStep s = .next t) :
    ∃ i n, (∃ pre, pre <+: encode i ∧ t = raise .ioError (emitted pre s))
      ∨ t = complete (readPixel s.raster s.cur.toNat)
          ((emitted (encode i) s).setCur (BitVec.ofNat 64 (s.cur.toNat + n))) := by
  simp only [encChunkStep] at h
  split at h
  · cases h
  · rename_i px hpx
    have hp : px = readPixel s.raster s.cur.toNat := by
      simp only [rasterRead] at hpx
      split at hpx
      · simpa using hpx.symm
      · cases hpx
    split at h
    · rename_i heq
      split at h
      · cases h
      · rename_i n _
        obtain ⟨u, hu, hor⟩ := emitChunk_cases (.run n) n s.prev s
        rw [hu, Host.Outcome.next.injEq] at h
        rw [← heq, hp, h] at hor
        exact ⟨_, _, hor⟩
    · obtain ⟨u, hu, hor⟩ := emitChunk_cases (selectChunk px s) 1 px s
      rw [hu, Host.Outcome.next.injEq] at h
      rw [h, hp] at hor
      exact ⟨_, _, hor⟩

/-- Everything an engine step that ends in a next state can do, by the phase it starts in. -/
inductive EngineMove (s : State) : State → Prop where
  | rest (hb : busy s = false) : EngineMove s s
  | encOverflow (hp : s.phase = .encHdr) (hn : s.rcap.toNat < s.width.toNat * s.height.toNat) :
      EngineMove s (raise .dimensionOverflow (s.setN (pixelCount s.width s.height)))
  | encHeaderCut (pre : List Byte) (hp : s.phase = .encHdr) :
      EngineMove s (raise .ioError (emitted pre (s.setN (pixelCount s.width s.height))))
  | encHeader (hp : s.phase = .encHdr) (hn : s.width.toNat * s.height.toNat ≤ s.rcap.toNat) :
      EngineMove s ((emitted (headerBytes s.magic s.width s.height s.channels 0)
        (s.setN (pixelCount s.width s.height))).setPhase .encBody)
  | encChunkCut (pre : List Byte) (hp : s.phase = .encBody) (hc : s.cur.toNat < s.n.toNat) :
      EngineMove s (raise .ioError (emitted pre s))
  | encChunk (i : Instr) (n : Nat) (hp : s.phase = .encBody) (hc : s.cur.toNat < s.n.toNat)
      (he : encChunkStep s = .next (complete (readPixel s.raster s.cur.toNat)
        ((emitted (encode i) s).setCur (BitVec.ofNat 64 (s.cur.toNat + n))))) :
      EngineMove s (complete (readPixel s.raster s.cur.toNat)
        ((emitted (encode i) s).setCur (BitVec.ofNat 64 (s.cur.toNat + n))))
  | encEnd (hp : s.phase = .encBody) (hc : s.n.toNat ≤ s.cur.toNat) : EngineMove s (s.setPhase .encTrl)
  | encTrailerCut (pre : List Byte) (hp : s.phase = .encTrl) : EngineMove s (raise .ioError (emitted pre s))
  | encTrailer (hp : s.phase = .encTrl) : EngineMove s ((emitted trailerBytes s).setPhase .done)
  | readCut (e : PassError) (k : Nat) (hp : s.phase.encoding = false) (hb : busy s = true) (hk : k ≤ 14)
      (hc : s.phase = .decBody → s.cur.toNat < s.n.toNat)
      (he : inChunkStep s = true → e = .truncatedStream ∨ e = .ioError) : EngineMove s (raise e (consumed k s))
  | decOverflow (w h : Word) (ch cs : Byte) (hp : s.phase = .decHdr) :
      EngineMove s (raise .dimensionOverflow ((withHeader w h ch cs (consumed 14 s)).setN (pixelCount w h)))
  | decHeader (w h : Word) (ch cs : Byte) (hp : s.phase = .decHdr) (hn : w.toNat * h.toNat ≤ s.rcap.toNat) :
      EngineMove s (((withHeader w h ch cs (consumed 14 s)).setN (pixelCount w h)).setPhase .decBody)
  | decChunk (i : Instr) (k : Nat) (t : State) (hp : s.phase = .decBody) (hc : s.cur.toNat < s.n.toNat)
      (hk : 1 ≤ k ∧ k ≤ 5) (hn : 1 ≤ chunkCount i ∧ chunkCount i ≤ 62)
      (hx : exec i (consumed k s) = .next t) : EngineMove s t
  | decEnd (hp : s.phase = .decBody) (hc : s.n.toNat ≤ s.cur.toNat) : EngineMove s (s.setPhase .decTrl)
  | decTrailer (hp : s.phase = .decTrl) : EngineMove s ((consumed 8 s).setPhase .done)
  | peek (w h : Word) (ch cs : Byte) (hp : s.phase = .peekHdr) :
      EngineMove s ((withHeader w h ch cs (consumed 14 s)).setPhase .done)

theorem engineStep_move {s t : State} (h : engineStep s = .next t) : EngineMove s t := by
  cases hp : s.phase <;> simp only [engineStep, hp] at h
  case idle => cases h; exact .rest (by simp [busy, hp, Phase.busy])
  case done => cases h; exact .rest (by simp [busy, hp, Phase.busy])
  case error => cases h; exact .rest (by simp [busy, hp, Phase.busy])
  case encHdr =>
    obtain ⟨u, hu, hor⟩ := encHeaderStep_cases s
    rw [hu, Host.Outcome.next.injEq] at h; subst h
    rcases hor with ⟨hn, rfl⟩ | ⟨hn, ⟨pre, -, rfl⟩ | rfl⟩
    · exact .encOverflow hp hn
    · exact .encHeaderCut pre hp
    · exact .encHeader hp hn
  case encBody =>
    unfold encBodyStep at h
    split at h
    · rename_i hc
      obtain ⟨i, n, ⟨pre, -, rfl⟩ | rfl⟩ := encChunkStep_next h
      · exact .encChunkCut pre hp hc
      · exact .encChunk i n hp hc h
    · rename_i hc
      cases h; exact .encEnd hp (by omega)
  case encTrl =>
    obtain ⟨u, hu, hor⟩ := encTrailerStep_cases s
    rw [hu, Host.Outcome.next.injEq] at h; subst h
    rcases hor with ⟨pre, -, rfl⟩ | rfl
    · exact .encTrailerCut pre hp
    · exact .encTrailer hp
  case decHdr =>
    obtain ⟨u, hu, hor⟩ := decHeaderStep_cases s
    rw [hu, Host.Outcome.next.injEq] at h; subst h
    rcases hor with ⟨k, e, hk, -, rfl⟩ | ⟨w, hh, ch, cs, ⟨-, rfl⟩ | ⟨hn, rfl⟩⟩
    · exact .readCut e k (by simp [hp, Phase.encoding]) (by simp [busy, hp, Phase.busy]) hk (by simp [hp])
        (by simp [inChunkStep, hp])
    · exact .decOverflow w hh ch cs hp
    · exact .decHeader w hh ch cs hp hn
  case decBody =>
    unfold decBodyStep at h
    split at h
    · rename_i hc
      rcases decChunkStep_next h with ⟨k, e, hk, he, rfl⟩ | ⟨k, i, h1, h5, hn, hx⟩
      · exact .readCut e k (by simp [hp, Phase.encoding]) (by simp [busy, hp, Phase.busy]) (by omega) (fun _ => hc) fun _ => he
      · exact .decChunk i k t hp hc ⟨h1, h5⟩ hn hx
    · rename_i hc
      cases h; exact .decEnd hp (by omega)
  case decTrl =>
    obtain ⟨u, hu, hor⟩ := decTrailerStep_cases s
    rw [hu, Host.Outcome.next.injEq] at h; subst h
    rcases hor with ⟨k, e, hk, -, rfl⟩ | rfl
    · exact .readCut e k (by simp [hp, Phase.encoding]) (by simp [busy, hp, Phase.busy]) (by omega) (by simp [hp])
        (by simp [inChunkStep, hp])
    · exact .decTrailer hp
  case peekHdr =>
    obtain ⟨u, hu, hor⟩ := peekStep_cases s
    rw [hu, Host.Outcome.next.injEq] at h; subst h
    rcases hor with ⟨k, e, hk, -, rfl⟩ | ⟨w, hh, ch, cs, rfl⟩
    · exact .readCut e k (by simp [hp, Phase.encoding]) (by simp [busy, hp, Phase.busy]) hk (by simp [hp])
        (by simp [inChunkStep, hp])
    · exact .peek w hh ch cs hp

end Sys2Proof.Machine
end

