-- ==== Sys2Proof/Laws/Hosts.lean ====
section
/-! SUPPORT. What a command, a register write and any other move of the host can do. -/

namespace Sys2Proof.Machine

open Sys2Proof

theorem regAt_unmapped {off : Nat} (h : 0x34 ≤ off) : regAt off = none := by
  have e (k : Nat) (hk : k < 0x34) : (off == k) = false := by simp; omega
  simp [regAt, regTable, List.lookup, e]

/-- A command starts one of the three passes, clears, or does nothing; none while BUSY. -/
theorem command_cases (c : BitVec 3) (s : State) :
    command c s = s ∨ (busy s = false
      ∧ ((c = 1 ∧ command c s = startEncode s) ∨ (c = 2 ∧ command c s = startDecode s)
        ∨ (c = 3 ∧ command c s = startPeek s) ∨ (c = 4 ∧ command c s = clear s))) := by
  cases hb : busy s
  · by_cases h1 : c = 1
    · subst h1; exact .inr ⟨rfl, .inl ⟨rfl, by simp [command, hb]⟩⟩
    · by_cases h2 : c = 2
      · subst h2; exact .inr ⟨rfl, .inr (.inl ⟨rfl, by simp [command, hb]⟩)⟩
      · by_cases h3 : c = 3
        · subst h3; exact .inr ⟨rfl, .inr (.inr (.inl ⟨rfl, by simp [command, hb]⟩))⟩
        · by_cases h4 : c = 4
          · subst h4; exact .inr ⟨rfl, .inr (.inr (.inr ⟨rfl, by simp [command, hb]⟩))⟩
          · left
            simp only [command, hb]
            rw [if_neg (by decide), if_neg h1, if_neg h2, if_neg h3, if_neg h4]
  · exact .inl (by simp [command, hb])

/-- A register write does nothing, sets a configuration register while not BUSY, or is a CTRL write. -/
theorem regWrite_cases (off : Nat) (v : Word) (s : State) :
    regWrite off v s = s
      ∨ (busy s = false
        ∧ (regWrite off v s = s.setWidth v ∨ regWrite off v s = s.setHeight v
          ∨ (∃ c, regWrite off v s = s.setChannels c) ∨ ∃ r, regWrite off v s = s.setRcap r))
      ∨ (off = 0 ∧ regWrite off v s = command (v.extractLsb' 0 3) (s.setIrqEn (v.getLsbD 8))) := by
  by_cases h : 0x34 ≤ off
  · left
    simp [regWrite, regAt_unmapped h]
  · have h : off < 0x34 := by omega
    cases hb : busy s <;> interval_cases off <;> simp [regWrite, regAt, regTable, List.lookup, writeReg, hb]

theorem regAccess_next {off size : Nat} {t u : State} (h : regAccess off size t = .next u) : u = t := by
  simp only [regAccess] at h
  split at h
  · cases h
  · split at h
    · cases h
    · cases h; rfl

theorem inDecodeRaster_iff (i : Count) (s : State) :
    inDecodeRaster i s = true ↔
      s.phase = .decHdr ∨ ((s.phase = .decBody ∨ s.phase = .decTrl) ∧ i.toNat < s.n.toNat) := by
  cases hp : s.phase <;> simp [inDecodeRaster, hp]

theorem inEncodeRaster_iff (i : Count) (s : State) :
    inEncodeRaster i s = true ↔ s.phase.encoding = true ∧ i.toNat < s.width.toNat * s.height.toNat := by
  simp [inEncodeRaster]

/-- R76: a pixel of a busy decode pass from CUR on. -/
theorem unfinishedPixel_iff (i : Count) (s : State) :
    unfinishedPixel i s = true ↔
      (s.phase = .decHdr ∨ ((s.phase = .decBody ∨ s.phase = .decTrl) ∧ i.toNat < s.n.toNat))
        ∧ s.cur.toNat ≤ i.toNat := by
  simp [unfinishedPixel, inDecodeRaster_iff]

/-- Everything a move of the host or of the stream environment that ends in a next state can do. -/
inductive HostMove (s : State) : State → Prop where
  | ignored : HostMove s s
  | width (v : Word) (hb : busy s = false) : HostMove s (s.setWidth v)
  | height (v : Word) (hb : busy s = false) : HostMove s (s.setHeight v)
  | channels (v : Byte) (hb : busy s = false) : HostMove s (s.setChannels v)
  | rcap (v : Count) (hb : busy s = false) : HostMove s (s.setRcap v)
  | irqEn (b : Bool) : HostMove s (s.setIrqEn b)
  | encode (b : Bool) (hb : busy s = false) : HostMove s (startEncode (s.setIrqEn b))
  | decode (b : Bool) (hb : busy s = false) : HostMove s (startDecode (s.setIrqEn b))
  | peek (b : Bool) (hb : busy s = false) : HostMove s (startPeek (s.setIrqEn b))
  | clear (b : Bool) (hb : busy s = false) : HostMove s (clear (s.setIrqEn b))
  | read (d : Option HostData) : HostMove s (s.setLastRead d)
  | racedRead (d : Option HostData) (k : Nat) : HostMove s ((s.setLastRead d).setRaced k)
  | reset : HostMove s (hardReset s)
  | bindInput (bs : List Byte) (e : Option Nat) (h : busy s = true → s.phase.encoding = true) :
      HostMove s (s.setInput bs e)
  | drawOutErr (e : Option Nat) (h : s.phase.encoding = false) : HostMove s (s.setOutErr e)
  | rasterWrite (i : Count) (px : Pixel) (he : inEncodeRaster i s = false) (hd : inDecodeRaster i s = false) :
      HostMove s (s.setRaster (writePixel s.raster i.toNat px))

theorem regWrite_move (off : Nat) (v : Word) (s : State) : HostMove s (regWrite off v s) := by
  rcases regWrite_cases off v s with e | ⟨hb, e | e | ⟨_, e⟩ | ⟨_, e⟩⟩ | ⟨-, e⟩ <;> rw [e]
  · exact .ignored
  · exact .width v hb
  · exact .height v hb
  · exact .channels _ hb
  · exact .rcap _ hb
  · rcases command_cases (v.extractLsb' 0 3) (s.setIrqEn (v.getLsbD 8)) with e | ⟨hb, ⟨-, e⟩ | ⟨-, e⟩ | ⟨-, e⟩ | ⟨-, e⟩⟩ <;> rw [e]
    · exact .irqEn _
    · exact .encode _ hb
    · exact .decode _ hb
    · exact .peek _ hb
    · exact .clear _ hb

theorem eventStep_move {e : Event} {s t : State} (h : eventStep e s = .next t) :
    (e = .engine ∧ EngineMove s t) ∨ (e ≠ .engine ∧ HostMove s t) := by
  cases e with
  | engine => exact .inl ⟨rfl, engineStep_move h⟩
  | regWrite off size v => rw [regAccess_next h]; exact .inr ⟨by simp, regWrite_move off v s⟩
  | regRead off size => rw [regAccess_next h]; exact .inr ⟨by simp, .read _⟩
  | reset => cases h; exact .inr ⟨by simp, .reset⟩
  | bindInput bs e =>
    simp only [eventStep, hostBindInput] at h
    split at h
    · cases h
    · rename_i hn
      cases h; exact .inr ⟨by simp, .bindInput bs e (by simpa using hn)⟩
  | drawOutErr e =>
    simp only [eventStep, Machine.drawOutErr] at h
    split at h
    · cases h
    · rename_i hn
      cases h; exact .inr ⟨by simp, .drawOutErr e (by simpa using hn)⟩
  | rasterWrite i px =>
    simp only [eventStep, hostRasterWrite] at h
    split at h
    · cases h
    · split at h
      · cases h
      · rename_i h1 h2
        cases h; exact .inr ⟨by simp, .rasterWrite i px (by simpa using h1) (by simpa using h2)⟩
  | rasterRead i =>
    simp only [eventStep, hostRasterRead] at h
    split at h <;> cases h
    · exact .inr ⟨by simp, .racedRead _ _⟩
    · exact .inr ⟨by simp, .read _⟩
  | outputRead k =>
    simp only [eventStep, hostOutputRead] at h
    split at h
    · cases h; exact .inr ⟨by simp, .read _⟩
    · split at h <;> cases h
      · exact .inr ⟨by simp, .racedRead _ _⟩
      · exact .inr ⟨by simp, .read _⟩

/-- Every step: the engine's, alone or as the next event, or a move of the host, on the state with that event taken. -/
theorem step_move {s t : State} (h : step s = .next t) :
    ∃ es, (s.events = [] → es = []) ∧ (EngineMove (s.setEvents es) t ∨ HostMove (s.setEvents es) t) := by
  rcases hev : s.events with _ | ⟨e, es⟩
  · rw [step_alone hev] at h
    refine ⟨[], fun _ => rfl, .inl ?_⟩
    rw [show s.setEvents [] = s by rw [← hev]; rfl]
    exact engineStep_move h
  · rw [step_event hev] at h
    refine ⟨es, by simp, ?_⟩
    rcases eventStep_move h with ⟨-, h⟩ | ⟨-, h⟩
    · exact .inl h
    · exact .inr h

/-- R31: the fields of a word laid out as STATUS is. -/
theorem statusWord_fields (irq : BitVec 1) (ph er : BitVec 4) (pv e d b : BitVec 1) :
    let v := 0#7 ++ irq ++ 0#4 ++ ph ++ 0#4 ++ er ++ 0#4 ++ pv ++ e ++ d ++ b
    v.extractLsb' 0 3 = e ++ d ++ b ∧ v.extractLsb' 4 4 = 0 ∧ v.extractLsb' 8 4 = er ∧ v.extractLsb' 12 4 = 0
      ∧ v.extractLsb' 16 4 = ph ∧ v.extractLsb' 20 4 = 0 ∧ v.extractLsb' 25 7 = 0 ∧ v.getLsbD 0 = b.getLsbD 0
      ∧ v.getLsbD 1 = d.getLsbD 0 ∧ v.getLsbD 2 = e.getLsbD 0 ∧ v.getLsbD 3 = pv.getLsbD 0
      ∧ v.getLsbD 24 = irq.getLsbD 0 := by
  intro v
  refine ⟨?_, ?_, ?_, ?_, ?_, ?_, ?_, ?_, ?_, ?_, ?_, ?_⟩
  all_goals first
    | (simp only [v, BitVec.getLsbD_append]; rfl)
    | (apply BitVec.eq_of_getLsbD_eq; intro i hi
       interval_cases i <;> simp only [v, BitVec.getLsbD_extractLsb', BitVec.getLsbD_append] <;> rfl)

/-- R306, R27: both coordinates of a pixel of a raster fit 32 bits. -/
theorem coordinates_fit {c n w h : Nat} (hc : c < n) (hn : n = w * h) (hw : w < 2 ^ 32) (hh : h < 2 ^ 32) :
    c % w < 2 ^ 32 ∧ c / w < 2 ^ 32 := by
  have hpos : 0 < w := by
    rcases Nat.eq_zero_or_pos w with h0 | h0
    · subst h0; omega
    · exact h0
  refine ⟨lt_trans (Nat.mod_lt _ hpos) hw, ?_⟩
  rw [Nat.div_lt_iff_lt_mul hpos]
  nlinarith

end Sys2Proof.Machine
end

