-- ==== Sys2Proof/Laws/Invariant.lean ====
section
/-! SUPPORT. The invariant through error entry and through updates it does not speak of, and the completion of every engine
step in a state that meets it. -/

namespace Sys2Proof.Machine

open Sys2Proof

/-- R138 at a pass start. -/
theorem cacheInv_zero {s : State} (h : s.cache = Vector.replicate cacheSlots Pixel.zero) : CacheInv s := by
  intro k; left; simp [h]

theorem cacheInv_of_eq {s t : State} (h : CacheInv s) (he : t.cache = s.cache) : CacheInv t := by
  intro k; rw [he]; exact h k

/-- R306: error entry meets the invariant whatever the pass state was. -/
theorem raise_inv (e : PassError) (s : State) (hw : Memory.wf s.raster) (hc : CacheInv s)
    (he : inChunkStep s = true → e = .truncatedStream ∨ e = .ioError) : Inv (raise e s) := by
  constructor
  · simpa using hw
  · intro k; simpa using hc k
  · simp
  · intro h; exact raise_noPosition e s (by simpa using h)
  · intro h; rcases he (by simpa using h) with rfl | rfl <;> simp
  all_goals simp [Phase.header, Phase.sized, Phase.encoding]

/-- An update of what the invariant does not speak of keeps it; while no pass is busy it speaks of few fields. -/
theorem inv_of_eq {s t : State} (hi : Inv s) (h1 : t.raster = s.raster) (h2 : t.cache = s.cache)
    (h3 : t.errCode = s.errCode) (h4 : t.phase = s.phase) (h5 : t.posValid = s.posValid) (h6 : t.errX = s.errX)
    (h7 : t.errY = s.errY)
    (h8 : busy s = true → t.cur = s.cur ∧ t.bytes = s.bytes ∧ t.n = s.n ∧ t.prev = s.prev ∧ t.width = s.width
      ∧ t.height = s.height ∧ t.rcap = s.rcap ∧ t.output = s.output) : Inv t := by
  obtain ⟨a1, a2, a3, a4, a5, a6, a7, a8, a9⟩ := hi
  cases hb : busy s
  · cases hp : s.phase <;> simp [busy, hp, Phase.busy] at hb <;>
    refine ⟨by rw [h1]; exact a1, cacheInv_of_eq a2 h2, by rw [h3, h4]; exact a3, by rw [h5, h6, h7]; exact a4,
      by rw [h5, h3]; exact a5, ?_, ?_, ?_, ?_⟩ <;>
    simp [h4, hp, Phase.header, Phase.sized, Phase.encoding]
  · obtain ⟨b1, b2, b3, b4, b5, b6, b7, b8⟩ := h8 hb
    exact ⟨by rw [h1]; exact a1, cacheInv_of_eq a2 h2, by rw [h3, h4]; exact a3, by rw [h5, h6, h7]; exact a4,
      by rw [h5, h3]; exact a5, by rw [h4, b1, b2, b3, b4, h2]; exact a6, by rw [h4, b1, b3, b5, b6, b7]; exact a7,
      by rw [h4, b1, b3]; exact a8, by rw [h4, b2, b8]; exact a9⟩

theorem setEvents_inv {s : State} (hi : Inv s) (es : List Event) : Inv (s.setEvents es) :=
  inv_of_eq hi rfl rfl rfl rfl rfl rfl rfl (fun _ => ⟨rfl, rfl, rfl, rfl, rfl, rfl, rfl, rfl⟩)

/-- R350: from a state that meets the invariant the engine's step always ends in a next state. -/
theorem engine_completes {s : State} (hi : Inv s) : ∃ t, engineStep s = .next t := by
  cases hp : s.phase <;> simp only [engineStep, hp]
  case idle => exact ⟨_, rfl⟩
  case done => exact ⟨_, rfl⟩
  case error => exact ⟨_, rfl⟩
  case encHdr => obtain ⟨t, h, -⟩ := encHeaderStep_cases s; exact ⟨t, h⟩
  case encTrl => obtain ⟨t, h, -⟩ := encTrailerStep_cases s; exact ⟨t, h⟩
  case decHdr => obtain ⟨t, h, -⟩ := decHeaderStep_cases s; exact ⟨t, h⟩
  case decTrl => obtain ⟨t, h, -⟩ := decTrailerStep_cases s; exact ⟨t, h⟩
  case peekHdr => obtain ⟨t, h, -⟩ := peekStep_cases s; exact ⟨t, h⟩
  case encBody =>
    have hs := hi.sized (by simp [hp, Phase.sized])
    unfold encBodyStep
    split
    · rename_i hc
      obtain ⟨_, _, t, h, -⟩ := encChunkStep_cases s hc hs.2.1
      exact ⟨t, h⟩
    · exact ⟨_, rfl⟩
  case decBody =>
    have hs := hi.sized (by simp [hp, Phase.sized])
    unfold decBodyStep decChunkStep
    split
    · cases hf : fetch s with
      | raised u => exact ⟨u, rfl⟩
      | ok i u =>
        obtain ⟨-, k, -, -, rfl⟩ := fetch_ok hf
        rw [Xfer.finish_ok, exec_eq]
        exact ⟨_, writeChunk_of_fits _ _ _ (fits_of_capacity _ _ hs.2.1)⟩
    · exact ⟨_, rfl⟩

end Sys2Proof.Machine
end

