-- ==== Sys2Proof/Laws/PerInstr.lean ====
section
/-! SUPPORT. What holds of every chunk as syntax, per constructor: the first byte of its encoding says its type, and with
the type its length (30_encoding.md R97, R98). -/

namespace Sys2Proof.Laws.FirstByte

open Sys2Proof

/-- The encoding of a well-formed chunk starts with a byte of its type and has the length of its type. -/
def Statement (i : Instr) : Prop :=
  i.wf = true → ∃ b0 payload, encode i = b0 :: payload ∧ classify b0 = i.kind ∧ payload.length + 1 = i.kind.length

theorem run (n : Nat) : Statement (.run n) := by
  intro h
  simp only [Instr.wf, Bool.and_eq_true, decide_eq_true_eq] at h
  refine ⟨_, [], rfl, classify_run _ ?_, rfl⟩
  simp only [runMax] at h
  simp only [BitVec.toNat_ofNat]
  omega

theorem index (i : Fin cacheSlots) : Statement (.index i) := fun _ => ⟨_, [], rfl, classify_index _, rfl⟩

theorem diff (dr dg db : Int) : Statement (.diff dr dg db) := fun _ => ⟨_, [], rfl, classify_diff _ _ _, rfl⟩

theorem luma (dg drg dbg : Int) : Statement (.luma dg drg dbg) := fun _ => ⟨_, [_], rfl, classify_luma _, rfl⟩

theorem rgb (r g b : Byte) : Statement (.rgb r g b) := fun _ => ⟨_, [r, g, b], rfl, classify_rgb, rfl⟩

theorem rgba (r g b a : Byte) : Statement (.rgba r g b a) := fun _ => ⟨_, [r, g, b, a], rfl, classify_rgba, rfl⟩

end Sys2Proof.Laws.FirstByte
end

