-- ==== Sys2Proof/Tests/Slice0.lean ====
section
/-! SUPPORT. Tests: what WellFormed refuses, chunks decoded from words written out from 30_encoding.md, single steps with
the results of 95_test_vectors.md, and for every statement with hypotheses a state and operands that meet them. -/

namespace Sys2Proof.Tests

open Sys2Proof Sys2Proof.Machine

/-! WellFormed refuses an operand outside its range, on each side (30_encoding.md R106, R108), and takes the bounds. -/

theorem test_wf_refuses_run : (Instr.run 0).wf = false ∧ (Instr.run 63).wf = false := by decide

theorem test_wf_refuses_diff_low :
    (Instr.diff (-3) 0 0).wf = false ∧ (Instr.diff 0 (-3) 0).wf = false ∧ (Instr.diff 0 0 (-3)).wf = false := by decide

theorem test_wf_refuses_diff_high :
    (Instr.diff 2 0 0).wf = false ∧ (Instr.diff 0 2 0).wf = false ∧ (Instr.diff 0 0 2).wf = false := by decide

theorem test_wf_refuses_luma_low :
    (Instr.luma (-33) 0 0).wf = false ∧ (Instr.luma 0 (-9) 0).wf = false ∧ (Instr.luma 0 0 (-9)).wf = false := by decide

theorem test_wf_refuses_luma_high :
    (Instr.luma 32 0 0).wf = false ∧ (Instr.luma 0 8 0).wf = false ∧ (Instr.luma 0 0 8).wf = false := by decide

/-! Decoding, from words written out bit by bit (R100 to R105). -/

/-- R100: `11 nnnnnn` with nnnnnn = n - 1. -/
theorem test_decode_run : decode [0b11000010] = .ok (.run 3, []) ∧ decode [0b11111101] = .ok (.run 62, []) := ⟨rfl, rfl⟩

/-- R101: `00 iiiiii`. -/
theorem test_decode_index : decode [0b00001100] = .ok (.index 12, []) ∧ decode [0b00111111] = .ok (.index 63, []) :=
  ⟨rfl, rfl⟩

/-- R102: `01 rr gg bb`, each with bias 2. -/
theorem test_decode_diff :
    decode [0b01110110] = .ok (.diff 1 (-1) 0, []) ∧ decode [0b01000111] = .ok (.diff (-2) (-1) 1, []) := ⟨rfl, rfl⟩

/-- R103: `10 gggggg`, bias 32, then `rrrr bbbb`, bias 8. -/
theorem test_decode_luma :
    decode [0b10100101, 0b01101011] = .ok (.luma 5 (-2) 3, [])
      ∧ decode [0b10000000, 0b00001111] = .ok (.luma (-32) (-8) 7, []) := ⟨rfl, rfl⟩

/-- R104: `11111110` then R, G, B. -/
theorem test_decode_rgb : decode [0b11111110, 100, 22, 33, 7] = .ok (.rgb 100 22 33, [7]) := rfl

/-- R105: `11111111` then R, G, B, A. -/
theorem test_decode_rgba : decode [0b11111111, 10, 20, 30, 40] = .ok (.rgba 10 20 30 40, []) := rfl

/-- The words of spec/opcode_table.json's numbering: the second byte stands in bits 15..8. -/
theorem test_decodeTableWord :
    decodeTableWord 8 0xC2 = some (.run 3) ∧ decodeTableWord 16 0x6BA5 = some (.luma 5 (-2) 3)
      ∧ decodeTableWord 32 0x211664FE = some (.rgb 100 22 33)
      ∧ decodeTableWord 40 0x281E140AFF = some (.rgba 10 20 30 40) := ⟨rfl, rfl, rfl, rfl⟩

/-! States. -/

/-- A decode pass in its chunk loop, over a 4 x 2 raster. -/
def dec (prev : Pixel) (cur : Count) (bs : List Byte) : State :=
  { State.reset with phase := .decBody, prev := prev, cur := cur, n := 8, width := 4, height := 2, rcap := 8, input := bs }

/-- An encode pass in its chunk loop, over a raster of the given width and one row, from its first pixel. -/
def enc (prev : Pixel) (pxs : List Pixel) : State :=
  { State.reset with
    phase := .encBody, prev := prev, n := BitVec.ofNat 64 pxs.length, width := BitVec.ofNat 32 pxs.length, height := 1,
    rcap := BitVec.ofNat 64 pxs.length
    raster := (pxs.zipIdx).foldl (fun m x => writePixel m x.2 x.1) [] }

/-- A pass at its header step or a state at rest, with the given input. -/
def at' (p : Phase) (bs : List Byte) : State := { State.reset with phase := p, input := bs, rcap := 8 }

/-- What the step or the chunk leaves, if it ends in a next state. -/
def after (o : Host.Outcome State Fault Refusal) : Option State :=
  match o with
  | .next s => some s
  | .fault _ => none
  | .refused _ => none

def hdr (w h : Word) : List Byte := headerBytes magicDefault w h 4 0

/-! Single steps (95_test_vectors.md section 3). -/

/-- V-DRUN-1: PREV (10,20,30,40), CUR 5, N 8, C2: three pixels, slot 12. -/
theorem test_run_repeats :
    (after (step (dec ⟨10, 20, 30, 40⟩ 5 [0xC2]))).map
        (fun t => (t.cur, t.bytes, readPixel t.raster 5, readPixel t.raster 7, t.cache[12], readPixel t.raster 4))
      = some (8, 1, ⟨10, 20, 30, 40⟩, ⟨10, 20, 30, 40⟩, ⟨10, 20, 30, 40⟩, ⟨0, 0, 0, 0⟩) := by decide

/-- V-DRUN-2, R239: a RUN of 5 with 2 pixels left writes 2 and goes on. -/
theorem test_run_clips :
    (after (step (dec prevInit 6 [0xC4]))).map (fun t => (t.cur, t.phase, t.prev, t.cache[53]))
      = some (8, .decBody, ⟨0, 0, 0, 255⟩, ⟨0, 0, 0, 255⟩) := by decide

/-- V-DIDX-1: an INDEX of a slot never written gives the zero pixel. -/
theorem test_index_unwritten :
    (after (step (dec prevInit 0 [0x05]))).map (fun t => (t.cur, t.prev, t.cache[0])) = some (1, ⟨0, 0, 0, 0⟩, ⟨0, 0, 0, 0⟩) := by
  decide

/-- V-DIDX-2: an INDEX of a slot that holds a pixel. -/
theorem test_index_hit :
    (after (exec (.index 12) (cacheInsert ⟨10, 20, 30, 40⟩ (dec prevInit 0 [])))).map
        (fun t => (t.prev, readPixel t.raster 0)) = some (⟨10, 20, 30, 40⟩, ⟨10, 20, 30, 40⟩) := by decide

/-- V-DDIF-1 and V-DDIF-4: each channel has its own delta. -/
theorem test_diff_lanes :
    (after (step (dec ⟨10, 20, 30, 40⟩ 0 [0x76]))).map (fun t => (t.prev, t.cache[10]))
      = some (⟨11, 19, 30, 40⟩, ⟨11, 19, 30, 40⟩) := by decide

theorem test_diff_wraps :
    (after (step (dec ⟨255, 0, 128, 255⟩ 0 [0x75]))).map (fun t => t.prev) = some ⟨0, 255, 127, 255⟩ := by decide

/-- V-DLUM-1 and V-DLUM-2. -/
theorem test_luma_lanes :
    (after (step (dec ⟨101, 21, 33, 40⟩ 0 [0xA5, 0x6B]))).map (fun t => (t.prev, t.bytes))
      = some (⟨104, 26, 41, 40⟩, 2) := by decide

theorem test_luma_wraps :
    (after (step (dec prevInit 0 [0x80, 0x00]))).map (fun t => t.prev) = some ⟨216, 224, 216, 255⟩ := by decide

/-- V-DRGB-1: alpha from PREV. -/
theorem test_rgb_keeps_alpha :
    (after (step (dec ⟨10, 20, 30, 40⟩ 0 [0xFE, 0x64, 0x16, 0x21]))).map (fun t => (t.prev, t.bytes, t.cache[57]))
      = some (⟨100, 22, 33, 40⟩, 4, ⟨100, 22, 33, 40⟩) := by decide

/-- V-DRGBA-1. -/
theorem test_rgba_raw :
    (after (step (dec prevInit 0 [0xFF, 0x0A, 0x14, 0x1E, 0x28]))).map (fun t => (t.prev, t.bytes, t.cache[12]))
      = some (⟨10, 20, 30, 40⟩, 5, ⟨10, 20, 30, 40⟩) := by decide

/-- S10: an RGBA tag followed by 2 of 4 payload bytes; R306's STATUS layout (PHASE 9, ERR_CODE 2, POS_VALID, ERR). -/
theorem test_rgba_truncated :
    (after (step (dec prevInit 5 [0xFF, 0x0A, 0x14]))).map
        (fun t => (regRead 0x04 t, t.errX, t.errY, t.bytes, t.cur, t.prev))
      = some (0x0009020C, 1, 1, 3, 5, prevInit) := by decide

/-- V-ENC-12: the second pixel is DIFF +1,+1,+1; the third, with slot 53 as the RUN left it, is INDEX 53. -/
theorem test_encode_diff :
    (after (step (enc prevInit [⟨1, 1, 1, 255⟩]))).map (fun t => (t.output, t.cur)) = some ([0x7F], 1) := by decide

theorem test_encode_index_before_diff :
    (after (step (cacheInsert prevInit (enc ⟨1, 1, 1, 255⟩ [prevInit])))).map (fun t => t.output) = some [0x35] := by decide

/-- V-LUMA-18 and V-DIFF-4. -/
theorem test_encode_luma :
    (after (step (enc ⟨250, 5, 128, 255⟩ [⟨0, 7, 130, 255⟩]))).map (fun t => t.output) = some [0xA2, 0xC8] := by decide

theorem test_encode_luma_past_diff :
    (after (step (enc ⟨10, 10, 10, 255⟩ [⟨7, 10, 10, 255⟩]))).map (fun t => t.output) = some [0xA0, 0x58] := by decide

/-- V-LUMA-4: dG one past the range. -/
theorem test_encode_rgb :
    (after (step (enc ⟨10, 10, 10, 255⟩ [⟨42, 42, 42, 255⟩]))).map (fun t => t.output) = some [0xFE, 0x2A, 0x2A, 0x2A] := by
  decide

/-- V-RGBA-1: an alpha change forces RGBA. -/
theorem test_encode_rgba :
    (after (step (enc ⟨10, 10, 10, 255⟩ [⟨10, 10, 10, 254⟩]))).map (fun t => t.output)
      = some [0xFF, 0x0A, 0x0A, 0x0A, 0xFE] := by decide

/-- R162's example: four pixels equal to PREV left. -/
theorem test_encode_run :
    (after (step (enc prevInit [prevInit, prevInit, prevInit, prevInit]))).map (fun t => (t.output, t.cur, t.cache[53]))
      = some ([0xC3], 4, prevInit) := by decide

/-- R201's example: the header of a 1 x 1 image. -/
theorem test_encode_header :
    (after (step { at' .encHdr [] with width := 1, height := 1 })).map (fun t => (t.output, t.phase, t.n))
      = some ([0x71, 0x6F, 0x69, 0x66, 0, 0, 0, 1, 0, 0, 0, 1, 4, 0], .encBody, 1) := by decide

/-- R231's example: a 4 x 2 header, with RCAP 8. -/
theorem test_decode_header :
    (after (step (at' .decHdr [0x71, 0x6F, 0x69, 0x66, 0, 0, 0, 4, 0, 0, 0, 2, 4, 0]))).map
        (fun t => (t.width, t.height, t.channels, t.colorspace, t.n, t.phase)) = some (4, 2, 4, 0, 8, .decBody) := by decide

/-- R301's example: "qoix". -/
theorem test_malformed_magic :
    (after (step (at' .decHdr [0x71, 0x6F, 0x69, 0x78]))).map (fun t => (t.errCode, t.bytes, t.posValid))
      = some (some .malformedMagic, 4, false) := by decide

/-- R236's example: a wrong last byte. -/
theorem test_bad_trailer :
    (after (step (at' .decTrl [0, 0, 0, 0, 0, 0, 0, 2]))).map (fun t => (t.errCode, t.bytes))
      = some (some .badTrailer, 8) := by decide

/-- R263, R310: CTRL = 0x101 starts an encode pass with the interrupt enabled. -/
theorem test_ctrl_encode :
    (regWrite 0x00 0x101 (at' .idle [])).phase = .encHdr ∧ (regWrite 0x00 0x101 (at' .idle [])).irqEn = true
      ∧ regRead 0x00 (regWrite 0x00 0x101 (at' .idle [])) = 0x100 := by decide

/-! Where a step stops: the host moves of log entries 5, 6 and 7. -/

theorem test_refused_access :
    step { State.reset with events := [.regRead 0x02 4] } = .refused .registerAccess
      ∧ step { State.reset with events := [.regWrite 0x04 2 0] } = .refused .registerAccess
      ∧ step { State.reset with events := [.regRead 0x100 4] } = .refused .outsideWindow := ⟨rfl, rfl, rfl⟩

theorem test_raster_race :
    step { dec prevInit 0 [] with events := [.rasterWrite 7 prevInit] } = .fault .decodeRasterRace := rfl

/-- 93_implementation_defined.md section 2: a finished pixel of a busy decode pass, and a byte a busy encode pass has
written, read their final value. -/
theorem test_host_reads_finished :
    (after (step { dec prevInit 7 [] with raster := writePixel [] 6 ⟨1, 2, 3, 4⟩, events := [.rasterRead 6] })).map
        (fun t => (t.lastRead, t.raced)) = some (some (.pixel ⟨1, 2, 3, 4⟩), 0)
      ∧ (after (step { at' .encBody [] with output := [0x71], events := [.outputRead 0] })).map (fun t => t.lastRead)
        = some (some (.byte 0x71)) := by decide

/-- The very next step of `withFetchWord` runs the word's chunk (log entry 11). -/
theorem test_withFetchWord :
    (after (step (State.reset.withFetchWord 32 0x211664FE))).map (fun t => (t.prev, t.bytes))
      = some (⟨100, 22, 33, 255⟩, 4) := by decide

/-! A state and operands that meet the hypotheses of each statement, all of them together, at the bounds of each clause. -/

theorem inputHolds (s : State) (bs rest : List Byte) (hi : s.input = bs ++ rest) (hb : s.bytes = 0) (he : s.inErr = none)
    (hl : bs.length < 2 ^ 64) : InputHolds s bs :=
  ⟨⟨rest, by simp [hi, hb]⟩, by simp [he], by simpa [hb] using hl⟩

theorem inputEnds (s : State) (hb : s.bytes = 0) (he : s.inErr = none) (hl : s.input.length < 2 ^ 64) :
    InputEnds s s.input :=
  ⟨by simp [hb], by simp [he], by simpa [hb] using hl⟩

theorem inputFails (s : State) (pre rest : List Byte) (hi : s.input = pre ++ rest) (hb : s.bytes = 0)
    (he : s.inErr = some pre.length) (hl : pre.length < 2 ^ 64) : InputFails s pre :=
  ⟨⟨rest, by simp [hi, hb]⟩, by simp [he, hb], by simpa [hb] using hl⟩

theorem outputAccepts (s : State) (k : Nat) (hb : s.bytes = 0) (he : s.outErr = none) (hk : k < 2 ^ 64) :
    OutputAccepts s k :=
  ⟨by simp [he], by simpa [hb] using hk⟩

theorem outputFails (s : State) (k : Nat) (hb : s.bytes = 0) (he : s.outErr = some k) (hk : k < 2 ^ 64) : OutputFails s k :=
  ⟨by simp [he, hb], by simpa [hb] using hk⟩

theorem decodeDue (px : Pixel) (bs : List Byte) : DecodeDue (dec px 7 bs) := ⟨rfl, rfl, by simp [dec], by simp [dec]⟩

theorem encodeDue (prev px : Pixel) : EncodeDue (enc prev [px]) := ⟨rfl, rfl, by simp [enc, State.reset], by simp [enc]⟩

/-- The invariant of a state with the reset CACHE and no error. -/
theorem inv_plain (s : State) (hr : Memory.wf s.raster) (hc : s.cache = Vector.replicate cacheSlots Pixel.zero)
    (he : s.errCode = none) (hp : s.phase ≠ .error) (hv : s.posValid = false) (hx : s.errX = 0) (hy : s.errY = 0)
    (h1 : s.phase.header = true → s.cur = 0 ∧ s.bytes = 0 ∧ s.n = 0 ∧ s.prev = prevInit)
    (h2 : s.phase.sized = true → s.n.toNat = s.width.toNat * s.height.toNat ∧ s.n.toNat ≤ s.rcap.toNat
      ∧ s.cur.toNat ≤ s.n.toNat)
    (h3 : s.phase = .encTrl ∨ s.phase = .decTrl → s.cur = s.n)
    (h4 : s.phase.encoding = true → s.bytes = BitVec.ofNat 64 s.output.length) : Inv s :=
  ⟨hr, cacheInv_zero hc, by simp [he, hp], fun _ => ⟨hx, hy⟩, by simp [hv],
    fun h => ⟨(h1 h).1, (h1 h).2.1, (h1 h).2.2.1, (h1 h).2.2.2, hc⟩, h2, h3, h4⟩

/-! Encoding. -/

theorem witness_DecodeOfEncode :
    (Instr.run 1).wf = true ∧ (Instr.run 62).wf = true ∧ (Instr.index 63).wf = true ∧ (Instr.diff (-2) 1 (-2)).wf = true
      ∧ (Instr.luma (-32) 7 (-8)).wf = true ∧ (Instr.luma 31 (-8) 7).wf = true ∧ (Instr.rgb 0 255 0).wf = true
      ∧ (Instr.rgba 255 0 0 255).wf = true := by decide

theorem witness_EncodeOfDecode : decode [0xFD, 0x01] = .ok (.run 62, [0x01]) := rfl

/-- The last first byte of a LUMA, the first of a RUN, and the two full-byte tags, each with just enough and with one byte
too few. -/
theorem witness_LengthFixedByFirstByte :
    (2 ≤ [(0 : Byte)].length + 1 ∧ ([] : List Byte).length + 1 < 2) ∧ 1 ≤ ([] : List Byte).length + 1
      ∧ (4 ≤ [(0 : Byte), 0, 0].length + 1 ∧ [(0 : Byte), 0].length + 1 < 4)
      ∧ (5 ≤ [(0 : Byte), 0, 0, 0].length + 1 ∧ [(0 : Byte), 0, 0].length + 1 < 5) := by decide

/-! Units. -/

theorem witness_AdderInvertsDelta : (⟨255, 255, 255, 255⟩ : Pixel).a = prevInit.a := rfl

theorem witness_RangePredicates :
    diffOk ⟨8, 11, 8, 255⟩ ⟨10, 10, 10, 255⟩ = true
      ∧ diffOk ⟨8, 11, 8, 255⟩ (enc ⟨10, 10, 10, 255⟩ []).prev = true := by decide

theorem witness_CollisionIsMiss :
    hash6 ⟨0, 0, 0, 255⟩ = hash6 ⟨64, 0, 0, 255⟩ ∧ (⟨0, 0, 0, 255⟩ : Pixel) ≠ ⟨64, 0, 0, 255⟩ := by decide

theorem witness_InsertThenLookup : (52 : Fin cacheSlots) ≠ hash6 ⟨0, 0, 0, 255⟩ := by decide

/-! Chunks.  The state has one pixel left; a RUN of 62 is then clipped to it. -/

theorem witness_chunk_state (bs : List Byte) :
    Memory.wf (dec prevInit 7 bs).raster ∧ (dec prevInit 7 bs).cur.toNat < (dec prevInit 7 bs).n.toNat
      ∧ (dec prevInit 7 bs).n.toNat ≤ (dec prevInit 7 bs).rcap.toNat ∧ DecodeDue (dec prevInit 7 bs) :=
  ⟨by simp [dec, State.reset, Memory.wf], by simp [dec], by simp [dec], decodeDue _ _⟩

theorem witness_RunRepeatsPrev :
    InputHolds (dec prevInit 7 [0xC0]) [BitVec.ofNat 8 (0xC0 + (1 - 1))]
      ∧ InputHolds (dec prevInit 7 [0xFD]) [BitVec.ofNat 8 (0xC0 + (62 - 1))] :=
  ⟨inputHolds _ _ [] rfl rfl rfl (by decide), inputHolds _ _ [] rfl rfl rfl (by decide)⟩

theorem witness_IndexProducesSlot :
    InputHolds (dec prevInit 7 [0x00]) [BitVec.ofNat 8 (0 : Fin cacheSlots).val]
      ∧ InputHolds (dec prevInit 7 [0x3F]) [BitVec.ofNat 8 (63 : Fin cacheSlots).val] :=
  ⟨inputHolds _ _ [] rfl rfl rfl (by decide), inputHolds _ _ [] rfl rfl rfl (by decide)⟩

theorem witness_DiffAddsDeltas :
    InputHolds (dec prevInit 7 [0x40]) [BitVec.ofInt 8 (0x40 + (-2 + 2) * 16 + (-2 + 2) * 4 + (-2 + 2))]
      ∧ InputHolds (dec prevInit 7 [0x7F]) [BitVec.ofInt 8 (0x40 + (1 + 2) * 16 + (1 + 2) * 4 + (1 + 2))] :=
  ⟨inputHolds _ _ [] rfl rfl rfl (by decide), inputHolds _ _ [] rfl rfl rfl (by decide)⟩

theorem witness_LumaAddsRelativeDeltas :
    InputHolds (dec prevInit 7 [0x80, 0x0F]) [BitVec.ofInt 8 (0x80 + (-32 + 32)), BitVec.ofInt 8 ((-8 + 8) * 16 + (7 + 8))]
      ∧ InputHolds (dec prevInit 7 [0xBF, 0xF0])
        [BitVec.ofInt 8 (0x80 + (31 + 32)), BitVec.ofInt 8 ((7 + 8) * 16 + (-8 + 8))] :=
  ⟨inputHolds _ _ [] rfl rfl rfl (by decide), inputHolds _ _ [] rfl rfl rfl (by decide)⟩

/-- The stream ends, or the port fails, after the first byte of a LUMA. -/
theorem witness_LumaCutShort :
    InputEnds (dec prevInit 7 [0x80]) (([0x80, 0x0F] : List Byte).take 1)
      ∧ InputFails { dec prevInit 7 [0x80, 0x0F] with inErr := some 1 } (([0x80, 0x0F] : List Byte).take 1) :=
  ⟨inputEnds (dec prevInit 7 [0x80]) rfl rfl (by decide), inputFails _ _ [0x0F] rfl rfl rfl (by decide)⟩

theorem witness_RgbKeepsAlpha :
    InputHolds (dec prevInit 7 [0xFE, 255, 0, 128]) [0xFE, 255, 0, 128]
      ∧ InputEnds (dec prevInit 7 [0xFE, 255, 0]) (([0xFE, 255, 0, 128] : List Byte).take 3)
      ∧ InputFails { dec prevInit 7 [] with inErr := some 0 } (([0xFE, 255, 0, 128] : List Byte).take 0) :=
  ⟨inputHolds _ _ [] rfl rfl rfl (by decide), inputEnds (dec prevInit 7 [0xFE, 255, 0]) rfl rfl (by decide),
    inputFails _ _ [] rfl rfl rfl (by decide)⟩

theorem witness_RgbaIsRaw :
    InputHolds (dec prevInit 7 [0xFF, 10, 20, 30, 40]) [0xFF, 10, 20, 30, 40]
      ∧ InputEnds (dec prevInit 7 [0xFF, 10, 20, 30]) (([0xFF, 10, 20, 30, 40] : List Byte).take 4)
      ∧ InputFails { dec prevInit 7 [0xFF, 10] with inErr := some 1 } (([0xFF, 10, 20, 30, 40] : List Byte).take 1) :=
  ⟨inputHolds _ _ [] rfl rfl rfl (by decide), inputEnds (dec prevInit 7 [0xFF, 10, 20, 30]) rfl rfl (by decide),
    inputFails _ _ [10] rfl rfl rfl (by decide)⟩

theorem witness_ChunkFrame : ∃ t, exec (.run 62) (dec prevInit 7 []) = .next t := ⟨_, rfl⟩

/-- One pixel above RCAP, and exactly at it. -/
theorem witness_ChunkStopsOnlyAboveCapacity :
    (∃ s : State, s = { dec prevInit 7 [] with rcap := 7 }
        ∧ 0 < min (chunkCount (.rgb 1 2 3)) (s.n.toNat - s.cur.toNat)
        ∧ s.rcap.toNat < s.cur.toNat + min (chunkCount (.rgb 1 2 3)) (s.n.toNat - s.cur.toNat))
      ∧ ¬ (dec prevInit 7 []).rcap.toNat < (dec prevInit 7 []).cur.toNat
        + min (chunkCount (.rgb 1 2 3)) ((dec prevInit 7 []).n.toNat - (dec prevInit 7 []).cur.toNat) :=
  ⟨⟨_, rfl, by decide, by decide⟩, by decide⟩

theorem witness_EveryChunkCompletes :
    (∃ t, EncodeDue (enc prevInit [⟨1, 2, 3, 4⟩]) ∧ step (enc prevInit [⟨1, 2, 3, 4⟩]) = .next t ∧ t.phase ≠ .error)
      ∧ (∃ t, DecodeDue (dec prevInit 7 [0xFE]) ∧ step (dec prevInit 7 [0xFE]) = .next t ∧ t.phase = .error)
      ∧ ∃ t, EncodeDue { enc prevInit [⟨1, 2, 3, 4⟩] with outErr := some 4 }
        ∧ step { enc prevInit [⟨1, 2, 3, 4⟩] with outErr := some 4 } = .next t ∧ t.phase = .error :=
  ⟨⟨_, encodeDue _ _, rfl, by decide⟩, ⟨_, decodeDue _ _, rfl, rfl⟩, ⟨_, ⟨rfl, rfl, by decide, by decide⟩, rfl, rfl⟩⟩

/-! The decoder. -/

theorem witness_StepRunsDecodedChunk :
    decode ((dec prevInit 7 [0xBF, 0xFF, 0x00]).input.drop (dec prevInit 7 [0xBF, 0xFF, 0x00]).bytes.toNat)
        = .ok (.luma 31 7 7, [0x00])
      ∧ (∀ e, (dec prevInit 7 [0xBF, 0xFF, 0x00]).inErr = some e → 0 + (encode (.luma 31 7 7)).length ≤ e)
      ∧ { dec prevInit 7 [0xBF, 0xFF, 0x00] with events := [.engine, .reset] }.events = .engine :: [.reset] :=
  ⟨rfl, by simp [dec, State.reset], rfl⟩

theorem witness_CutChunkRaises :
    DecodeDue (dec prevInit 7 [0xFF, 10, 20, 30])
      ∧ (dec prevInit 7 []).n.toNat = (dec prevInit 7 []).width.toNat * (dec prevInit 7 []).height.toNat
      ∧ InputEnds (dec prevInit 7 [0xFF, 10, 20, 30]) ((encode (.rgba 10 20 30 40)).take 4)
      ∧ InputEnds (dec prevInit 7 []) ((encode (.run 1)).take 0)
      ∧ InputFails { dec prevInit 7 [0xFF, 10, 20, 30, 40] with inErr := some 2 } ((encode (.rgba 10 20 30 40)).take 2) :=
  ⟨decodeDue _ _, by decide, inputEnds (dec prevInit 7 [0xFF, 10, 20, 30]) rfl rfl (by decide),
    inputEnds (dec prevInit 7 []) rfl rfl (by decide), inputFails _ _ [20, 30, 40] rfl rfl rfl (by decide)⟩

/-- N = RCAP, N = RCAP + 1, and N = 0; any channels and colorspace byte. -/
theorem witness_DecodeHeaderStep :
    InputHolds (at' .decHdr (headerBytes magicDefault 4 2 0 255)) (headerBytes magicDefault 4 2 0 255)
      ∧ (4 : Word).toNat * (2 : Word).toNat ≤ (at' .decHdr []).rcap.toNat
      ∧ InputHolds (at' .decHdr (headerBytes magicDefault 3 3 3 1)) (headerBytes magicDefault 3 3 3 1)
      ∧ (at' .decHdr []).rcap.toNat < (3 : Word).toNat * (3 : Word).toNat :=
  ⟨inputHolds _ _ [] rfl rfl rfl (by decide), by decide, inputHolds _ _ [] rfl rfl rfl (by decide), by decide⟩

/-- A wrong magic of exactly 4 bytes; 3 bytes; 13 bytes; no byte; a port that fails at the first and at the last byte. -/
theorem witness_HeaderErrors :
    InputHolds (at' .decHdr [0x71, 0x6F, 0x69, 0x78]) [0x71, 0x6F, 0x69, 0x78]
      ∧ ([0x71, 0x6F, 0x69, 0x78] : List Byte) ≠ magicDefault.toBytes
      ∧ InputEnds (at' .peekHdr [0x61, 0x62, 0x63]) [0x61, 0x62, 0x63] ∧ InputEnds (at' .decHdr []) []
      ∧ InputEnds (at' .decHdr ((hdr 1 1).take 13)) ((hdr 1 1).take 13)
      ∧ (((hdr 1 1).take 13).length < 14 ∧ ((hdr 1 1).take 13).take 4 = magicDefault.toBytes)
      ∧ InputFails { at' .decHdr (hdr 1 1) with inErr := some 13 } ((hdr 1 1).take 13)
      ∧ InputFails { at' .peekHdr (hdr 1 1) with inErr := some 0 } [] :=
  ⟨inputHolds _ _ [] rfl rfl rfl (by decide), by decide, inputEnds (at' .peekHdr [0x61, 0x62, 0x63]) rfl rfl (by decide),
    inputEnds (at' .decHdr []) rfl rfl (by decide), inputEnds (at' .decHdr ((hdr 1 1).take 13)) rfl rfl (by decide),
    by decide, inputFails _ _ [0] rfl rfl rfl (by decide), inputFails _ _ (hdr 1 1) rfl rfl rfl (by decide)⟩

theorem witness_PeekStep : InputHolds (at' .peekHdr (hdr 640 480)) (headerBytes (at' .peekHdr []).magic 640 480 4 0) :=
  inputHolds _ _ [] rfl rfl rfl (by decide)

theorem witness_DecodeTrailerStep :
    InputHolds (at' .decTrl (trailerBytes ++ [0x78])) [0, 0, 0, 0, 0, 0, 0, 1]
      ∧ InputHolds (at' .decTrl [0, 0, 0, 0, 0, 0, 0, 2]) [0, 0, 0, 0, 0, 0, 0, 2]
      ∧ InputEnds (at' .decTrl [1, 0, 0, 0, 0, 0, 0]) [1, 0, 0, 0, 0, 0, 0]
      ∧ InputFails { at' .decTrl trailerBytes with inErr := some 7 } [0, 0, 0, 0, 0, 0, 0] :=
  ⟨inputHolds _ _ [0x78] rfl rfl rfl (by decide), inputHolds _ _ [] rfl rfl rfl (by decide),
    inputEnds (at' .decTrl [1, 0, 0, 0, 0, 0, 0]) rfl rfl (by decide), inputFails _ _ [1] rfl rfl rfl (by decide)⟩

theorem witness_EndTests :
    ((dec prevInit 8 []).events = [] ∧ (dec prevInit 8 []).cur = (dec prevInit 8 []).n
        ∧ (dec prevInit 8 []).phase = .decBody)
      ∧ ((enc prevInit []).events = [] ∧ (enc prevInit []).cur = (enc prevInit []).n
        ∧ (enc prevInit []).phase = .encBody) := by decide

/-! The encoder. -/

/-- N = RCAP with a port that accepts all, N = RCAP + 1, and a port that fails at byte 0 and at byte 13. -/
theorem witness_EncodeHeaderStep :
    (8 : Word).toNat * (1 : Word).toNat ≤ (at' .encHdr []).rcap.toNat
      ∧ OutputAccepts { at' .encHdr [] with width := 8, height := 1 } 14
      ∧ (at' .encHdr []).rcap.toNat < (9 : Word).toNat * (1 : Word).toNat
      ∧ OutputFails { at' .encHdr [] with width := 8, height := 1, outErr := some 0 } 0
      ∧ OutputFails { at' .encHdr [] with width := 8, height := 1, outErr := some 13 } 13 :=
  ⟨by decide, outputAccepts _ _ rfl rfl (by decide), by decide, outputFails _ _ rfl rfl (by decide),
    outputFails _ _ rfl rfl (by decide)⟩

/-- A RUN, and an RGBA whose port accepts all or fails at its last byte. -/
theorem witness_SelectorEmitsFirstApplicable :
    EncodeDue (enc prevInit [prevInit]) ∧ readPixel (enc prevInit [prevInit]).raster 0 = prevInit
      ∧ EncodeDue (enc prevInit [⟨1, 2, 3, 4⟩]) ∧ readPixel (enc prevInit [⟨1, 2, 3, 4⟩]).raster 0 ≠ prevInit
      ∧ OutputAccepts (enc prevInit [⟨1, 2, 3, 4⟩]) (selectedBytes (enc prevInit [⟨1, 2, 3, 4⟩]) ⟨1, 2, 3, 4⟩ 1).length
      ∧ 4 < (selectedBytes (enc prevInit [⟨1, 2, 3, 4⟩]) ⟨1, 2, 3, 4⟩ 1).length
      ∧ OutputFails { enc prevInit [⟨1, 2, 3, 4⟩] with outErr := some 4 } 4 :=
  ⟨encodeDue _ _, by decide, encodeDue _ _, by decide, outputAccepts _ _ rfl rfl (by decide), by decide,
    outputFails _ _ rfl rfl (by decide)⟩

theorem witness_RunLengthIsMaximal :
    (enc prevInit [prevInit]).cur.toNat < (enc prevInit [prevInit]).n.toNat
      ∧ (enc prevInit [prevInit]).n.toNat ≤ (enc prevInit [prevInit]).rcap.toNat
      ∧ readPixel (enc prevInit [prevInit]).raster (enc prevInit [prevInit]).cur.toNat = (enc prevInit [prevInit]).prev := by
  decide

theorem witness_EncoderEmitsEncodable : runLength (enc prevInit [prevInit, prevInit]) = .ok 2 := rfl

/-- A pixel of each chunk but RUN, and a RUN shorter than 62 with another pixel after it. -/
theorem witness_EncoderOutputIsCanonical :
    selectChunk ⟨0, 0, 0, 0⟩ (enc prevInit []) = .index 0
      ∧ selectChunk ⟨255, 255, 255, 255⟩ (enc prevInit []) = .diff (-1) (-1) (-1)
      ∧ selectChunk ⟨224, 224, 224, 255⟩ (enc prevInit []) = .luma (-32) 0 0
      ∧ selectChunk ⟨32, 32, 32, 255⟩ (enc prevInit []) = .rgb 32 32 32
      ∧ selectChunk ⟨0, 0, 0, 128⟩ (enc prevInit []) = .rgba 0 0 0 128
      ∧ EncodeDue (enc prevInit [prevInit, ⟨1, 1, 1, 1⟩])
      ∧ ∃ t, step (enc prevInit [prevInit, ⟨1, 1, 1, 1⟩]) = .next t ∧ t.phase ≠ .error ∧ t.cur.toNat < 62 ∧ t.cur.toNat < 2 :=
  ⟨by decide, by decide, by decide, by decide, by decide, ⟨rfl, rfl, by decide, by decide⟩,
    ⟨_, rfl, by decide, by decide, by decide⟩⟩

theorem witness_EncodeTrailerStep :
    OutputAccepts (at' .encTrl []) 8 ∧ OutputFails { at' .encTrl [] with outErr := some 0 } 0
      ∧ OutputFails { at' .encTrl [] with outErr := some 7 } 7 :=
  ⟨outputAccepts _ _ rfl rfl (by decide), outputFails _ _ rfl rfl (by decide), outputFails _ _ rfl rfl (by decide)⟩

/-- An encode pass of an empty image at its end marker. -/
def atTrailer : State := { State.reset with phase := .encTrl, bytes := 14, output := hdr 0 0 }

theorem atTrailer_inv : Inv atTrailer :=
  inv_plain _ (by decide) rfl rfl (by decide) rfl rfl rfl (by decide) (by decide) (by decide) (by decide)

theorem witness_OutputLengthBounds :
    Inv atTrailer ∧ OutputBounds atTrailer
      ∧ ∃ t, step atTrailer = .next t ∧ atTrailer.phase = .encTrl ∧ t.phase = .done :=
  ⟨atTrailer_inv, ⟨by decide, by decide⟩, ⟨_, rfl, rfl, rfl⟩⟩

/-! Errors. -/

theorem dec_inv (bs : List Byte) : Inv (dec prevInit 7 bs) :=
  inv_plain _ (by simp [dec, State.reset, Memory.wf]) rfl rfl (by simp [dec]) rfl rfl rfl (by simp [dec, Phase.header])
    (by simp [dec]) (by simp [dec]) (by simp [dec, Phase.encoding])

/-- In a chunk step, and in a trailer step. -/
theorem witness_ErrorEntry :
    (Inv (dec prevInit 7 []) ∧ busy (dec prevInit 7 []) = true ∧ inChunkStep (dec prevInit 7 []) = true)
      ∧ (Inv atTrailer ∧ busy atTrailer = true ∧ inChunkStep atTrailer = false) :=
  ⟨⟨dec_inv [], rfl, by decide⟩, ⟨atTrailer_inv, rfl, by decide⟩⟩

theorem witness_FailingStepKeepsState :
    (∃ t, step (dec prevInit 7 [0xFE, 1]) = .next t ∧ t.phase = .error ∧ busy (dec prevInit 7 [0xFE, 1]) = true)
      ∧ ∃ t, step { enc prevInit [⟨1, 2, 3, 4⟩] with outErr := some 4 } = .next t ∧ t.phase = .error :=
  ⟨⟨_, rfl, rfl, rfl⟩, ⟨_, rfl, rfl⟩⟩

/-- A pass that ends; a write of IRQ_EN alone, and one with a reserved code; the commands 1 and 4; a level that a CTRL write
lowers. -/
theorem witness_InterruptLevel :
    (∃ t, step (at' .peekHdr (hdr 1 1)) = .next t ∧ busy (at' .peekHdr (hdr 1 1)) = true ∧ busy t = false)
      ∧ ((0x100 : Word).extractLsb' 0 3).toNat = 0 ∧ 5 ≤ ((0x105 : Word).extractLsb' 0 3).toNat
      ∧ busy (at' .done []) = false
      ∧ ((0x101 : Word).extractLsb' 0 3).toNat = 1 ∧ ((0x104 : Word).extractLsb' 0 3).toNat = 4
      ∧ ∃ t, step { at' .done [] with irqEn := true, events := [.regWrite 0 4 0] } = .next t
        ∧ irq { at' .done [] with irqEn := true, events := [.regWrite 0 4 0] } = true ∧ irq t = false :=
  ⟨⟨_, rfl, rfl, rfl⟩, by decide, by decide, rfl, by decide, by decide, _, rfl, rfl, rfl⟩

/-! Registers, commands and reset. -/

theorem witness_StatusFields : { State.reset with events := [.regRead 0x04 4] }.events = .regRead 0x04 4 :: [] := rfl

theorem witness_ConfigurationWrites :
    busy State.reset = false ∧ busy (at' .encHdr []) = true ∧ (0x08 : Nat) ∈ [0x08, 0x0C, 0x10, 0x1C, 0x20]
      ∧ (0x20 : Nat) ∈ [0x08, 0x0C, 0x10, 0x1C, 0x20] := by decide

theorem witness_ReadOnlyAndUnmapped :
    (0x04 : Nat) ∈ [0x04, 0x14, 0x18, 0x24, 0x28, 0x2C, 0x30] ∧ (0x30 : Nat) ∈ [0x04, 0x14, 0x18, 0x24, 0x28, 0x2C, 0x30]
      ∧ (0x34 ≤ 0x34 ∧ 0x34 ≤ 0xFC ∧ 0x34 % 4 = 0) ∧ (0x34 ≤ 0xFC ∧ 0xFC ≤ 0xFC ∧ 0xFC % 4 = 0) := by decide

theorem witness_CommandAcceptance :
    busy (at' .decBody []) = true ∧ busy (at' .error []) = false ∧ ((1 : Word).extractLsb' 0 3).toNat = 1
      ∧ ((2 : Word).extractLsb' 0 3).toNat = 2 ∧ ((3 : Word).extractLsb' 0 3).toNat = 3
      ∧ ((4 : Word).extractLsb' 0 3).toNat = 4 ∧ ((8 : Word).extractLsb' 0 3).toNat = 0
      ∧ 5 ≤ ((5 : Word).extractLsb' 0 3).toNat ∧ 5 ≤ ((7 : Word).extractLsb' 0 3).toNat := by decide

theorem witness_PassStartForgetsThePast : ∃ t, t = startEncode (dec prevInit 7 []) := ⟨_, rfl⟩

theorem witness_HardwareReset : { dec prevInit 7 [] with events := [.reset, .engine] }.events = .reset :: [.engine] := rfl

/-- The last word of the window, the word after it, an offset off alignment and a wide access, for a read and a write. -/
theorem witness_RegisterAccessEvents :
    { State.reset with events := [.regRead 0xFC 4] }.events = .regRead 0xFC 4 :: [] ∧ 0xFC % 4 = 0 ∧ 0xFC < 0x100
      ∧ { State.reset with events := [.regRead 0x01 4] }.events = .regRead 0x01 4 :: [] ∧ 0x01 % 4 ≠ 0
      ∧ { State.reset with events := [.regRead 0x04 8] }.events = .regRead 0x04 8 :: [] ∧ 8 ≠ 4
      ∧ { State.reset with events := [.regRead 0x100 4] }.events = .regRead 0x100 4 :: [] ∧ 0x100 % 4 = 0
      ∧ { State.reset with events := [.regWrite 0x08 4 7] }.events = .regWrite 0x08 4 7 :: []
      ∧ { State.reset with events := [.regWrite 0x09 4 7] }.events = .regWrite 0x09 4 7 :: [] ∧ 0x09 % 4 ≠ 0
      ∧ { State.reset with events := [.regWrite 0x100 4 7] }.events = .regWrite 0x100 4 7 :: [] :=
  ⟨rfl, by decide, by decide, rfl, by decide, rfl, by decide, rfl, by decide, rfl, rfl, by decide, rfl⟩

/-- A host read of a finished pixel (the last below CUR), of the first unfinished one and of one outside the raster. -/
theorem witness_HostAccess_rasterRead :
    (6 : Count).toNat < (dec prevInit 7 []).cur.toNat
      ∧ { dec prevInit 7 [] with events := [.rasterRead 6] }.events = .rasterRead 6 :: []
      ∧ (dec prevInit 7 []).cur.toNat ≤ (7 : Count).toNat ∧ (7 : Count).toNat < (dec prevInit 7 []).n.toNat
      ∧ (dec prevInit 7 []).phase ≠ .decHdr ∧ (dec prevInit 7 []).n.toNat ≤ (8 : Count).toNat := by decide

/-- A byte that a busy encode pass has written and the next one; a byte past a finished output. -/
theorem witness_HostAccess_outputRead :
    { at' .encBody [] with output := [5], events := [.outputRead 0] }.events = .outputRead 0 :: []
      ∧ 0 < [(5 : Byte)].length ∧ [(5 : Byte)].length ≤ 1 ∧ (at' .encBody []).phase.encoding = true
      ∧ (at' .done []).phase.encoding = false := by decide

/-- The last pixel of a busy encode raster and the one after it; the last pixel of a busy decode raster and the one after
it. -/
theorem witness_HostAccess_rasterWrite :
    { enc prevInit [prevInit] with events := [.rasterWrite 0 prevInit] }.phase.encoding = true
      ∧ (0 : Count).toNat < (enc prevInit [prevInit]).width.toNat * (enc prevInit [prevInit]).height.toNat
      ∧ (enc prevInit [prevInit]).width.toNat * (enc prevInit [prevInit]).height.toNat ≤ (1 : Count).toNat
      ∧ Memory.wf (enc prevInit [prevInit]).raster
      ∧ (7 : Count).toNat < (dec prevInit 7 []).n.toNat ∧ (dec prevInit 7 []).n.toNat ≤ (8 : Count).toNat
      ∧ (dec prevInit 7 []).phase ≠ .decHdr := by decide

theorem witness_HostAccess_streams :
    { at' .peekHdr [] with events := [.bindInput [1] none] }.events = .bindInput [1] none :: []
      ∧ { at' .encHdr [] with events := [.bindInput [1] none] }.phase = .encHdr
      ∧ { at' .encHdr [] with events := [.drawOutErr none] }.phase.encoding = true
      ∧ { at' .idle [] with events := [.drawOutErr (some 3)] }.phase.encoding = false := by decide

/-! The whole machine. -/

theorem witness_OnlyListedTransitions :
    (∃ t, step (dec prevInit 7 []) = .next t) ∧ (∃ t, step { dec prevInit 7 [] with events := [.engine] } = .next t)
      ∧ (∃ t, step { State.reset with events := [.regWrite 0 4 2] } = .next t)
      ∧ (∃ t, step { dec prevInit 7 [] with events := [.reset] } = .next t)
      ∧ ∃ t, step { dec prevInit 7 [] with events := [.rasterRead 7] } = .next t :=
  ⟨⟨_, rfl⟩, ⟨_, rfl⟩, ⟨_, rfl⟩, ⟨_, rfl⟩, ⟨_, rfl⟩⟩

theorem witness_EngineStepFrame : (dec prevInit 7 []).events = [] ∧ ∃ t, step (dec prevInit 7 []) = .next t := ⟨rfl, _, rfl⟩

/-- A chunk step that completes, and a step that moves nothing. -/
theorem witness_CursorAdvances :
    (Inv (dec prevInit 7 [0xC0]) ∧ ∃ t, step (dec prevInit 7 [0xC0]) = .next t ∧ (dec prevInit 7 [0xC0]).phase = .decBody
        ∧ (dec prevInit 7 [0xC0]).cur.toNat < (dec prevInit 7 [0xC0]).n.toNat ∧ t.phase ≠ .error)
      ∧ ∃ t, step atTrailer = .next t :=
  ⟨⟨dec_inv _, _, rfl, rfl, by decide, by decide⟩, _, rfl⟩

theorem witness_InvKept : Inv (dec prevInit 7 [0xC0]) ∧ ∃ t, step (dec prevInit 7 [0xC0]) = .next t := ⟨dec_inv _, _, rfl⟩

theorem witness_EngineStaysInRaster : Inv (dec prevInit 7 [0xC0]) := dec_inv _

theorem witness_EveryStepProgresses :
    Inv (dec prevInit 7 [0xC0]) ∧ (dec prevInit 7 [0xC0]).events = [] ∧ busy (dec prevInit 7 [0xC0]) = true :=
  ⟨dec_inv _, rfl, rfl⟩

theorem at_inv (p : Phase) (bs : List Byte) (h : p.header = true) : Inv (at' p bs) := by
  refine inv_plain _ (by simp [at', State.reset, Memory.wf]) rfl rfl ?_ rfl rfl rfl (fun _ => ⟨rfl, rfl, rfl, rfl⟩) ?_ ?_
    (fun _ => rfl) <;> cases p <;> simp [at', Phase.header, Phase.sized] at h ⊢

theorem witness_EveryPassEnds :
    Inv (at' .decHdr (hdr 1 1)) ∧ (at' .decHdr (hdr 1 1)).events = [] ∧ busy (at' .decHdr (hdr 1 1)) = true
      ∧ (at' .decHdr (hdr 1 1)).phase.header = true := ⟨at_inv _ _ rfl, rfl, rfl, rfl⟩

theorem witness_DecodePassWritesBelowCursor :
    Inv (at' .decHdr (hdr 0 0 ++ trailerBytes))
      ∧ (∃ t, Host.Core.run core 3 (at' .decHdr (hdr 0 0 ++ trailerBytes)) = .next t ∧ t.phase = .done)
      ∧ Memory.wf [(3, 1)] :=
  ⟨at_inv _ _ rfl, ⟨_, rfl, rfl⟩, by decide⟩

/-- An encode pass of a 1 x 1 image, at its header step. -/
def encStart (rcap : Count) (px : Pixel) : State :=
  { at' .encHdr [] with width := 1, height := 1, rcap := rcap, raster := writePixel [] 0 px }

theorem encStart_inv (rcap : Count) (px : Pixel) : Inv (encStart rcap px) :=
  inv_plain _ (writePixel_wf _ _ _ (by decide)) rfl rfl (by simp [encStart, at']) rfl rfl rfl
    (fun _ => ⟨rfl, rfl, rfl, rfl⟩) (by simp [encStart, at', Phase.sized]) (by simp [encStart, at']) (fun _ => rfl)

/-- Two passes over the same pixel with different capacities. -/
theorem witness_EncodeDependsOnlyOnOperands :
    Inv (encStart 1 ⟨255, 255, 255, 255⟩) ∧ Inv (encStart 2 ⟨255, 255, 255, 255⟩)
      ∧ (1 : Word).toNat * (1 : Word).toNat ≤ (encStart 1 ⟨255, 255, 255, 255⟩).rcap.toNat
      ∧ ∃ t, Host.Core.run core 1 (encStart 1 ⟨255, 255, 255, 255⟩) = .next t :=
  ⟨encStart_inv _ _, encStart_inv _ _, by decide, _, rfl⟩

/-- A decode pass beside the encode pass, both at their header steps; and the encode pass at its end marker beside its
decode pass. -/
theorem witness_DecoderMirrorsEncoder :
    Mirror (encStart 1 ⟨255, 255, 255, 255⟩) (at' .decHdr (hdr 1 1))
      ∧ ∃ e', step (encStart 1 ⟨255, 255, 255, 255⟩) = .next e' ∧ e'.phase ≠ .error
        ∧ e'.output <+: (at' .decHdr (hdr 1 1)).input ∧ e'.output.length < 2 ^ 64 :=
  ⟨⟨rfl, rfl, rfl, encStart_inv _ _, at_inv _ _ rfl, rfl, rfl, rfl, rfl, rfl, rfl, by simp [encStart, at'], by decide, rfl,
    by simp [encStart, at'], by simp [encStart, at', State.reset]⟩, _, rfl, by decide, ⟨[], rfl⟩, by decide⟩

/-- S3: the 1 x 1 white image: header step, DIFF, end test, end marker. -/
theorem witness_DecodeOfEncodedRaster :
    ∃ e', Host.Core.run core 4 (encStart 1 ⟨255, 255, 255, 255⟩) = .next e' ∧ e'.phase = .done
      ∧ e'.output = hdr 1 1 ++ [0x55] ++ trailerBytes ∧ e'.output.length < 2 ^ 64
      ∧ Inv (at' .decHdr (hdr 1 1 ++ [0x55] ++ trailerBytes)) :=
  ⟨_, rfl, rfl, rfl, by decide, at_inv _ _ rfl⟩

end Sys2Proof.Tests
end

/-! PROOFS. The transitions of PHASE (R29), settled as O49. -/

section

namespace Sys2Proof.Machine

open Sys2Proof

/-! The phases the engine and the commands go to. -/

/-- A chunk's meaning does not write PHASE (R161 to R171). -/
theorem exec_phase {i : Instr} {s t : State} (h : exec i s = .next t) : t.phase = s.phase := by
  obtain ⟨_, _, _, _, rfl⟩ := exec_rest h
  rfl

/-- While not BUSY the table lists only staying in the phase (R29). -/
theorem engineEdge_rest {s : State} (h : busy s = false) : EngineEdge s s.phase := by
  cases hp : s.phase <;> simp [EngineEdge, busy, Phase.busy, hp] at h ⊢

/-- A busy decode or peek phase may go to ERROR, but for DEC_BODY with its pixels all done (R29). -/
theorem engineEdge_readError {s : State} (he : s.phase.encoding = false) (hb : busy s = true)
    (hc : s.phase = .decBody → s.cur.toNat < s.n.toNat) : EngineEdge s .error := by
  cases hp : s.phase <;> simp_all [EngineEdge, busy, Phase.busy, Phase.encoding]

/-- Every move of the engine takes PHASE along an edge of the table (R29). -/
theorem EngineMove.edge {s t : State} (h : EngineMove s t) : EngineEdge s t.phase := by
  cases h with
  | rest hb => exact engineEdge_rest hb
  | encOverflow hp => simp [EngineEdge, hp]
  | encHeaderCut _ hp => simp [EngineEdge, hp]
  | encHeader hp => simp [EngineEdge, hp]
  | encChunkCut _ hp hc => simp [EngineEdge, hp, hc]
  | encChunk _ _ hp hc => simp [EngineEdge, hp, hc]
  | encEnd hp hc => simp [EngineEdge, hp, hc.not_gt]
  | encTrailerCut _ hp => simp [EngineEdge, hp]
  | encTrailer hp => simp [EngineEdge, hp]
  | readCut e k hp hb hk hc =>
    rw [raise_phase]
    exact engineEdge_readError hp hb hc
  | decOverflow _ _ _ _ hp => simp [EngineEdge, hp]
  | decHeader _ _ _ _ hp => simp [EngineEdge, hp]
  | decChunk _ _ _ hp hc _ _ hx => simp [EngineEdge, exec_phase hx, hp, hc]
  | decEnd hp hc => simp [EngineEdge, hp, hc.not_gt]
  | decTrailer hp => simp [EngineEdge, hp]
  | peek _ _ _ _ hp => simp [EngineEdge, hp]

@[simp] theorem startEncode_phase (s : State) : (startEncode s).phase = .encHdr := rfl
@[simp] theorem startDecode_phase (s : State) : (startDecode s).phase = .decHdr := rfl
@[simp] theorem startPeek_phase (s : State) : (startPeek s).phase = .peekHdr := rfl
@[simp] theorem clear_phase (s : State) : (clear s).phase = .idle := rfl
@[simp] theorem hardReset_phase (s : State) : (hardReset s).phase = .idle := rfl

/-- The phase a command leads to: that of the pass it starts, IDLE for CLEAR, and no other while not BUSY (R262 to R269). -/
def commandPhase (c : BitVec 3) (s : State) : Phase :=
  if busy s = false then
    if c = 1 then .encHdr else if c = 2 then .decHdr else if c = 3 then .peekHdr else if c = 4 then .idle else s.phase
  else s.phase

theorem command_phase (c : BitVec 3) (s : State) : (command c s).phase = commandPhase c s := by
  cases hb : busy s
  · simp only [command, commandPhase, hb, Bool.false_eq_true, if_false, if_true]
    split_ifs <;> rfl
  · simp [command, commandPhase, hb]

/-- A write at offset 0 is a CTRL write (R30). -/
theorem regWrite_ctrl (v : Word) (s : State) :
    regWrite 0 v s = command (v.extractLsb' 0 3) (s.setIrqEn (v.getLsbD 8)) := rfl

/-- A register write moves PHASE only by the command of a CTRL write (R29). -/
theorem regWrite_phase (off : Nat) (v : Word) (s : State) :
    (regWrite off v s).phase = if off = 0 then commandPhase (v.extractLsb' 0 3) s else s.phase := by
  by_cases h0 : off = 0
  · subst h0
    rw [regWrite_ctrl, command_phase, if_pos rfl]
    rfl
  · rw [if_neg h0]
    rcases regWrite_cases off v s with e | ⟨-, e | e | ⟨_, e⟩ | ⟨_, e⟩⟩ | ⟨h, -⟩
    · rw [e]
    · rw [e, State.setWidth_phase]
    · rw [e, State.setHeight_phase]
    · rw [e, State.setChannels_phase]
    · rw [e, State.setRcap_phase]
    · exact absurd h h0

/-! The events that keep PHASE. -/

theorem hostRegRead_phase {off size : Nat} {s t : State} (h : hostRegRead off size s = .next t) :
    t.phase = s.phase := by
  rw [regAccess_next h, State.setLastRead_phase]

theorem hostBindInput_phase {bs : List Byte} {e : Option Nat} {s t : State} (h : hostBindInput bs e s = .next t) :
    t.phase = s.phase := by
  unfold hostBindInput at h
  split at h <;> cases h
  rfl

theorem drawOutErr_phase {e : Option Nat} {s t : State} (h : drawOutErr e s = .next t) : t.phase = s.phase := by
  unfold drawOutErr at h
  split at h <;> cases h
  rfl

theorem hostRasterWrite_phase {i : Count} {px : Pixel} {s t : State} (h : hostRasterWrite i px s = .next t) :
    t.phase = s.phase := by
  unfold hostRasterWrite at h
  split at h
  · cases h
  · split at h <;> cases h
    rfl

theorem hostRasterRead_phase {i : Count} {s t : State} (h : hostRasterRead i s = .next t) : t.phase = s.phase := by
  unfold hostRasterRead at h
  split at h <;> cases h <;> rfl

theorem hostOutputRead_phase {k : Nat} {s t : State} (h : hostOutputRead k s = .next t) : t.phase = s.phase := by
  unfold hostOutputRead at h
  split at h
  · cases h; rfl
  · split at h <;> cases h <;> rfl

/-- Settles O49: the engine's step by `EngineMove.edge`, a register write by `regWrite_phase`, every other event by its own
lemma. -/
theorem onlyListedTransitions : Obligations.OnlyListedTransitions := by
  unfold Obligations.OnlyListedTransitions
  intro s t h
  rcases hev : s.events with _ | ⟨e, es⟩
  · rw [step_alone hev] at h
    exact (engineStep_move h).edge
  · rw [step_event hev] at h
    cases e with
    | engine => exact (engineStep_move h).edge
    | regWrite off size v =>
      rw [regAccess_next h, regWrite_phase]
      simp only [commandPhase, ite_and]
      rfl
    | regRead off size => exact hostRegRead_phase (s := s.setEvents es) h
    | reset => cases h; rfl
    | bindInput bs e => exact hostBindInput_phase (s := s.setEvents es) h
    | drawOutErr e => exact drawOutErr_phase (s := s.setEvents es) h
    | rasterWrite i px => exact hostRasterWrite_phase (s := s.setEvents es) h
    | rasterRead i => exact hostRasterRead_phase (s := s.setEvents es) h
    | outputRead k => exact hostOutputRead_phase (s := s.setEvents es) h

end Sys2Proof.Machine

end

/-! PROOFS. The fields of STATUS (R31), settled as O39. -/

section

namespace Sys2Proof.Machine

open Sys2Proof

@[simp] theorem bit_getLsbD_zero (b : Bool) : (bit b).getLsbD 0 = b := by cases b <;> rfl

/-- R31: the fields of STATUS, by what each shows of the state. -/
theorem regRead_status_fields (s : State) :
    let v := regRead 0x04 s
    v.getLsbD 0 = busy s ∧ v.getLsbD 1 = decide (s.phase = .done) ∧ v.getLsbD 2 = decide (s.phase = .error)
      ∧ v.getLsbD 3 = s.posValid ∧ v.extractLsb' 4 4 = 0 ∧ v.extractLsb' 8 4 = errorCode s.errCode
      ∧ v.extractLsb' 12 4 = 0 ∧ v.extractLsb' 16 4 = phaseCode s.phase ∧ v.extractLsb' 20 4 = 0
      ∧ v.getLsbD 24 = irq s ∧ v.extractLsb' 25 7 = 0 := by
  obtain ⟨-, h4, h8, h12, h16, h20, h25, h0, h1, h2, h3, h24⟩ :=
    statusWord_fields (bit (irq s)) (phaseCode s.phase) (errorCode s.errCode) (bit s.posValid)
      (bit (decide (s.phase = .error))) (bit (decide (s.phase = .done))) (bit (busy s))
  simp only [bit_getLsbD_zero] at h0 h1 h2 h3 h24
  exact ⟨h0, h1, h2, h3, h4, h8, h12, h16, h20, h24, h25⟩

/-- R28: BUSY is 1 exactly in the phases numbered 1 to 7, DONE is number 8 and ERROR number 9. -/
theorem phaseCode_ranges (p : Phase) :
    (p.busy = true ↔ 1 ≤ (phaseCode p).toNat ∧ (phaseCode p).toNat ≤ 7)
      ∧ (p = .done ↔ (phaseCode p).toNat = 8) ∧ (p = .error ↔ (phaseCode p).toNat = 9) := by
  cases p <;> decide

/-- An aligned word read of STATUS as the next event returns the word and changes nothing else (R261). -/
theorem step_readStatus {s : State} {es : List Event} (h : s.events = .regRead 0x04 4 :: es) :
    step s = .next ((s.setEvents es).setLastRead (some (.word (regRead 0x04 s)))) := by
  rw [step_event h]
  rfl

/-- Settles O39: the fields by `regRead_status_fields`, and the codes of PHASE and ERR_CODE are the numbers of the tables. -/
theorem statusFields : Obligations.StatusFields := by
  unfold Obligations.StatusFields
  intro s v phaseNumber errorNumber
  have hphase : (phaseCode s.phase).toNat = phaseNumber := by
    simp only [phaseNumber]; cases s.phase <;> rfl
  have herror : (errorCode s.errCode).toNat = errorNumber := by
    simp only [errorNumber]; rcases s.errCode with _ | e
    · rfl
    · cases e <;> rfl
  obtain ⟨h0, h1, h2, h3, h4, h8, h12, h16, h20, h24, h25⟩ := regRead_status_fields s
  obtain ⟨hbusy, hdone, herr⟩ := phaseCode_ranges s.phase
  rw [hphase] at hbusy hdone herr
  refine ⟨?_, ?_, ?_, h3, h4, ?_, h12, ?_, h20, h24, h25, fun _ => rfl, rfl, fun _ => step_readStatus⟩
  · rw [h0]; exact hbusy
  · rw [h1, decide_eq_true_iff]; exact hdone
  · rw [h2, decide_eq_true_iff]; exact herr
  · rw [h8]; exact herror
  · rw [h16]; exact hphase

end Sys2Proof.Machine

end

/-! PROOFS. The chunk type and the length the first byte gives (R97, R107), settled as O4 and O5. -/

section

namespace Sys2Proof

/-! Reading a chunk looks at the bytes it takes and at no byte after them. -/

theorem decodeLuma_append {bs rest : List Byte} {b0 : Byte} {i : Instr} (h : decodeLuma b0 bs = .ok (i, rest))
    (tl : List Byte) : decodeLuma b0 (bs ++ tl) = .ok (i, rest ++ tl) := by
  match bs, h with
  | _ :: _, h => cases h; rfl

theorem decodeRgb_append {bs rest : List Byte} {i : Instr} (h : decodeRgb bs = .ok (i, rest)) (tl : List Byte) :
    decodeRgb (bs ++ tl) = .ok (i, rest ++ tl) := by
  match bs, h with
  | _ :: _ :: _ :: _, h => cases h; rfl

theorem decodeRgba_append {bs rest : List Byte} {i : Instr} (h : decodeRgba bs = .ok (i, rest)) (tl : List Byte) :
    decodeRgba (bs ++ tl) = .ok (i, rest ++ tl) := by
  match bs, h with
  | _ :: _ :: _ :: _ :: _, h => cases h; rfl

/-- A chunk that is read is read alike with more bytes after it, which are left over. -/
theorem decode_append {bs rest : List Byte} {i : Instr} (h : decode bs = .ok (i, rest)) (tl : List Byte) :
    decode (bs ++ tl) = .ok (i, rest ++ tl) := by
  cases bs with
  | nil => cases h
  | cons b0 bs =>
    simp only [List.cons_append, decode] at h ⊢
    cases hk : classify b0 <;> simp only [hk] at h ⊢
    case luma => exact decodeLuma_append h tl
    case rgb => exact decodeRgb_append h tl
    case rgba => exact decodeRgba_append h tl
    all_goals cases h; rfl

/-! A chunk is read exactly when its bytes are there. -/

/-- With at least its payload after it, a first byte gives a chunk of its type, and exactly the payload is taken. -/
theorem decode_of_length_le {b0 : Byte} {tl : List Byte} (h : (classify b0).length ≤ tl.length + 1) :
    ∃ i, decode (b0 :: tl) = .ok (i, tl.drop ((classify b0).length - 1)) ∧ i.kind = classify b0 := by
  have hlen : (tl.take ((classify b0).length - 1)).length = (classify b0).length - 1 := by
    rw [List.length_take]; omega
  obtain ⟨i, hi, hk⟩ := decode_of_payload b0 _ hlen
  have hread := decode_append hi (tl.drop ((classify b0).length - 1))
  rw [List.cons_append, List.take_append_drop, List.nil_append] at hread
  exact ⟨i, hread, hk⟩

/-- With less than its payload after it, a first byte gives no chunk. -/
theorem decode_of_length_lt {b0 : Byte} {tl : List Byte} (h : tl.length + 1 < (classify b0).length) :
    decode (b0 :: tl) = .error (.payloadMissing (classify b0)) := by
  simp only [decode]
  cases hk : classify b0 <;> simp only [hk, Kind.length] at h ⊢
  case luma =>
    match tl, h with
    | [], _ => rfl
  case rgb =>
    match tl, h with
    | [], _ | [_], _ | [_, _], _ => rfl
  case rgba =>
    match tl, h with
    | [], _ | [_], _ | [_, _], _ | [_, _, _], _ => rfl
  all_goals omega

/-- The encoding of a chunk has the length of its type. -/
theorem encode_length_kind (i : Instr) : (encode i).length = i.kind.length := by
  cases i <;> rfl

/-- R97: the longest chunk type is 5 bytes. -/
theorem Kind.length_le_five (k : Kind) : k.length ≤ 5 := by
  cases k <;> decide

/-! The chunk type and the length, from the first byte's value and tag. -/

theorem classify_eq_of_toNat (b0 : Byte) :
    classify b0 = (if b0.toNat ≤ 0x3F then .index else if b0.toNat ≤ 0x7F then .diff
      else if b0.toNat ≤ 0xBF then .luma else if b0.toNat ≤ 0xFD then .run
      else if b0.toNat = 0xFE then .rgb else .rgba) := by
  revert b0; decide

theorem classify_length (b0 : Byte) :
    (classify b0).length = if b0.toNat = 0xFE then 4 else if b0.toNat = 0xFF then 5
      else if field b0 6 2 = 0b10#2 then 2 else 1 := by
  revert b0; decide

/-- Settles O4: the value's range gives the type, and four bytes are payload enough for every type. -/
theorem firstByteMap : Obligations.FirstByteMap := by
  unfold Obligations.FirstByteMap
  intro b0
  refine ⟨classify_eq_of_toNat b0, fun p1 p2 p3 p4 => ?_⟩
  obtain ⟨i, hi, hk⟩ := decode_of_length_le (tl := [p1, p2, p3, p4]) (Kind.length_le_five _)
  exact ⟨i, _, hi, hk⟩

/-- Settles O5: the byte gives the length of its type, and the decoder reads a chunk when that many bytes are there. -/
theorem lengthFixedByFirstByte : Obligations.LengthFixedByFirstByte := by
  unfold Obligations.LengthFixedByFirstByte
  intro b0 rest len
  have hlen : (classify b0).length = len := classify_length b0
  rw [← hlen]
  refine ⟨fun h => ?_, fun h => ⟨_, decode_of_length_lt h⟩⟩
  obtain ⟨i, hi, hk⟩ := decode_of_length_le h
  exact ⟨i, hi, by rw [encode_length_kind, hk]⟩

end Sys2Proof

end

/-! PROOFS. The datapath units: the channel delta and adder (R130 to R133), the hash and the cache (R134 to R137), and the
encoder's predicates (R140 to R142), settled as O6 to O11. -/

section

namespace Sys2Proof.Machine

open Sys2Proof

/-! The wrap of an integer to a signed byte (R14), and the channel delta and adder built on it. -/

/-- An integer wrapped to 8 bits is the one signed byte congruent to it modulo 256. -/
theorem s8_emod_spec (x : Int) :
    -128 ≤ s8 (x % 256).toNat ∧ s8 (x % 256).toNat ≤ 127 ∧ (s8 (x % 256).toNat - x) % 256 = 0 := by
  rw [s8_emod]
  split <;> omega

/-- R130: the delta is the wrapped channel difference. -/
theorem d8_spec (c p : Byte) :
    -128 ≤ d8 c p ∧ d8 c p ≤ 127 ∧ (d8 c p - ((c.toNat : Int) - p.toNat)) % 256 = 0 := s8_emod_spec _

@[simp] theorem d8_self (c : Byte) : d8 c c = 0 := by
  simp [d8, s8]

/-- The adder gives the channel that its sum is congruent to modulo 256. -/
theorem add8_eq_of_congr {p c : Byte} {d : Int} (h : (p.toNat + d - c.toNat) % 256 = 0) : add8 p d = c := by
  have hsum := add8_toNat p d
  have hc := c.isLt
  apply BitVec.eq_of_toNat_eq
  omega

/-- R133: the adder inverts the delta. -/
@[simp] theorem add8_d8 (c p : Byte) : add8 p (d8 c p) = c := by
  obtain ⟨-, -, hcongr⟩ := d8_spec c p
  exact add8_eq_of_congr (by omega)

/-- R165: a pixel's own deltas give it back through DIFF. -/
theorem diffPixel_deltas {px prev : Pixel} (ha : px.a = prev.a) :
    diffPixel prev (deltaR px prev) (deltaG px prev) (deltaB px prev) = px := by
  simp [diffPixel, deltaR, deltaG, deltaB, ← ha]

/-- R167: LUMA adds the green delta back to its relative operands, so it reconstructs what DIFF does. -/
theorem lumaPixel_relative (prev : Pixel) (dr dg db : Int) :
    lumaPixel prev dg (dr - dg) (db - dg) = diffPixel prev dr dg db := by
  simp [lumaPixel, diffPixel]

/-! The differences of LUMA_OK, plain and wrapped (R141). -/

/-- No integer from -248 to 247 wraps into a LUMA field's range unless it lies there already. -/
theorem inRange_s8_emod {x : Int} (hlo : -248 ≤ x) (hhi : x < 248) :
    inRange (s8 (x % 256).toNat) (-8) 7 = inRange x (-8) 7 := by
  obtain ⟨hmin, hmax, hcongr⟩ := s8_emod_spec x
  rw [Bool.eq_iff_iff, inRange_iff, inRange_iff]
  omega

/-- R141: next to a green delta in LUMA's range, the difference of a channel's delta to it may be plain or wrapped. -/
theorem inRange_s8_d8_sub {dg : Int} (hg : inRange dg (-32) 31 = true) (c p : Byte) :
    inRange (s8 ((d8 c p - dg) % 256).toNat) (-8) 7 = inRange (d8 c p - dg) (-8) 7 := by
  obtain ⟨hlo, hhi⟩ := (inRange_iff _ _ _).mp hg
  obtain ⟨hmin, hmax, -⟩ := d8_spec c p
  exact inRange_s8_emod (by omega) (by omega)

/-! The predicates and the selector (R142). -/

/-- R142: deltas in DIFF's ranges are in LUMA's, and differ by at most 3. -/
theorem lumaOk_of_diffOk {px prev : Pixel} (h : diffOk px prev = true) : lumaOk px prev = true := by
  obtain ⟨ha, hr, hg, hb⟩ := (diffOk_iff px prev).mp h
  exact (lumaOk_iff px prev).mpr ⟨ha, by omega, by omega, by omega⟩

/-- R202: where DIFF applies the selector takes a cache hit, or DIFF. -/
theorem selectChunk_of_diffOk {px : Pixel} {s : State} (h : diffOk px s.prev = true) :
    (∃ k, selectChunk px s = .index k) ∨ selectChunk px s = diffChunk px s.prev := by
  unfold selectChunk
  cases cacheLookup px s with
  | some k => exact .inl ⟨k, rfl⟩
  | none => exact .inr (if_pos h)

/-! The cache (R135 to R137). -/

theorem cacheInsert_slot (px : Pixel) (s : State) : (cacheInsert px s).cache[hash6 px] = px :=
  complete_slot px s

/-- R135: a lookup misses exactly when the pixel's slot holds another. -/
theorem cacheLookup_eq_none_iff (px : Pixel) (s : State) : cacheLookup px s = none ↔ s.cache[hash6 px] ≠ px := by
  simp [cacheLookup]

/-- R137: the slot of two colliding pixels holds the one inserted, so the other misses. -/
theorem cacheLookup_cacheInsert_of_collision {px q : Pixel} (hh : hash6 px = hash6 q) (hne : px ≠ q) (s : State) :
    cacheLookup px (cacheInsert q s) = none := by
  simp only [cacheLookup_eq_none_iff, hh, cacheInsert_slot]
  exact hne.symm

/-! The obligations. -/

/-- Settles O7: the sum is the model's adder law, and both chunks reconstruct a pixel because the adder inverts the delta
in every channel. -/
theorem adderInvertsDelta : Obligations.AdderInvertsDelta := by
  unfold Obligations.AdderInvertsDelta
  refine ⟨add8_toNat, by decide, by decide, by decide, by decide, add8_d8, fun px prev ha => ?_⟩
  exact ⟨diffPixel_deltas ha, (lumaPixel_relative prev _ _ _).trans (diffPixel_deltas ha)⟩

/-- Settles O9: with the green delta out of its range both sides are false; within it, no difference is large enough to
wrap into range. -/
theorem lumaDifferenceWidthIrrelevant : Obligations.LumaDifferenceWidthIrrelevant := by
  unfold Obligations.LumaDifferenceWidthIrrelevant
  intro px prev
  cases hg : inRange (deltaG px prev) (-32) 31 with
  | false => simp [lumaOk, hg]
  | true =>
    have hr := inRange_s8_d8_sub hg px.r prev.r
    have hb := inRange_s8_d8_sub hg px.b prev.b
    rw [lumaOk, hg, deltaR, deltaB, hr, hb]

/-- Settles O6: by `d8_spec`; the examples are evaluated. -/
theorem deltaIsWrappedDifference : Obligations.DeltaIsWrappedDifference := by
  unfold Obligations.DeltaIsWrappedDifference
  exact ⟨d8_spec, by decide, by decide, by decide, by decide, by decide, d8_self, by decide, by decide⟩

/-- Settles O8: 64 divides 256, so the slot is the whole sum modulo 64; the examples are evaluated. -/
theorem hashSlots : Obligations.HashSlots := by
  unfold Obligations.HashSlots
  refine ⟨fun px => ⟨rfl, rfl, ?_⟩, by decide⟩
  simp only [hash6, hash8]
  omega

/-- Settles O10: the ranges are the model's laws of the predicates, and the selector's chunk where DIFF applies is an INDEX
or a DIFF. -/
theorem rangePredicates : Obligations.RangePredicates := by
  unfold Obligations.RangePredicates
  refine ⟨fun px prev => ⟨decide_eq_true_iff, ?_, ?_⟩, fun _ _ => lumaOk_of_diffOk, fun px s dg drg dbg h hsel => ?_⟩
  · simpa only [and_assoc, deltaR, deltaG, deltaB] using diffOk_iff px prev
  · simpa only [and_assoc, deltaR, deltaG, deltaB] using lumaOk_iff px prev
  · obtain ⟨k, hindex⟩ | hdiff := selectChunk_of_diffOk h
    · cases hindex.symm.trans hsel
    · cases hdiff.symm.trans hsel

/-- Settles O11: by `cacheLookup_cacheInsert_of_collision`, also for the rule's two pixels in slot 53. -/
theorem collisionIsMiss : Obligations.CollisionIsMiss := by
  unfold Obligations.CollisionIsMiss
  exact ⟨fun s _ _ hh hne => cacheLookup_cacheInsert_of_collision hh hne s, by decide, by decide, by decide, by decide,
    cacheLookup_cacheInsert_of_collision (by decide) (by decide)⟩

end Sys2Proof.Machine

end

/-! PROOFS. The decode rules of the six chunks (41_chunks.md R160 to R171), settled as O13 to O18 and O21. -/

section

namespace Sys2Proof

/-! A chunk's operands and bytes (R100 to R106). -/

theorem wf_run_iff (n : Nat) : (Instr.run n).wf = true ↔ 1 ≤ n ∧ n ≤ 62 := by
  simp only [Instr.wf, runMax, Bool.and_eq_true, decide_eq_true_eq]

theorem wf_diff_iff (dr dg db : Int) :
    (Instr.diff dr dg db).wf = true ↔ (-2 ≤ dr ∧ dr ≤ 1) ∧ (-2 ≤ dg ∧ dg ≤ 1) ∧ (-2 ≤ db ∧ db ≤ 1) := by
  simp only [Instr.wf, Bool.and_eq_true, inRange_iff, and_assoc]

theorem wf_luma_iff (dg drg dbg : Int) :
    (Instr.luma dg drg dbg).wf = true ↔ (-32 ≤ dg ∧ dg ≤ 31) ∧ (-8 ≤ drg ∧ drg ≤ 7) ∧ (-8 ≤ dbg ∧ dbg ≤ 7) := by
  simp only [Instr.wf, Bool.and_eq_true, inRange_iff, and_assoc]

/-- The encoding of a well-formed chunk starts with a byte of its type (R98). -/
theorem encode_head {i : Instr} (h : i.wf = true) :
    ∃ b0 payload, encode i = b0 :: payload ∧ classify b0 = i.kind := by
  have hfirst : Laws.FirstByte.Statement i := by
    cases i with
    | run n => exact Laws.FirstByte.run n
    | index k => exact Laws.FirstByte.index k
    | diff dr dg db => exact Laws.FirstByte.diff dr dg db
    | luma dg drg dbg => exact Laws.FirstByte.luma dg drg dbg
    | rgb r g b => exact Laws.FirstByte.rgb r g b
    | rgba r g b a => exact Laws.FirstByte.rgba r g b a
  obtain ⟨b0, payload, he, hk, -⟩ := hfirst h
  exact ⟨b0, payload, he, hk⟩

/-- R106: the bytes of a well-formed chunk decode to it. -/
theorem decode_encode {i : Instr} (h : i.wf = true) : decode (encode i) = .ok (i, []) := by
  obtain ⟨b0, payload, he, hk⟩ := encode_head h
  rw [he, decode, hk]
  cases i with
  | run n =>
    obtain ⟨h1, h62⟩ := (wf_run_iff n).mp h
    cases he
    have hn : (BitVec.ofNat 6 (n - 1)).toNat = n - 1 := by rw [BitVec.toNat_ofNat]; omega
    simp only [Instr.kind, field_six, hn, Nat.sub_add_cancel h1]
  | index k =>
    cases he
    simp [Instr.kind, field_six]
  | diff dr dg db =>
    obtain ⟨hr, hg, hb⟩ := (wf_diff_iff dr dg db).mp h
    cases he
    obtain ⟨fr, fg, fb⟩ := field_diff 0b01#2 (rebias 2 dr 2) (rebias 2 dg 2) (rebias 2 db 2)
    simp only [Instr.kind, fr, fg, fb]
    rw [unbias_rebias, unbias_rebias, unbias_rebias] <;> omega
  | luma dg drg dbg =>
    obtain ⟨hg, hrg, hbg⟩ := (wf_luma_iff dg drg dbg).mp h
    cases he
    obtain ⟨frg, fbg⟩ := field_nibbles (rebias 4 drg 8) (rebias 4 dbg 8)
    simp only [Instr.kind, decodeLuma, field_six, frg, fbg]
    rw [unbias_rebias, unbias_rebias, unbias_rebias] <;> omega
  | rgb r g b => cases he; rfl
  | rgba r g b a => cases he; rfl

/-! The bytes as numbers, tag and biased fields added up (R100 to R103). -/

theorem encode_run {n : Nat} (h : (Instr.run n).wf = true) : encode (.run n) = [BitVec.ofNat 8 (0xC0 + (n - 1))] := by
  obtain ⟨h1, h62⟩ := (wf_run_iff n).mp h
  rw [encode, List.singleton_inj]
  apply BitVec.eq_of_toNat_eq
  rw [toNat_fields]
  simp only [BitVec.toNat_ofNat]
  omega

theorem encode_index (k : Fin cacheSlots) : encode (.index k) = [BitVec.ofNat 8 k.val] := by
  revert k; decide

/-- The number in a biased field (R106). -/
theorem rebias_toNat {w : Nat} {d bias : Int} (h0 : 0 ≤ d + bias) (h1 : d + bias < 2 ^ w) :
    ((rebias w d bias).toNat : Int) = d + bias := by
  have h := unbias_rebias w d bias h0 h1
  unfold unbias at h
  omega

theorem encode_diff {dr dg db : Int} (h : (Instr.diff dr dg db).wf = true) :
    encode (.diff dr dg db) = [BitVec.ofInt 8 (0x40 + (dr + 2) * 16 + (dg + 2) * 4 + (db + 2))] := by
  obtain ⟨hr, hg, hb⟩ := (wf_diff_iff dr dg db).mp h
  have fr := rebias_toNat (w := 2) (d := dr) (bias := 2) (by omega) (by omega)
  have fg := rebias_toNat (w := 2) (d := dg) (bias := 2) (by omega) (by omega)
  have fb := rebias_toNat (w := 2) (d := db) (bias := 2) (by omega) (by omega)
  rw [encode, List.singleton_inj]
  apply BitVec.eq_of_toNat_eq
  simp only [toNat_fields, BitVec.toNat_ofNat, BitVec.toNat_ofInt]
  omega

theorem encode_luma {dg drg dbg : Int} (h : (Instr.luma dg drg dbg).wf = true) :
    encode (.luma dg drg dbg)
      = [BitVec.ofInt 8 (0x80 + (dg + 32)), BitVec.ofInt 8 ((drg + 8) * 16 + (dbg + 8))] := by
  obtain ⟨hg, hrg, hbg⟩ := (wf_luma_iff dg drg dbg).mp h
  have fg := rebias_toNat (w := 6) (d := dg) (bias := 32) (by omega) (by omega)
  have frg := rebias_toNat (w := 4) (d := drg) (bias := 8) (by omega) (by omega)
  have fbg := rebias_toNat (w := 4) (d := dbg) (bias := 8) (by omega) (by omega)
  rw [encode]
  congr 1
  · apply BitVec.eq_of_toNat_eq
    simp only [toNat_fields, BitVec.toNat_ofNat, BitVec.toNat_ofInt]
    omega
  · rw [List.singleton_inj]
    apply BitVec.eq_of_toNat_eq
    simp only [toNat_fields, BitVec.toNat_ofInt]
    omega

end Sys2Proof

namespace Sys2Proof.Machine

open Sys2Proof

/-! The chunk steps of the two directions (R202, R234). -/

theorem DecodeDue.step_eq {s : State} (h : DecodeDue s) : step s = decChunkStep s := by
  rw [step_alone h.alone, engineStep, h.phaseIs]
  exact if_pos h.pixelsLeft

theorem EncodeDue.step_eq {s : State} (h : EncodeDue s) : step s = encChunkStep s := by
  rw [step_alone h.alone, engineStep, h.phaseIs]
  exact if_pos h.pixelsLeft

/-! Fetching a chunk's bytes (R233). -/

/-- The bytes of a well-formed chunk, when the input holds them, are fetched as that chunk. -/
theorem fetch_of_holds_encode {i : Instr} {s : State} (hi : i.wf = true) (h : InputHolds s (encode i)) :
    fetch s = .ok i (consumed (encode i).length s) := by
  refine fetch_of_holds h (decode_encode hi) fun b0 tl he => ?_
  obtain ⟨b1, payload, he1, hk⟩ := encode_head hi
  obtain ⟨rfl, -⟩ := List.cons.inj (he.symm.trans he1)
  rw [hk, ← encode_length_kind, he, List.length_cons, Nat.add_sub_cancel]

/-- Reading fails in `fetch` just as in reading all the bytes that the first byte asks for. -/
theorem fetch_of_readBytes_raised {k : Nat} {s t : State} (h : readBytes (k + 1) s = .raised t)
    (hv : ∀ v u, nextByte s = .ok v u → (classify v).length = k + 1) : fetch s = .raised t := by
  simp only [readBytes, fetch] at h ⊢
  cases hb : nextByte s with
  | raised u => simpa only [hb, Xfer.andThen, Xfer.raised.injEq] using h
  | ok v u =>
    simp only [hb, Xfer.andThen, hv v u hb, Nat.add_sub_cancel] at h ⊢
    cases hr : readBytes k u with
    | raised w => simpa only [hr, Xfer.raised.injEq] using h
    | ok vs w => simp only [hr, reduceCtorEq] at h

theorem InputEnds.head?_of_nextByte {s u : State} {pre : List Byte} {v : Byte} (h : InputEnds s pre)
    (hv : nextByte s = .ok v u) : pre.head? = some v := by
  cases pre with
  | nil => cases (nextByte_of_ends h).symm.trans hv
  | cons w ws => cases h.tail.1.symm.trans hv; rfl

theorem InputFails.head?_of_nextByte {s u : State} {pre : List Byte} {v : Byte} (h : InputFails s pre)
    (hv : nextByte s = .ok v u) : pre.head? = some v := by
  cases pre with
  | nil => cases (nextByte_of_fails h).symm.trans hv
  | cons w ws => cases h.tail.1.symm.trans hv; rfl

/-- A step due that cannot read a chunk's bytes, the first being that chunk's if it is read at all, ends where the reading
does. -/
theorem DecodeDue.step_of_readBytes_raised {i : Instr} {k : Nat} {s t : State} (hd : DecodeDue s) (hi : i.wf = true)
    (h : readBytes (encode i).length s = .raised t)
    (hv : ∀ v u, nextByte s = .ok v u → ((encode i).take k).head? = some v) : step s = .next t := by
  obtain ⟨b0, payload, he, hk⟩ := encode_head hi
  have hlen := encode_length_kind i
  rw [he] at h hv hlen
  have hf : fetch s = .raised t := by
    refine fetch_of_readBytes_raised h fun v u hb => ?_
    have hhead := hv v u hb
    rw [List.head?_take] at hhead
    split at hhead
    · cases hhead
    · cases hhead
      rw [hk, ← hlen, List.length_cons]
  rw [hd.step_eq, decChunkStep, hf, Xfer.finish_raised]

/-- R233, R234: a step due whose next bytes are a well-formed chunk counts them and runs it. -/
theorem DecodeDue.step_of_holds_encode {i : Instr} {s : State} (hd : DecodeDue s) (hi : i.wf = true)
    (h : InputHolds s (encode i)) : step s = exec i (consumed (encode i).length s) := by
  rw [hd.step_eq, decChunkStep, fetch_of_holds_encode hi h, Xfer.finish_ok]

/-- R233: a well-formed chunk cut short raises the error, with the bytes it did get counted. -/
theorem DecodeDue.cutShort_encode {i : Instr} {s : State} (hd : DecodeDue s) (hi : i.wf = true) :
    CutShort (encode i) s := by
  intro k hk
  have hlen : ((encode i).take k).length = k := List.length_take_of_le hk.le
  refine ⟨fun h => ?_, fun h => ?_⟩
  · have hr := readBytes_of_ends h (hlen ▸ hk)
    rw [hlen] at hr
    exact hd.step_of_readBytes_raised hi hr fun _ _ => h.head?_of_nextByte
  · have hr := readBytes_of_fails h (hlen ▸ hk)
    rw [hlen] at hr
    exact hd.step_of_readBytes_raised hi hr fun _ _ => h.head?_of_nextByte

/-! What a chunk does (R160, R238). -/

/-- A chunk in a pass that fits its raster completes, with the effect of its pixel and its clipped count. -/
theorem exec_effect (i : Instr) {s : State} (hw : Memory.wf s.raster) (hr : s.n.toNat ≤ s.rcap.toNat) :
    ∃ t, exec i s = .next t ∧ ChunkEffect (chunkPixel i s) (clip (chunkCount i) s) s t := by
  rw [exec_eq]
  exact writeChunk_effect _ _ s hw hr

/-- While pixels are left, a chunk of one pixel has its effect unclipped. -/
theorem exec_effect_one (i : Instr) {s : State} (h1 : chunkCount i = 1) (hw : Memory.wf s.raster)
    (hc : s.cur.toNat < s.n.toNat) (hr : s.n.toNat ≤ s.rcap.toNat) :
    ∃ t, exec i s = .next t ∧ ChunkEffect (chunkPixel i s) 1 s t := by
  have h := exec_effect i hw hr
  rwa [h1, clip_one hc] at h

/-- R160: a chunk that completes inserts its pixel in the pixel's slot and leaves it in PREV. -/
theorem exec_completes {i : Instr} {s t : State} (h : exec i s = .next t) :
    t.cache = s.cache.set (hash6 (chunkPixel i s)).val (chunkPixel i s) (hash6 (chunkPixel i s)).isLt
      ∧ t.prev = chunkPixel i s := by
  rw [exec_eq] at h
  rw [writeChunk_next h]
  exact ⟨rfl, rfl⟩

/-- R160: an encode chunk step that ends without error completes the pixel at the cursor. -/
theorem encChunkStep_completes {s t : State} (h : encChunkStep s = .next t) (hp : t.phase ≠ .error) :
    t.cache = s.cache.set (hash6 (readPixel s.raster s.cur.toNat)).val (readPixel s.raster s.cur.toNat)
        (hash6 (readPixel s.raster s.cur.toNat)).isLt
      ∧ t.prev = readPixel s.raster s.cur.toNat := by
  obtain ⟨i, n, ⟨pre, -, rfl⟩ | rfl⟩ := encChunkStep_next h
  · exact absurd (raise_phase _ _) hp
  · exact ⟨rfl, rfl⟩

/-- R160, R307: a decode chunk step that enters an error performs no completion. -/
theorem decChunkStep_error {s t : State} (h : decChunkStep s = .next t) (hs : s.phase ≠ .error)
    (hp : t.phase = .error) : t.cache = s.cache ∧ t.prev = s.prev := by
  obtain ⟨k, e, -, -, rfl⟩ | ⟨k, i, -, -, -, hx⟩ := decChunkStep_next h
  · exact ⟨raise_cache _ _, raise_prev _ _⟩
  · exact absurd ((exec_phase hx).symm.trans hp) hs

/-- R160, R307: an encode chunk step that enters an error performs no completion. -/
theorem encChunkStep_error {s t : State} (h : encChunkStep s = .next t) (hs : s.phase ≠ .error)
    (hp : t.phase = .error) : t.cache = s.cache ∧ t.prev = s.prev := by
  obtain ⟨i, n, ⟨pre, -, rfl⟩ | rfl⟩ := encChunkStep_next h
  · exact ⟨raise_cache _ _, raise_prev _ _⟩
  · exact absurd hp hs

/-! The obligations. -/

/-- Settles O13: a RUN's effect is that of every chunk, with PREV as its pixel; its byte is the tag with `n - 1`. -/
theorem runRepeatsPrev : Obligations.RunRepeatsPrev := by
  unfold Obligations.RunRepeatsPrev
  intro n s h1 h62 hw _ hr
  have hi := (wf_run_iff n).mpr ⟨h1, h62⟩
  rw [← encode_run hi]
  exact ⟨exec_effect (.run n) hw hr, fun hd hh => hd.step_of_holds_encode hi hh⟩

/-- Settles O14: an INDEX's pixel is the slot it names; its byte is the slot's number. -/
theorem indexProducesSlot : Obligations.IndexProducesSlot := by
  unfold Obligations.IndexProducesSlot
  intro k s hw hc hr
  rw [← encode_index k]
  exact ⟨exec_effect_one (.index k) rfl hw hc hr, fun hd hh => hd.step_of_holds_encode rfl hh⟩

/-- Settles O15: the channels of DIFF's pixel are sums modulo 256 by the adder's law. -/
theorem diffAddsDeltas : Obligations.DiffAddsDeltas := by
  unfold Obligations.DiffAddsDeltas
  intro dr dg db s hr0 hr1 hg0 hg1 hb0 hb1 hw hc hr
  have hi := (wf_diff_iff dr dg db).mpr ⟨⟨hr0, hr1⟩, ⟨hg0, hg1⟩, hb0, hb1⟩
  obtain ⟨t, hx, heff⟩ := exec_effect_one (.diff dr dg db) rfl hw hc hr
  rw [← encode_diff hi]
  exact ⟨⟨_, t, hx, heff, add8_toNat _ _, add8_toNat _ _, add8_toNat _ _, rfl⟩,
    fun hd hh => hd.step_of_holds_encode hi hh⟩

/-- Settles O16: the channels of LUMA's pixel are sums modulo 256 by the adder's law. -/
theorem lumaAddsRelativeDeltas : Obligations.LumaAddsRelativeDeltas := by
  unfold Obligations.LumaAddsRelativeDeltas
  intro dg drg dbg s hg0 hg1 hr0 hr1 hb0 hb1 hw hc hr
  have hi := (wf_luma_iff dg drg dbg).mpr ⟨⟨hg0, hg1⟩, ⟨hr0, hr1⟩, hb0, hb1⟩
  obtain ⟨t, hx, heff⟩ := exec_effect_one (.luma dg drg dbg) rfl hw hc hr
  rw [← encode_luma hi]
  exact ⟨⟨_, t, hx, heff, add8_toNat _ _, add8_toNat _ _, add8_toNat _ _, rfl⟩,
    fun hd hh => hd.step_of_holds_encode hi hh, fun hd => hd.cutShort_encode hi⟩

/-- Settles O17: RGB's pixel is its three bytes with the alpha of PREV. -/
theorem rgbKeepsAlpha : Obligations.RgbKeepsAlpha := by
  unfold Obligations.RgbKeepsAlpha
  intro r g b s hw hc hr
  exact ⟨exec_effect_one (.rgb r g b) rfl hw hc hr, fun hd hh => hd.step_of_holds_encode (i := .rgb r g b) rfl hh,
    fun hd => hd.cutShort_encode (i := .rgb r g b) rfl⟩

/-- Settles O18: RGBA's pixel is its four bytes. -/
theorem rgbaIsRaw : Obligations.RgbaIsRaw := by
  unfold Obligations.RgbaIsRaw
  intro r g b a s hw hc hr
  exact ⟨exec_effect_one (.rgba r g b a) rfl hw hc hr, fun hd hh => hd.step_of_holds_encode (i := .rgba r g b a) rfl hh,
    fun hd => hd.cutShort_encode (i := .rgba r g b a) rfl⟩

/-- Settles O21: `exec` of any chunk and an encode chunk step end in `complete`, and an error is entered before it. -/
theorem everyChunkCompletes : Obligations.EveryChunkCompletes := by
  unfold Obligations.EveryChunkCompletes
  refine ⟨fun i s t => exec_completes, fun s t hd h hp => ?_, fun s t hd h hp => ?_⟩
  · exact encChunkStep_completes (hd.step_eq ▸ h) hp
  · rcases hd with hd | hd
    · exact decChunkStep_error (hd.step_eq ▸ h) (by simp [hd.phaseIs]) hp
    · exact encChunkStep_error (hd.step_eq ▸ h) (by simp [hd.phaseIs]) hp

end Sys2Proof.Machine

end

/-! PROOFS. The encoder's header step, selector, run measurement and trailer step (42_encoder.md R201 to R206), settled as
O29, O30, O31 and O34. -/

section

namespace Sys2Proof.Machine

open Sys2Proof

/-! A step's bytes at the output port, and the rest of the step after them (R64, R305). -/

/-- With the port accepting all the bytes, the rest of the step runs on the state that has them in the output. -/
theorem emit_finish_of_accepts {bs : List Byte} {s : State} (h : OutputAccepts s bs.length)
    (f : Unit → State → Host.Outcome State Fault Refusal) : (emit bs s).finish f = f () (emitted bs s) := by
  rw [emit_of_accepts h, Xfer.finish_ok]

/-- With the port failing inside the bytes, the step ends in IOError, whatever the rest of it is. -/
theorem emit_finish_of_fails {bs : List Byte} {s : State} {k : Nat} (h : OutputFails s k) (hk : k < bs.length)
    (f : Unit → State → Host.Outcome State Fault Refusal) :
    (emit bs s).finish f = .next (raise .ioError (emitted (bs.take k) s)) := by
  rw [emit_of_fails h hk, Xfer.finish_raised]

/-- What the output port does next does not depend on N. -/
theorem OutputAccepts.setN {s : State} {k : Nat} (h : OutputAccepts s k) (v : Count) : OutputAccepts (s.setN v) k :=
  ⟨h.noFailure, h.noWrap⟩

/-- What the output port does next does not depend on N. -/
theorem OutputFails.setN {s : State} {k : Nat} (h : OutputFails s k) (v : Count) : OutputFails (s.setN v) k :=
  ⟨h.failure, h.noWrap⟩

/-- R306: only ENC_BODY and DEC_BODY have chunk steps. -/
theorem inChunkStep_eq_false {s : State} (he : s.phase ≠ .encBody) (hd : s.phase ≠ .decBody) :
    inChunkStep s = false := by
  simp [inChunkStep, he, hd]

/-! The header (R91, R201). -/

/-- R67: the bytes of a 32-bit integer as numbers, most significant first. -/
theorem be32Bytes_eq_ofNat (v : Word) :
    be32Bytes v = [BitVec.ofNat 8 (v.toNat / 256 ^ 3 % 256), BitVec.ofNat 8 (v.toNat / 256 ^ 2 % 256),
      BitVec.ofNat 8 (v.toNat / 256 % 256), BitVec.ofNat 8 (v.toNat % 256)] := by
  simp [be32Bytes, BitVec.toNat_eq, Nat.shiftRight_eq_div_pow]

/-- R201: the capacity test comes first; a raster that is too small gets no byte. -/
theorem encHeaderStep_of_overflow {s : State} (hn : s.rcap.toNat < s.width.toNat * s.height.toNat) :
    encHeaderStep s = .next (raise .dimensionOverflow (s.setN (pixelCount s.width s.height))) := by
  rw [← pixelCount_toNat] at hn
  exact if_pos hn

/-- R201: with a raster that holds the image, the step is the emission of the header. -/
theorem encHeaderStep_of_fits {s : State} (hn : s.width.toNat * s.height.toNat ≤ s.rcap.toNat) :
    encHeaderStep s = (emit (headerBytes s.magic s.width s.height s.channels 0)
      (s.setN (pixelCount s.width s.height))).finish fun _ t => .next (t.setPhase .encBody) := by
  rw [← pixelCount_toNat] at hn
  exact if_neg hn.not_gt

/-! The selector (R202). -/

/-- R202: the priorities 2 to 6 in their order, each by its condition. -/
theorem selectChunk_eq (px : Pixel) (s : State) :
    selectChunk px s =
      if s.cache[hash6 px] = px then .index (hash6 px)
      else if diffOk px s.prev = true then diffChunk px s.prev
      else if lumaOk px s.prev = true then lumaChunk px s.prev
      else if px.a = s.prev.a then .rgb px.r px.g px.b
      else .rgba px.r px.g px.b px.a := by
  by_cases hhit : s.cache[hash6 px] = px
  · simp only [selectChunk, cacheLookup, if_pos hhit]
  · simp only [selectChunk, cacheLookup, if_neg hhit, alphaSame, decide_eq_true_eq]

/-- R108, R140: where DIFF applies, its operands have an encoding. -/
theorem wf_diffChunk {px prev : Pixel} (h : diffOk px prev = true) : (diffChunk px prev).wf = true :=
  (wf_diff_iff _ _ _).mpr ((diffOk_iff px prev).mp h).2

/-- R108, R140: where LUMA applies, its operands have an encoding. -/
theorem wf_lumaChunk {px prev : Pixel} (h : lumaOk px prev = true) : (lumaChunk px prev).wf = true :=
  (wf_luma_iff _ _ _).mpr ((lumaOk_iff px prev).mp h).2

/-- R202: a pixel that is not PREV gets the bytes of the chunk selected for it, whatever the run length. -/
theorem encode_selectChunk {px : Pixel} {s : State} (hne : px ≠ s.prev) (n : Nat) :
    encode (selectChunk px s) = selectedBytes s px n := by
  rw [selectChunk_eq, selectedBytes, if_neg hne]
  split_ifs with hhit hdiff hluma halpha
  · exact encode_index _
  · exact encode_diff (wf_diffChunk hdiff)
  · exact encode_luma (wf_lumaChunk hluma)
  · rfl
  · rfl

/-- R202, R203: PREV again gets the byte of a RUN of the measured length. -/
theorem IsRunLength.encode_run {s : State} {n : Nat} (h : IsRunLength s n) :
    encode (.run n) = selectedBytes s s.prev n := by
  rw [Sys2Proof.encode_run ((wf_run_iff n).mpr ⟨h.atLeastOne, h.atMost⟩), selectedBytes, if_pos rfl]

/-- R202, R203: an encode chunk step due emits the selected chunk of the pixel at the cursor: a RUN of the measured length
when that pixel is PREV, and a chunk of one pixel when it is not. -/
theorem EncodeDue.step_emits {s : State} (h : EncodeDue s) :
    ∃ i n, 1 ≤ n ∧ (readPixel s.raster s.cur.toNat = s.prev → IsRunLength s n)
      ∧ (readPixel s.raster s.cur.toNat ≠ s.prev → n = 1)
      ∧ encode i = selectedBytes s (readPixel s.raster s.cur.toNat) n
      ∧ step s = emitChunk i n (readPixel s.raster s.cur.toNat) s := by
  rw [h.step_eq]
  rcases encChunkStep_eq s h.pixelsLeft h.fits with ⟨hp, n, -, hrun, he⟩ | ⟨hp, he⟩
  · rw [he, hp]
    exact ⟨.run n, n, hrun.atLeastOne, fun _ => hrun, fun hne => absurd rfl hne, hrun.encode_run, rfl⟩
  · exact ⟨_, 1, le_rfl, fun heq => absurd heq hp, fun _ => rfl, encode_selectChunk hp 1, he⟩

/-! The obligations. -/

/-- Settles O29: the written-out header is the model's, and its emission ends as the port lets it. -/
theorem encodeHeaderStep : Obligations.EncodeHeaderStep := by
  unfold Obligations.EncodeHeaderStep
  intro s hp hev be hdr u
  have hhdr : hdr = headerBytes s.magic s.width s.height s.channels 0 := by
    simp only [hdr, be, headerBytes, be32Bytes_eq_ofNat]
  have hu : ∀ bs, inChunkStep (emitted bs u) = false := fun bs =>
    inChunkStep_eq_false (by simp [u, hp]) (by simp [u, hp])
  have hstep : step s = encHeaderStep s := by rw [step_alone hev, engineStep, hp]
  rw [hstep]
  refine ⟨rfl, hhdr, pixelCount_toNat _ _, fun hn => ?_, fun hn ha => ?_, fun k hk hn hf => ?_⟩
  · rw [encHeaderStep_of_overflow hn, raise_outside (by simpa using hu [])]
  · rw [encHeaderStep_of_fits hn, ← hhdr, emit_finish_of_accepts (ha.setN _)]
  · rw [encHeaderStep_of_fits hn, ← hhdr, emit_finish_of_fails (bs := hdr) (hf.setN _) hk, raise_outside (hu _)]

/-- Settles O30: the step emits one chunk with the selected bytes, and the emission ends as the port lets it. -/
theorem selectorEmitsFirstApplicable : Obligations.SelectorEmitsFirstApplicable := by
  unfold Obligations.SelectorEmitsFirstApplicable
  intro s hd px
  obtain ⟨i, n, h1, hrun, hone, hbytes, hstep⟩ := hd.step_emits
  refine ⟨n, h1, hrun, hone, ?_⟩
  rw [hstep, emitChunk, hbytes]
  exact ⟨fun ha => emit_finish_of_accepts ha _, fun k hk hf => emit_finish_of_fails hf hk _⟩

/-- Settles O31: the pixel at the cursor is a run of one, from which the measurement goes on. -/
theorem runLengthIsMaximal : Obligations.RunLengthIsMaximal := by
  unfold Obligations.RunLengthIsMaximal
  intro s hc hr hp
  refine runLengthFrom_spec s hr 1 (runMax - 1) le_rfl rfl hc fun k hk => ?_
  rwa [Nat.lt_one_iff.mp hk]

/-- Settles O34: the emission of the end marker ends as the port lets it. -/
theorem encodeTrailerStep : Obligations.EncodeTrailerStep := by
  unfold Obligations.EncodeTrailerStep
  intro s hp hev
  have hstep : step s = encTrailerStep s := by rw [step_alone hev, engineStep, hp]
  rw [hstep]
  refine ⟨fun ha => emit_finish_of_accepts ha _, fun k hk hf => ?_⟩
  rw [encTrailerStep, emit_finish_of_fails (bs := trailerBytes) hf hk,
    raise_outside (inChunkStep_eq_false (by simp [hp]) (by simp [hp])), trailerBytes]

end Sys2Proof.Machine

end

/-! PROOFS. The decoder's header errors, trailer step and end test (43_decoder.md R232, R235, R236), settled as O25, O27 and
O28. -/

section

namespace Sys2Proof.Machine

open Sys2Proof

/-! Errors taken after bytes were read, outside a chunk step (R306). -/

/-- R306: in a phase without chunk steps, an error entered after `k` bytes records no position. -/
theorem raise_consumed_outside {s : State} (he : s.phase ≠ .encBody) (hd : s.phase ≠ .decBody) (e : PassError) (k : Nat) :
    raise e (consumed k s) = ((consumed k s).setError (some e) false 0 0).setPhase .error :=
  raise_outside (inChunkStep_eq_false he hd)

/-! The header (R231, R232, R237). -/

/-- R232: four bytes that are not MAGIC raise MalformedMagic, whatever follows them. -/
theorem readHeader_of_malformed {s : State} {m : List Byte} (h4 : m.length = 4) (hm : m ≠ s.magic.toBytes)
    (h : InputHolds s m) : readHeader s = .raised (raise .malformedMagic (consumed 4 s)) := by
  have hr := readBytes_of_holds h
  rw [h4] at hr
  rw [readHeader, hr]
  exact if_pos hm

/-- R231, R237: a header read that raises is the whole step, in a decode pass and in a peek pass alike. -/
theorem step_of_readHeader_raised {s t : State} (hp : s.phase = .decHdr ∨ s.phase = .peekHdr) (hev : s.events = [])
    (h : readHeader s = .raised t) : step s = .next t := by
  rw [step_alone hev, engineStep]
  rcases hp with hp | hp
  · rw [hp, decHeaderStep, h, Xfer.finish_raised]
  · rw [hp, peekStep, h, Xfer.finish_raised]

/-! The trailer (R236). -/

/-- R236: with its bytes read, the step is their comparison with the end marker. -/
theorem decTrailerStep_of_holds {s : State} {m : List Byte} (h8 : m.length = 8) (h : InputHolds s m) :
    decTrailerStep s = if m ≠ trailerBytes then .next (raise .badTrailer (consumed 8 s))
      else .next ((consumed 8 s).setPhase .done) := by
  have hr := readBytes_of_holds h
  rw [h8] at hr
  rw [decTrailerStep, trailerLen, hr, Xfer.finish_ok]

/-- R236: with a byte missing, nothing is compared. -/
theorem decTrailerStep_of_raised {s t : State} (h : readBytes 8 s = .raised t) : decTrailerStep s = .next t := by
  rw [decTrailerStep, trailerLen, h, Xfer.finish_raised]

/-! The end tests (R205, R235). -/

/-- R205: with CUR = N the encoder goes on to the end marker. -/
theorem encBodyStep_of_end {s : State} (h : s.cur = s.n) : encBodyStep s = .next (s.setPhase .encTrl) :=
  if_neg (h ▸ lt_irrefl _)

/-- R235: with CUR = N the decoder goes on to the end marker. -/
theorem decBodyStep_of_end {s : State} (h : s.cur = s.n) : decBodyStep s = .next (s.setPhase .decTrl) :=
  if_neg (h ▸ lt_irrefl _)

/-! The obligations. -/

/-- Settles O25: the header read raises in each case, outside a chunk step. -/
theorem headerErrors : Obligations.HeaderErrors := by
  unfold Obligations.HeaderErrors
  intro s m hp hev
  have hstep : ∀ e k, readHeader s = .raised (raise e (consumed k s)) →
      step s = .next (((consumed k s).setError (some e) false 0 0).setPhase .error) := by
    intro e k hr
    rw [step_of_readHeader_raised hp hev hr, raise_consumed_outside]
    · rcases hp with hp | hp <;> simp [hp]
    · rcases hp with hp | hp <;> simp [hp]
  exact ⟨fun h4 hm h => hstep _ _ (readHeader_of_malformed h4 hm h),
    fun hm h => hstep _ _ (readHeader_of_ends hm h),
    fun hm h => hstep _ _ (readHeader_of_fails hm h)⟩

/-- Settles O27: the bytes are compared when all 8 are read, and reading fewer raises first. -/
theorem decodeTrailerStep : Obligations.DecodeTrailerStep := by
  unfold Obligations.DecodeTrailerStep
  intro s m hp hev
  have hstep : step s = decTrailerStep s := by rw [step_alone hev, engineStep, hp]
  have hraise := raise_consumed_outside (s := s) (by simp [hp]) (by simp [hp])
  rw [hstep]
  refine ⟨fun h => ?_, fun h8 hm h => ?_, fun h8 h => ?_, fun h8 h => ?_⟩
  · rw [decTrailerStep_of_holds rfl h, trailerBytes, if_neg (not_not_intro rfl)]
  · rw [decTrailerStep_of_holds h8 h, trailerBytes, if_pos hm, hraise]
  · rw [decTrailerStep_of_raised (readBytes_of_ends h h8), hraise]
  · rw [decTrailerStep_of_raised (readBytes_of_fails h h8), hraise]

/-- Settles O28: the body step of either direction fails its test CUR < N. -/
theorem endTests : Obligations.EndTests := by
  unfold Obligations.EndTests
  intro s hev hend
  rw [step_alone hev, engineStep]
  refine ⟨fun hp => ?_, fun hp => ?_⟩
  · rw [hp]
    exact encBodyStep_of_end hend
  · rw [hp]
    exact decBodyStep_of_end hend

end Sys2Proof.Machine

end

/-! PROOFS. Pass start (44_control.md R268), settled as O44. -/

section

namespace Sys2Proof.Machine

open Sys2Proof

section PassStart

variable (s : State)

/-! The pass state every pass starts from (R268). -/

@[simp] theorem passStart_cache : (passStart s).cache = Vector.replicate cacheSlots Pixel.zero := rfl
@[simp] theorem passStart_prev : (passStart s).prev = prevInit := rfl
@[simp] theorem passStart_cur : (passStart s).cur = 0 := rfl
@[simp] theorem passStart_bytes : (passStart s).bytes = 0 := rfl
@[simp] theorem passStart_n : (passStart s).n = 0 := rfl
@[simp] theorem passStart_errCode : (passStart s).errCode = none := rfl
@[simp] theorem passStart_posValid : (passStart s).posValid = false := rfl
@[simp] theorem passStart_errX : (passStart s).errX = 0 := rfl
@[simp] theorem passStart_errY : (passStart s).errY = 0 := rfl

/-- R268: every slot of the cache a pass starts from is the zero pixel. -/
theorem passStart_slot (k : Fin cacheSlots) : (passStart s).cache[k] = Pixel.zero := by
  rw [passStart_cache, Fin.getElem_fin, Vector.getElem_replicate]

/-! Pass start overwrites the pass state unread (R268, R342); PHASE and the output pass through it. -/

@[simp] theorem passStart_setCache (c : Vector Pixel cacheSlots) : passStart (s.setCache c) = passStart s := rfl
@[simp] theorem passStart_setPrev (p : Pixel) : passStart (s.setPrev p) = passStart s := rfl
@[simp] theorem passStart_setCur (u : Count) : passStart (s.setCur u) = passStart s := rfl
@[simp] theorem passStart_setBytes (v : Count) : passStart (s.setBytes v) = passStart s := rfl
@[simp] theorem passStart_setN (w : Count) : passStart (s.setN w) = passStart s := rfl
@[simp] theorem passStart_setError (e : Option PassError) (b : Bool) (x y : Word) :
    passStart (s.setError e b x y) = passStart s := rfl
@[simp] theorem passStart_setPhase (p : Phase) : passStart (s.setPhase p) = (passStart s).setPhase p := rfl
@[simp] theorem passStart_setOutput (bs : List Byte) :
    passStart (s.setOutput bs) = (passStart s).setOutput bs := rfl

/-! A start command's own writes, of PHASE and of the output, replace what was there. -/

@[simp] theorem State.setPhase_setPhase (p q : Phase) : (s.setPhase p).setPhase q = s.setPhase q := rfl
@[simp] theorem State.setOutput_setOutput (bs cs : List Byte) :
    (s.setOutput bs).setOutput cs = s.setOutput cs := rfl
@[simp] theorem State.setPhase_setOutput (p : Phase) (bs : List Byte) :
    (s.setPhase p).setOutput bs = (s.setOutput bs).setPhase p := rfl

variable {s}

/-- R263 to R265: a start command is pass start, followed by writes of the output and PHASE alone. -/
theorem start_eq_passStart {t : State} (h : t = startEncode s ∨ t = startDecode s ∨ t = startPeek s) :
    ∃ out p, t = ((passStart s).setOutput out).setPhase p := by
  obtain h | h | h := h
  · exact ⟨[], .encHdr, h⟩
  · exact ⟨s.output, .decHdr, h⟩
  · exact ⟨s.output, .peekHdr, h⟩

end PassStart

/-! The obligation. -/

/-- Settles O44: the pass state is that of pass start, and pass start overwrites what a start command forgets. -/
theorem passStartForgetsThePast : Obligations.PassStartForgetsThePast := by
  unfold Obligations.PassStartForgetsThePast
  refine ⟨fun s t h => ?_, fun s c p u v w e b x y ph out => ⟨?_, ?_, ?_⟩⟩
  · obtain ⟨out, ph, rfl⟩ := start_eq_passStart h
    refine ⟨passStart_slot s, ?_⟩
    simp [prevInit]
  · simp [startEncode]
  · simp [startDecode]
  · simp [startPeek]

end Sys2Proof.Machine

end

/-! PROOFS. Error entry (60_exceptions.md R306), settled as O36. -/

section

namespace Sys2Proof.Machine

open Sys2Proof

/-- R306: what a chunk step is. -/
theorem inChunkStep_iff (s : State) :
    inChunkStep s = true ↔ (s.phase = .encBody ∨ s.phase = .decBody) ∧ s.cur.toNat < s.n.toNat := by
  simp [inChunkStep]

/-- R306: in a chunk step the position recorded is that of the cursor, cut to 32 bits. -/
theorem raise_position (e : PassError) {s : State} (h : inChunkStep s = true) :
    (raise e s).errX = BitVec.ofNat 32 (s.cur.toNat % s.width.toNat)
      ∧ (raise e s).errY = BitVec.ofNat 32 (s.cur.toNat / s.width.toNat) := by
  simp [raise, h]

/-- R306, R27: a chunk step of a state that meets the invariant has its pixel in the raster, so the cut loses nothing. -/
theorem Inv.raise_position_toNat {s : State} (hi : Inv s) (e : PassError) (h : inChunkStep s = true) :
    (raise e s).errX.toNat = s.cur.toNat % s.width.toNat ∧ (raise e s).errY.toNat = s.cur.toNat / s.width.toNat := by
  obtain ⟨hp, hlt⟩ := (inChunkStep_iff s).mp h
  obtain ⟨hn, -, -⟩ := hi.sized (by rcases hp with hp | hp <;> rw [hp] <;> rfl)
  obtain ⟨hx, hy⟩ := coordinates_fit hlt hn s.width.isLt s.height.isLt
  obtain ⟨ex, ey⟩ := raise_position e h
  rw [ex, ey, BitVec.toNat_ofNat, BitVec.toNat_ofNat, Nat.mod_eq_of_lt hx, Nat.mod_eq_of_lt hy]
  exact ⟨rfl, rfl⟩

/-- R31: the three low bits of STATUS are ERR, DONE and BUSY. -/
theorem readReg_status_flags (s : State) :
    (readReg .status s).extractLsb' 0 3 = bit (decide (s.phase = .error)) ++ bit (decide (s.phase = .done)) ++ bit (busy s) :=
  (statusWord_fields (bit (irq s)) (phaseCode s.phase) (errorCode s.errCode) (bit s.posValid) _ _ _).1

/-- R28: the phase alone says whether the engine is BUSY. -/
theorem busy_of_phase {s : State} {p : Phase} (h : s.phase = p) : busy s = p.busy := by rw [busy, h]

/-- R306: after error entry STATUS reads ERR = 1, DONE = 0 and BUSY = 0. -/
theorem readReg_status_flags_raise (e : PassError) (s : State) :
    (readReg .status (raise e s)).extractLsb' 0 3 = 0b100#3 := by
  rw [readReg_status_flags, raise_phase, busy_of_phase (raise_phase e s)]
  rfl

/-- R306: after error entry STATUS reads the error's code. -/
theorem readReg_status_code_raise (e : PassError) (s : State) :
    (readReg .status (raise e s)).extractLsb' 8 4 = errorCode (some e) := by
  obtain ⟨-, -, -, -, -, hcode, -⟩ := regRead_status_fields (raise e s)
  rw [raise_errCode] at hcode
  exact hcode

/-- Settles O36: the record is that of `raise_eq`, and in a chunk step the coordinates fit their registers. -/
theorem errorEntry : Obligations.ErrorEntry := by
  unfold Obligations.ErrorEntry
  intro e s hi _
  exact ⟨(raise e s).errX, (raise e s).errY, raise_eq e s, inChunkStep_iff s, hi.raise_position_toNat e,
    raise_noPosition e s, busy_of_phase (raise_phase e s), readReg_status_flags_raise e s, readReg_status_code_raise e s⟩

end Sys2Proof.Machine

end

/-! PROOFS. What a failing step keeps (60_exceptions.md R307), settled as O37. -/

section

namespace Sys2Proof.Machine

open Sys2Proof

/-- R307: a move of the engine into ERROR is error entry after what the step transferred: in an encode pass bytes written
and N, otherwise at most 14 bytes read, the header registers and N. -/
theorem EngineMove.error_entry {s t : State} (h : EngineMove s t) (hb : busy s = true) (he : t.phase = .error) :
    (s.phase.encoding = true ∧ ∃ e pre n, t = raise e (emitted pre (s.setN n)))
      ∨ (s.phase.encoding = false
        ∧ ∃ e k w ht ch cs n, k ≤ 14 ∧ t = raise e ((withHeader w ht ch cs (consumed k s)).setN n)) := by
  cases h with
  | rest hr => rw [hr] at hb; cases hb
  | encOverflow hp => exact .inl ⟨by rw [hp]; rfl, _, [], _, by rw [emitted_nil]⟩
  | encHeaderCut pre hp => exact .inl ⟨by rw [hp]; rfl, _, pre, _, rfl⟩
  | encChunkCut pre hp => exact .inl ⟨by rw [hp]; rfl, _, pre, s.n, rfl⟩
  | encTrailerCut pre hp => exact .inl ⟨by rw [hp]; rfl, _, pre, s.n, rfl⟩
  | readCut e k hp _ hk => exact .inr ⟨hp, e, k, s.width, s.height, s.channels, s.colorspace, s.n, hk, rfl⟩
  | decOverflow w ht ch cs hp => exact .inr ⟨by rw [hp]; rfl, _, 14, w, ht, ch, cs, _, le_rfl, rfl⟩
  | encChunk _ _ hp => simp [hp] at he
  | decChunk _ _ _ hp _ _ _ hx => simp [exec_phase hx, hp] at he
  | encHeader => cases he
  | encEnd => cases he
  | encTrailer => cases he
  | decHeader => cases he
  | decEnd => cases he
  | decTrailer => cases he
  | peek => cases he

/-- Settles O37: error entry and the transfers before it leave CUR, PREV, CACHE, the raster and the input as they were. -/
theorem failingStepKeepsState : Obligations.FailingStepKeepsState := by
  unfold Obligations.FailingStepKeepsState
  intro s t hev hb h he
  rw [step_alone hev] at h
  rcases (engineStep_move h).error_entry hb he with ⟨henc, e, pre, n, rfl⟩ | ⟨henc, e, k, w, ht, ch, cs, n, hk, rfl⟩
  · exact ⟨by simp, by simp, by simp, by simp, by simp,
      fun _ => ⟨pre, by simp, by rw [raise_bytes]; rfl⟩, by simp [henc]⟩
  · exact ⟨by simp, by simp, by simp, by simp, by simp, by simp [henc],
      fun _ => ⟨by simp, k, hk, by rw [raise_bytes]; rfl⟩⟩

end Sys2Proof.Machine

end

/-! PROOFS. The interrupt level (60_exceptions.md R310), settled as O38. -/

section

namespace Sys2Proof.Machine

open Sys2Proof

/-! What the level is, and in which phases (R310). -/

theorem irq_iff (s : State) : irq s = true ↔ s.irqEn = true ∧ (s.phase = .done ∨ s.phase = .error) := by
  simp [irq]

theorem irq_eq_irqEn {s : State} (h : s.phase = .done ∨ s.phase = .error) : irq s = s.irqEn := by
  rw [Bool.eq_iff_iff, irq_iff, and_iff_left h]

theorem irq_eq_false {s : State} (hd : s.phase ≠ .done) (he : s.phase ≠ .error) : irq s = false := by
  simp [irq, hd, he]

theorem busy_eq_false_of_irq {s : State} (h : irq s = true) : busy s = false := by
  obtain ⟨-, hp | hp⟩ := (irq_iff s).mp h <;> exact busy_of_phase hp

/-! The engine's own steps. -/

/-- R72: no move of the engine writes IRQ_EN. -/
theorem EngineMove.irqEn_eq {s t : State} (h : EngineMove s t) : t.irqEn = s.irqEn := by
  cases h with
  | decChunk _ _ _ _ _ _ _ hx => obtain ⟨_, _, _, _, rfl⟩ := exec_rest hx; rfl
  | _ => simp

/-- R352: while not BUSY the engine stands still. -/
theorem engineStep_of_rest {s t : State} (hb : busy s = false) (h : engineStep s = .next t) : t = s := by
  cases hp : s.phase <;> simp_all [engineStep, busy, Phase.busy]

/-- R29: from a busy phase the engine leaves BUSY only for DONE or ERROR. -/
theorem EngineEdge.ends {s : State} {q : Phase} (h : EngineEdge s q) (hb : busy s = true) (hq : q.busy = false) :
    q = .done ∨ q = .error := by
  cases q with
  | idle => cases hp : s.phase <;> simp [EngineEdge, busy, Phase.busy, hp] at h hb
  | done => exact .inl rfl
  | error => exact .inr rfl
  | _ => cases hq

/-! CTRL writes. -/

/-- R267: the code 0 and the reserved codes start nothing. -/
theorem command_of_no_command {c : BitVec 3} (h : c.toNat = 0 ∨ 5 ≤ c.toNat) (s : State) : command c s = s := by
  rcases command_cases c s with e | ⟨-, ⟨rfl, -⟩ | ⟨rfl, -⟩ | ⟨rfl, -⟩ | ⟨rfl, -⟩⟩
  · exact e
  all_goals simp at h

/-- R263 to R266: an accepted CLEAR or start command leads to IDLE or to the header phase of its pass. -/
theorem commandPhase_of_command {c : BitVec 3} {s : State} (hb : busy s = false) (h1 : 1 ≤ c.toNat) (h4 : c.toNat ≤ 4) :
    commandPhase c s ≠ .done ∧ commandPhase c s ≠ .error := by
  have hc : c = 1 ∨ c = 2 ∨ c = 3 ∨ c = 4 := by bv_omega
  rcases hc with rfl | rfl | rfl | rfl <;> simp [commandPhase, hb]

/-! The moves of the host. -/

/-- A register write at another offset than CTRL's keeps PHASE and IRQ_EN (R260). -/
theorem irq_regWrite_of_ne {off : Nat} (h : off ≠ 0) (v : Word) (s : State) : irq (regWrite off v s) = irq s := by
  rcases regWrite_cases off v s with e | ⟨-, e | e | ⟨_, e⟩ | ⟨_, e⟩⟩ | ⟨h0, -⟩
  · rw [e]
  · rw [e]; rfl
  · rw [e]; rfl
  · rw [e]; rfl
  · rw [e]; rfl
  · exact absurd h0 h

theorem hostBindInput_next {bs : List Byte} {e : Option Nat} {s t : State} (h : hostBindInput bs e s = .next t) :
    t = s.setInput bs e := by
  unfold hostBindInput at h
  split at h <;> cases h
  rfl

theorem drawOutErr_next {e : Option Nat} {s t : State} (h : drawOutErr e s = .next t) : t = s.setOutErr e := by
  unfold drawOutErr at h
  split at h <;> cases h
  rfl

theorem hostRasterWrite_next {i : Count} {px : Pixel} {s t : State} (h : hostRasterWrite i px s = .next t) :
    t = s.setRaster (writePixel s.raster i.toNat px) := by
  unfold hostRasterWrite at h
  split at h
  · cases h
  · split at h <;> cases h
    rfl

theorem hostRasterRead_next {i : Count} {s t : State} (h : hostRasterRead i s = .next t) :
    t = (s.setLastRead t.lastRead).setRaced t.raced := by
  unfold hostRasterRead at h
  split at h <;> cases h <;> rfl

theorem hostOutputRead_next {k : Nat} {s t : State} (h : hostOutputRead k s = .next t) :
    t = (s.setLastRead t.lastRead).setRaced t.raced := by
  unfold hostOutputRead at h
  split at h
  · cases h; rfl
  · split at h <;> cases h <;> rfl

/-- R310: only a CTRL write or a reset lowers the level. -/
theorem eventStep_lowers_irq {e : Event} {s t : State} (h : eventStep e s = .next t) (hs : irq s = true)
    (ht : irq t = false) : e = .reset ∨ ∃ size v, e = .regWrite 0 size v := by
  by_contra hne
  rw [not_or] at hne
  obtain ⟨hreset, hctrl⟩ := hne
  have hkept : irq t = irq s := by
    cases e with
    | engine => rw [engineStep_of_rest (busy_eq_false_of_irq hs) h]
    | regWrite off size v =>
      have h0 : off ≠ 0 := fun h0 => hctrl ⟨size, v, by rw [h0]⟩
      rw [regAccess_next h, irq_regWrite_of_ne h0]
    | regRead off size => rw [regAccess_next h]; rfl
    | reset => exact absurd rfl hreset
    | bindInput bs e => rw [hostBindInput_next h]; rfl
    | drawOutErr e => rw [drawOutErr_next h]; rfl
    | rasterWrite i px => rw [hostRasterWrite_next h]; rfl
    | rasterRead i => rw [hostRasterRead_next h]; rfl
    | outputRead k => rw [hostOutputRead_next h]; rfl
  rw [hkept, hs] at ht
  cases ht

/-- Settles O38: the level by its formula, its rise by `EngineEdge.ends`, its fall by `eventStep_lowers_irq`. -/
theorem interruptLevel : Obligations.InterruptLevel := by
  unfold Obligations.InterruptLevel
  refine ⟨irq_iff, fun s t hev hb h hend => ?_, fun s v hc => ?_, fun s v hb h1 h4 => ?_, fun _ => rfl,
    fun s t h hs ht => ?_, fun s => ?_⟩
  · rw [step_alone hev] at h
    have hmove := engineStep_move h
    rw [irq_eq_irqEn (hmove.edge.ends hb hend), hmove.irqEn_eq]
  · rw [regWrite_ctrl, command_of_no_command hc]
    rfl
  · have hp := regWrite_phase 0 v s
    rw [if_pos rfl] at hp
    obtain ⟨hdone, herr⟩ := commandPhase_of_command hb h1 h4
    exact irq_eq_false (hp ▸ hdone) (hp ▸ herr)
  · rcases hev : s.events with _ | ⟨e, es⟩
    · rw [step_alone hev] at h
      rw [engineStep_of_rest (busy_eq_false_of_irq hs) h, hs] at ht
      cases ht
    · rw [step_event hev] at h
      exact ⟨e, es, rfl, eventStep_lowers_irq (s := s.setEvents es) h hs ht⟩
  · obtain ⟨-, -, -, -, -, -, -, -, -, h24, -⟩ := regRead_status_fields s
    exact h24

end Sys2Proof.Machine

end

/-! PROOFS. Hardware reset (70_reset_and_hazards.md R340), settled as O45. -/

section

namespace Sys2Proof.Machine

open Sys2Proof

section HardReset

variable (s : State)

/-! The reset value of each engine register (R41), and what a reset keeps (R340). -/

@[simp] theorem hardReset_cache : (hardReset s).cache = Vector.replicate cacheSlots Pixel.zero := rfl
@[simp] theorem hardReset_prev : (hardReset s).prev = prevInit := rfl
@[simp] theorem hardReset_cur : (hardReset s).cur = 0 := rfl
@[simp] theorem hardReset_bytes : (hardReset s).bytes = 0 := rfl
@[simp] theorem hardReset_n : (hardReset s).n = 0 := rfl
@[simp] theorem hardReset_errCode : (hardReset s).errCode = none := rfl
@[simp] theorem hardReset_posValid : (hardReset s).posValid = false := rfl
@[simp] theorem hardReset_errX : (hardReset s).errX = 0 := rfl
@[simp] theorem hardReset_errY : (hardReset s).errY = 0 := rfl
@[simp] theorem hardReset_irqEn : (hardReset s).irqEn = false := rfl
@[simp] theorem hardReset_width : (hardReset s).width = 0 := rfl
@[simp] theorem hardReset_height : (hardReset s).height = 0 := rfl
@[simp] theorem hardReset_channels : (hardReset s).channels = 4 := rfl
@[simp] theorem hardReset_colorspace : (hardReset s).colorspace = 0 := rfl
@[simp] theorem hardReset_rcap : (hardReset s).rcap = 0 := rfl
@[simp] theorem hardReset_raster : (hardReset s).raster = s.raster := rfl
@[simp] theorem hardReset_input : (hardReset s).input = s.input := rfl
@[simp] theorem hardReset_output : (hardReset s).output = s.output := rfl
@[simp] theorem hardReset_events : (hardReset s).events = s.events := rfl

theorem hardReset_slot (k : Fin cacheSlots) : (hardReset s).cache[k] = Pixel.zero := by
  rw [hardReset_cache, Fin.getElem_fin, Vector.getElem_replicate]

theorem irq_hardReset : irq (hardReset s) = false :=
  irq_eq_false (by simp) (by simp)

/-! The register window after a reset. -/

/-- R31: after a reset every field of STATUS is 0. -/
theorem statusWord_hardReset : statusWord (hardReset s) = 0 := by
  simp [statusWord, irq_hardReset, busy, Phase.busy, phaseCode, errorCode, bit]

/-- CHANNELS = 4 is the one reset value of R41 that a register shows and that is not 0. -/
theorem readReg_hardReset (r : Reg) : readReg r (hardReset s) = if r = .hdrInfo then 4 else 0 := by
  cases r with
  | status => exact statusWord_hardReset s
  | _ => simp [readReg, bit]

/-- R33: HDR_INFO stands at the offset 0x10 and nowhere else. -/
theorem regAt_eq_hdrInfo_iff (off : Nat) : regAt off = some .hdrInfo ↔ off = 0x10 := by
  by_cases hmapped : off < 0x34
  · have hwindow : ∀ k < 0x34, regAt k = some .hdrInfo ↔ k = 0x10 := by decide
    exact hwindow off hmapped
  · rw [regAt_unmapped (by omega)]
    simp only [reduceCtorEq, false_iff]
    omega

theorem regRead_hardReset (off : Nat) : regRead off (hardReset s) = if off = 0x10 then 4 else 0 := by
  have hinfo := regAt_eq_hdrInfo_iff off
  cases hr : regAt off with
  | none => simp [regRead, hr, ← hinfo]
  | some r => simp [regRead, hr, ← hinfo, readReg_hardReset]

end HardReset

/-! The steps. -/

/-- A reset as the next event is a hardware reset of the state with the event taken off the list. -/
theorem step_reset {s : State} {es : List Event} (h : s.events = .reset :: es) :
    step s = .next (hardReset (s.setEvents es)) := by
  rw [step_event h, eventStep]

/-- R352: in IDLE the engine stands still. -/
theorem engineStep_idle {s : State} (h : s.phase = .idle) : engineStep s = .next s := by
  simp [engineStep, h]

/-- Settles O45: the next state is that of `hardReset`, whose fields, register window and rest are the lemmas above. -/
theorem hardwareReset : Obligations.HardwareReset := by
  unfold Obligations.HardwareReset
  intro s es hev
  have hstill := engineStep_idle (hardReset_phase (s.setEvents es))
  refine ⟨hardReset (s.setEvents es), step_reset hev, hardReset_phase _, hardReset_slot _, ?_⟩
  simp [prevInit, irq_hardReset, regRead_hardReset, hstill]

end Sys2Proof.Machine

end

/-! PROOFS. The decoder and the encoder of chunk bytes invert each other (30_encoding.md R100 to R106), settled as O1 to O3. -/

section

namespace Sys2Proof

/-- R106: a chunk that is read has its operands in range, and its encoding is the bytes that were taken; type by type, in the
order of `classify_cases`. -/
theorem encode_of_decode {bs rest : List Byte} {i : Instr} (h : decode bs = .ok (i, rest)) :
    i.wf = true ∧ encode i ++ rest = bs := by
  cases bs with
  | nil => cases h
  | cons b0 tl =>
    obtain ⟨hc, rfl⟩ | ⟨hc, rfl⟩ | ⟨hc, htag⟩ | ⟨hc, htag⟩ | ⟨hc, htag⟩ | ⟨hc, htag, hlt⟩ := classify_cases b0
    all_goals simp only [decode, hc] at h
    · match tl, h with
      | r :: g :: b :: tl, h => cases h; exact ⟨rfl, rfl⟩
    · match tl, h with
      | r :: g :: b :: a :: tl, h => cases h; exact ⟨rfl, rfl⟩
    · cases h
      refine ⟨rfl, ?_⟩
      have hbyte := byte_of_tag b0
      rw [htag] at hbyte
      simpa [encode] using hbyte
    · cases h
      refine ⟨(wf_diff_iff _ _ _).mpr ?_, ?_⟩
      · have hr := unbias_upper 2 (field b0 4 2) 2
        have hg := unbias_upper 2 (field b0 2 2) 2
        have hb := unbias_upper 2 (field b0 0 2) 2
        exact ⟨⟨unbias_lower _ _ _, by omega⟩, ⟨unbias_lower _ _ _, by omega⟩, unbias_lower _ _ _, by omega⟩
      · simp only [encode, rebias_unbias, ← htag, byte_of_diff, List.singleton_append]
    · match tl, h with
      | b1 :: tl, h =>
        cases h
        refine ⟨(wf_luma_iff _ _ _).mpr ?_, ?_⟩
        · have hg := unbias_upper 6 (field b0 0 6) 32
          have hrg := unbias_upper 4 (field b1 4 4) 8
          have hbg := unbias_upper 4 (field b1 0 4) 8
          exact ⟨⟨unbias_lower _ _ _, by omega⟩, ⟨unbias_lower _ _ _, by omega⟩, unbias_lower _ _ _, by omega⟩
        · simp only [encode, rebias_unbias, ← htag, byte_of_tag, byte_of_nibbles, List.cons_append, List.nil_append]
    · cases h
      refine ⟨(wf_run_iff _).mpr ⟨by omega, by omega⟩, ?_⟩
      simp only [encode, Nat.add_sub_cancel, BitVec.ofNat_toNat, BitVec.setWidth_eq, ← htag, byte_of_tag,
        List.singleton_append]

/-- Settles O1: the chunk's own bytes decode to it, and no byte after them is looked at. -/
theorem decodeOfEncode : Obligations.DecodeOfEncode := by
  unfold Obligations.DecodeOfEncode
  intro i rest h
  have hread := decode_append (decode_encode h) rest
  rwa [List.nil_append] at hread

/-- Settles O2: chunk type by chunk type, the fields read put together again are the bytes. -/
theorem encodeOfDecode : Obligations.EncodeOfDecode := by
  unfold Obligations.EncodeOfDecode
  exact fun _ _ _ => encode_of_decode

/-- Settles O3: the six words are evaluated. -/
theorem specWordsDecode : Obligations.SpecWordsDecode := by
  unfold Obligations.SpecWordsDecode
  exact ⟨rfl, rfl, rfl, rfl, rfl, rfl⟩

end Sys2Proof

end

/-! PROOFS. The cache, what a chunk leaves unchanged, and the decoder's chunk and header steps (40_datapath_units.md R135, R136;
41_chunks.md; 43_decoder.md R231 to R238), settled as O12, O19, O20, O22 to O24 and O26. -/

section

namespace Sys2Proof.Machine

open Sys2Proof

/-! The cache (R135, R136). -/

/-- R135: a lookup is a hit exactly when the pixel's slot holds it. -/
theorem cacheLookup_eq_some_iff (px : Pixel) (s : State) :
    cacheLookup px s = some (hash6 px) ↔ s.cache[hash6 px] = px := by
  simp [cacheLookup]

/-- Settles O12: the insert's slot and the others are those of a completion, and a lookup compares its slot. -/
theorem insertThenLookup : Obligations.InsertThenLookup := by
  unfold Obligations.InsertThenLookup
  intro s px q
  refine ⟨?_, complete_otherSlot px s, rfl, cacheLookup_eq_some_iff q s, cacheLookup_eq_none_iff q s, ?_, ?_, by decide⟩
  · exact (cacheLookup_eq_some_iff _ _).mpr (cacheInsert_slot px s)
  · exact (cacheLookup_eq_some_iff ⟨0, 0, 0, 0⟩ _).mpr (passStart_slot s _)
  · rw [cacheLookup_eq_none_iff, passStart_slot]
    decide

/-! What a chunk writes (R160, R238). -/

/-- A chunk that completes has moved the cursor on by its clipped count. -/
theorem exec_cur_toNat {i : Instr} {s t : State} (h : exec i s = .next t) :
    t.cur.toNat = s.cur.toNat + clip (chunkCount i) s := by
  rw [exec_eq] at h
  rw [writeChunk_next h]
  exact cursor_toNat _ s

/-- A chunk that completes has filled its clipped count of pixels from the cursor. -/
theorem exec_raster {i : Instr} {s t : State} (h : exec i s = .next t) :
    t.raster = fillPixels s.raster s.cur.toNat (chunkPixel i s) (clip (chunkCount i) s) := by
  rw [exec_eq] at h
  rw [writeChunk_next h]
  rfl

/-- A chunk that completes has written its own fields and left the others as they were. -/
theorem exec_frame {i : Instr} {s t : State} (h : exec i s = .next t) :
    t = (((s.setRaster t.raster).setCur t.cur).setCache t.cache).setPrev t.prev := by
  obtain ⟨_, _, _, _, rfl⟩ := exec_rest h
  rfl

/-- Settles O19: a chunk is a fill, a move of the cursor and a completion. -/
theorem chunkFrame : Obligations.ChunkFrame := by
  unfold Obligations.ChunkFrame
  intro i s t h w
  obtain ⟨hcache, hprev⟩ := exec_completes h
  refine ⟨exec_frame h, fun a ha => ?_, fun k hk => ?_, exec_cur_toNat h, hprev, ?_⟩
  · rw [exec_raster h]
    exact read_fillPixels_outside _ _ _ _ _ ha
  · rw [hcache]
    exact complete_otherSlot _ s k hk
  · rw [hcache]
    exact complete_slot _ s

/-- Settles O20: the test of R238 on the clipped count. -/
theorem chunkStopsOnlyAboveCapacity : Obligations.ChunkStopsOnlyAboveCapacity := by
  unfold Obligations.ChunkStopsOnlyAboveCapacity
  intro i s w
  have hw : clip (chunkCount i) s = w := rfl
  rw [exec_eq]
  refine ⟨fun h => writeChunk_fault _ _ s (by omega), fun h => ⟨_, writeChunk_of_fits _ _ s (by omega)⟩⟩

/-! The decoder's chunk step (R233, R234). -/

/-- With pixels left, the engine's step in DEC_BODY is the decode chunk step. -/
theorem engineStep_decChunk {s : State} (hp : s.phase = .decBody) (hc : s.cur.toNat < s.n.toNat) :
    engineStep s = decChunkStep s := by
  rw [engineStep, hp]
  exact if_pos hc

/-- R234: a decode chunk step whose next bytes are a well-formed chunk counts them and runs it. -/
theorem decChunkStep_of_holds_encode {i : Instr} {s : State} (hi : i.wf = true) (h : InputHolds s (encode i)) :
    decChunkStep s = exec i (consumed (encode i).length s) := by
  rw [decChunkStep, fetch_of_holds_encode hi h, Xfer.finish_ok]

/-- Settles O22: the bytes that decode to a chunk are its encoding, so they are fetched as that chunk. -/
theorem stepRunsDecodedChunk : Obligations.StepRunsDecodedChunk := by
  unfold Obligations.StepRunsDecodedChunk
  intro i rest s hp hc hd hf hw
  obtain ⟨hi, hbytes⟩ := encode_of_decode hd
  have hrun : ∀ es, engineStep (s.setEvents es) = exec i (consumed (encode i).length (s.setEvents es)) := fun es => by
    rw [engineStep_decChunk (s := s.setEvents es) hp hc]
    exact decChunkStep_of_holds_encode hi ⟨⟨rest, hbytes⟩, hf, hw⟩
  refine ⟨fun hev => ?_, fun es hev => by rw [step_event hev, eventStep, hrun]⟩
  rw [step_alone hev]
  simpa only [State.setEvents, ← hev] using hrun s.events

/-- R306, R27: with N = WIDTH * HEIGHT an error in a chunk step records the coordinate of the cursor, after any bytes
read. -/
theorem raise_consumed_position {s : State} (h : inChunkStep s = true) (hn : s.n.toNat = s.width.toNat * s.height.toNat)
    (e : PassError) (k : Nat) :
    ∃ x y : Word, x.toNat = s.cur.toNat % s.width.toNat ∧ y.toNat = s.cur.toNat / s.width.toNat
      ∧ raise e (consumed k s) = ((consumed k s).setError (some e) true x y).setPhase .error := by
  obtain ⟨-, hlt⟩ := (inChunkStep_iff s).mp h
  obtain ⟨hx, hy⟩ := coordinates_fit hlt hn s.width.isLt s.height.isLt
  refine ⟨_, _, ?_, ?_, if_pos h⟩
  · exact (BitVec.toNat_ofNat _ _).trans (Nat.mod_eq_of_lt hx)
  · exact (BitVec.toNat_ofNat _ _).trans (Nat.mod_eq_of_lt hy)

/-- Settles O23: a chunk cut short is raised in a chunk step, with the bytes read counted. -/
theorem cutChunkRaises : Obligations.CutChunkRaises := by
  unfold Obligations.CutChunkRaises
  intro i k s hi hk hd hn
  have hchunk : inChunkStep s = true := (inChunkStep_iff s).mpr ⟨.inr hd.phaseIs, hd.pixelsLeft⟩
  obtain ⟨hends, hfails⟩ := hd.cutShort_encode hi k hk
  refine ⟨fun h => ?_, fun h => ?_⟩
  · rw [hends h]
    obtain ⟨x, y, hx, hy, he⟩ := raise_consumed_position hchunk hn .truncatedStream k
    exact ⟨x, y, hx, hy, by rw [he]⟩
  · rw [hfails h]
    obtain ⟨x, y, hx, hy, he⟩ := raise_consumed_position hchunk hn .ioError k
    exact ⟨x, y, hx, hy, by rw [he]⟩

/-! The header steps (R231, R237). -/

/-- Settles O24: with the header read, the step is the capacity test on its two dimensions. -/
theorem decodeHeaderStep : Obligations.DecodeHeaderStep := by
  unfold Obligations.DecodeHeaderStep
  intro s w h ch cs hp hev hi u
  have hread := readHeader_of_holds hi
  have hstep : step s = decHeaderStep s := by rw [step_alone hev, engineStep, hp]
  rw [hstep]
  refine ⟨pixelCount_toNat w h, fun hn => ?_, fun hn => ?_⟩
  · rw [decHeaderStep_of_fits hread (by simpa using hn), withHeader_width, withHeader_height, withHeader]
  · rw [decHeaderStep_of_overflow hread (by simpa using hn), withHeader_width, withHeader_height,
      raise_outside (inChunkStep_eq_false (by simp [hp]) (by simp [hp])), withHeader]

/-- R237: with the header read, the peek is done. -/
theorem peekStep_of_holds {s : State} {w h : Word} {ch cs : Byte} (hi : InputHolds s (headerBytes s.magic w h ch cs)) :
    peekStep s = .next ((withHeader w h ch cs (consumed 14 s)).setPhase .done) := by
  rw [peekStep, readHeader_of_holds hi, Xfer.finish_ok]

end Sys2Proof.Machine

namespace Sys2Proof

open Sys2Proof.Machine

/-- Settles O26: by `peekStep_of_holds`. -/
theorem peekStep : Obligations.PeekStep := by
  unfold Obligations.PeekStep
  intro s w h ch cs hp hev hi
  rw [step_alone hev, engineStep, hp]
  exact peekStep_of_holds hi

end Sys2Proof

end

/-! PROOFS. The chunk an encode chunk step emits (42_encoder.md R202, R203, R209), settled as O32 and O33. -/

section

namespace Sys2Proof.Machine

open Sys2Proof

/-! The selector (R202). -/

/-- R202: the chunk selected outside a run, with the condition it was selected by. -/
theorem selectChunk_cases (px : Pixel) (s : State) :
    (selectChunk px s = .index (hash6 px) ∧ s.cache[hash6 px] = px)
      ∨ (selectChunk px s = diffChunk px s.prev ∧ diffOk px s.prev = true)
      ∨ (selectChunk px s = lumaChunk px s.prev ∧ lumaOk px s.prev = true)
      ∨ (selectChunk px s = .rgb px.r px.g px.b ∧ px.a = s.prev.a)
      ∨ (selectChunk px s = .rgba px.r px.g px.b px.a ∧ px.a ≠ s.prev.a) := by
  rw [selectChunk_eq]
  split_ifs with hhit hdiff hluma halpha
  · exact .inl ⟨rfl, hhit⟩
  · exact .inr (.inl ⟨rfl, hdiff⟩)
  · exact .inr (.inr (.inl ⟨rfl, hluma⟩))
  · exact .inr (.inr (.inr (.inl ⟨rfl, halpha⟩)))
  · exact .inr (.inr (.inr (.inr ⟨rfl, halpha⟩)))

/-- R108: the chunk selected has an encoding. -/
theorem wf_selectChunk (px : Pixel) (s : State) : (selectChunk px s).wf = true := by
  obtain ⟨he, -⟩ | ⟨he, hok⟩ | ⟨he, hok⟩ | ⟨he, -⟩ | ⟨he, -⟩ := selectChunk_cases px s <;> rw [he]
  · rfl
  · exact wf_diffChunk hok
  · exact wf_lumaChunk hok
  · rfl
  · rfl

/-- R202: the chunk selected is one of one pixel. -/
theorem chunkCount_selectChunk (px : Pixel) (s : State) : chunkCount (selectChunk px s) = 1 := by
  obtain ⟨he, -⟩ | ⟨he, -⟩ | ⟨he, -⟩ | ⟨he, -⟩ | ⟨he, -⟩ := selectChunk_cases px s <;> rw [he] <;> rfl

/-- R209: the chunk selected for a pixel produces that pixel. -/
theorem chunkPixel_selectChunk (px : Pixel) (s : State) : chunkPixel (selectChunk px s) s = px := by
  obtain ⟨he, hhit⟩ | ⟨he, hok⟩ | ⟨he, hok⟩ | ⟨he, ha⟩ | ⟨he, -⟩ := selectChunk_cases px s <;> rw [he]
  · exact hhit
  · exact diffPixel_deltas ((diffOk_iff _ _).mp hok).1
  · exact (lumaPixel_relative s.prev _ _ _).trans (diffPixel_deltas ((lumaOk_iff _ _).mp hok).1)
  · rw [chunkPixel, rgbPixel, ← ha]
  · rfl

/-! The run measurement (R203). -/

/-- The measurement goes up from the run so far, by at most the pixels still allowed. -/
theorem runLengthFrom_bounds {s : State} {n fuel m : Nat} (h : runLengthFrom s n fuel = .ok m) :
    n ≤ m ∧ m ≤ n + fuel := by
  induction fuel generalizing n with
  | zero => cases h; exact ⟨le_rfl, le_rfl⟩
  | succ fuel ih =>
    simp only [runLengthFrom] at h
    split at h
    · split at h
      · cases h
      · split at h
        · have := ih h
          omega
        · cases h; omega
    · cases h; omega

/-- Settles O32: a measured run is 1 to 62 long, and the selector takes a chunk only where its operands are in range. -/
theorem encoderEmitsEncodable : Obligations.EncoderEmitsEncodable := by
  unfold Obligations.EncoderEmitsEncodable
  exact ⟨fun s n h => (wf_run_iff n).mpr (runLengthFrom_bounds h), wf_selectChunk⟩

/-! The chunk step. -/

/-- The chunk `i` is well-formed and stands for the `n` pixels of the raster from the cursor on, which are all alike and lie
before the end; when they are PREV they are the maximal run (R202, R203). -/
structure ChunkAtCursor (i : Instr) (n : Nat) (s : State) : Prop where
  wf : i.wf = true
  pixel : chunkPixel i s = readPixel s.raster s.cur.toNat
  count : chunkCount i = n
  atLeastOne : 1 ≤ n
  atMost : n ≤ 62
  inRaster : s.cur.toNat + n ≤ s.n.toNat
  allEqual : ∀ k, k < n → readPixel s.raster (s.cur.toNat + k) = readPixel s.raster s.cur.toNat
  run : readPixel s.raster s.cur.toNat = s.prev → IsRunLength s n

/-- A measured run of PREV is a RUN chunk at the cursor. -/
theorem IsRunLength.chunkAtCursor {s : State} {n : Nat} (h : IsRunLength s n)
    (hp : readPixel s.raster s.cur.toNat = s.prev) : ChunkAtCursor (.run n) n s where
  wf := (wf_run_iff n).mpr ⟨h.atLeastOne, h.atMost⟩
  pixel := hp.symm
  count := rfl
  atLeastOne := h.atLeastOne
  atMost := h.atMost
  inRaster := h.inRaster
  allEqual k hk := (h.allEqual k hk).trans hp.symm
  run _ := h

/-- The selected chunk of a pixel that is not PREV is a chunk at the cursor. -/
theorem chunkAtCursor_selectChunk {s : State} (hc : s.cur.toNat < s.n.toNat)
    (hp : readPixel s.raster s.cur.toNat ≠ s.prev) :
    ChunkAtCursor (selectChunk (readPixel s.raster s.cur.toNat) s) 1 s where
  wf := wf_selectChunk _ s
  pixel := chunkPixel_selectChunk _ s
  count := chunkCount_selectChunk _ s
  atLeastOne := le_rfl
  atMost := by omega
  inRaster := hc
  allEqual k hk := by rw [Nat.lt_one_iff.mp hk, Nat.add_zero]
  run h := absurd h hp

/-- R202: an encode chunk step of a pass that fits its raster emits a chunk that stands for the pixels at the cursor. -/
theorem encChunkStep_emits {s : State} (hc : s.cur.toNat < s.n.toNat) (hr : s.n.toNat ≤ s.rcap.toNat) :
    ∃ i n, ChunkAtCursor i n s ∧ encChunkStep s = emitChunk i n (readPixel s.raster s.cur.toNat) s := by
  rcases encChunkStep_eq s hc hr with ⟨hp, n, -, hrun, he⟩ | ⟨hp, he⟩
  · exact ⟨.run n, n, hrun.chunkAtCursor hp, by rw [he, hp]⟩
  · exact ⟨_, 1, chunkAtCursor_selectChunk hc hp, he⟩

/-- The state after the encoder emitted the chunk `i` of `n` pixels and completed it (R160, R202). -/
def afterEncChunk (i : Instr) (n : Nat) (s : State) : State :=
  complete (readPixel s.raster s.cur.toNat) ((emitted (encode i) s).setCur (BitVec.ofNat 64 (s.cur.toNat + n)))

/-- R202: an encode chunk step that ends without error has emitted and completed the chunk at the cursor. -/
theorem encChunkStep_completed {s t : State} (hc : s.cur.toNat < s.n.toNat) (hr : s.n.toNat ≤ s.rcap.toNat)
    (h : encChunkStep s = .next t) (hp : t.phase ≠ .error) :
    ∃ i n, ChunkAtCursor i n s ∧ t = afterEncChunk i n s := by
  obtain ⟨i, n, hi, he⟩ := encChunkStep_emits hc hr
  obtain ⟨u, hu, hor⟩ := emitChunk_cases i n (readPixel s.raster s.cur.toNat) s
  obtain rfl : u = t := Host.Outcome.next.inj (hu.symm.trans (he.symm.trans h))
  obtain ⟨pre, -, rfl⟩ | rfl := hor
  · exact absurd (raise_phase _ _) hp
  · exact ⟨i, n, hi, rfl⟩

/-- The cursor after a chunk that ends before the end of the raster does not wrap. -/
theorem ChunkAtCursor.cur_toNat {i : Instr} {n : Nat} {s : State} (h : ChunkAtCursor i n s) :
    (afterEncChunk i n s).cur.toNat = s.cur.toNat + n := by
  have hn := s.n.isLt
  have hin := h.inRaster
  simp only [afterEncChunk, complete_cur, State.setCur_cur, BitVec.toNat_ofNat]
  omega

/-- Settles O33: outside a run by the condition the chunk was selected by; in a run by the maximality of its length. -/
theorem encoderOutputIsCanonical : Obligations.EncoderOutputIsCanonical := by
  unfold Obligations.EncoderOutputIsCanonical
  intro s hd px i
  refine ⟨fun _ => ⟨chunkPixel_selectChunk px s, ?_⟩, fun hp t h herr => ?_⟩
  · obtain ⟨he, -⟩ | ⟨he, hok⟩ | ⟨he, hok⟩ | ⟨he, ha⟩ | ⟨he, ha⟩ := selectChunk_cases px s <;> simp only [i, he]
    · exact ⟨fun k hk => Instr.index.inj hk, nofun, nofun, nofun, nofun⟩
    · exact ⟨nofun, fun _ _ _ _ => ((diffOk_iff _ _).mp hok).1, nofun, nofun, nofun⟩
    · exact ⟨nofun, nofun, fun _ _ _ _ => ((lumaOk_iff _ _).mp hok).1, nofun, nofun⟩
    · exact ⟨nofun, nofun, nofun, fun _ _ _ _ => ha, nofun⟩
    · exact ⟨nofun, nofun, nofun, nofun, fun _ _ _ _ _ => ha⟩
  · rw [hd.step_eq] at h
    obtain ⟨j, n, hj, rfl⟩ := encChunkStep_completed hd.pixelsLeft hd.fits h herr
    have hrun := hj.run hp
    refine ⟨hj.cur_toNat ▸ hj.inRaster, hp, fun h62 hend => ?_⟩
    rw [hj.cur_toNat] at h62 hend ⊢
    obtain hmax | hmax | hmax := hrun.maximal
    · omega
    · omega
    · exact fun heq => hmax (heq.trans hp)

end Sys2Proof.Machine

end

/-! PROOFS. The invariant after reset and through every step, and the raster's bounds (10_state.md, 20_memory.md, 42_encoder.md
R204, 43_decoder.md R238), settled as O52 to O54. -/

section

namespace Sys2Proof.Machine

open Sys2Proof

/-- Settles O52: after reset the phase is IDLE, of which the invariant asks no more than the reset values give. -/
theorem invAtReset : Obligations.InvAtReset := by
  unfold Obligations.InvAtReset
  exact ⟨⟨List.Pairwise.nil, nofun⟩, cacheInv_zero rfl, by decide, fun _ => ⟨rfl, rfl⟩, nofun, nofun, nofun, nofun, nofun⟩

/-! The chunk steps (R160, R202, R238). -/

/-- R138, R160: a chunk keeps the cache's invariant. -/
theorem exec_cacheInv {i : Instr} {s t : State} (h : exec i s = .next t) (hi : CacheInv s) : CacheInv t := by
  obtain ⟨hcache, -⟩ := exec_completes h
  exact cacheInv_of_eq (complete_cacheInv (chunkPixel i s) s hi) hcache

/-- R61: a chunk keeps the raster memory canonical. -/
theorem exec_raster_wf {i : Instr} {s t : State} (h : exec i s = .next t) (hw : Memory.wf s.raster) :
    Memory.wf t.raster := by
  rw [exec_raster h]
  exact fillPixels_wf _ _ _ _ hw

/-- R238: a chunk never takes the cursor past N. -/
theorem exec_cur_le {i : Instr} {s t : State} (h : exec i s = .next t) (hc : s.cur.toNat ≤ s.n.toNat) :
    t.cur.toNat ≤ s.n.toNat := by
  rw [exec_cur_toNat h, clip]
  omega

/-! The invariant through the engine's moves. -/

/-- Two states with the same error record (R34). -/
def SameRecord (s t : State) : Prop :=
  t.errCode = s.errCode ∧ t.posValid = s.posValid ∧ t.errX = s.errX ∧ t.errY = s.errY

/-- A busy engine that keeps the error record and goes to no error keeps what the invariant says of the record; the rest is
said by the phase it goes to. -/
theorem Inv.of_sameRecord {s t : State} (hi : Inv s) (hb : busy s = true) (hrec : SameRecord s t) (he : t.phase ≠ .error)
    (hw : Memory.wf t.raster) (hc : CacheInv t) (hh : t.phase.header = false)
    (hs : t.phase.sized = true → t.n.toNat = t.width.toNat * t.height.toNat ∧ t.n.toNat ≤ t.rcap.toNat
      ∧ t.cur.toNat ≤ t.n.toNat)
    (ha : t.phase = .encTrl ∨ t.phase = .decTrl → t.cur = t.n)
    (ho : t.phase.encoding = true → t.bytes = BitVec.ofNat 64 t.output.length) : Inv t := by
  obtain ⟨hcode, hvalid, hx, hy⟩ := hrec
  have hnone : s.phase ≠ .error := by
    intro hp
    rw [busy_of_phase hp] at hb
    cases hb
  refine ⟨hw, hc, ?_, ?_, ?_, by simp [hh], hs, ha, ho⟩
  · rw [hcode]
    exact hi.errorIff.trans (by simp [he, hnone])
  · rw [hvalid, hx, hy]
    exact hi.noPosition
  · rw [hvalid, hcode]
    exact hi.position

/-- A busy engine that keeps the error record, memory and cache, and goes to DONE, keeps the invariant. -/
theorem Inv.of_done {s t : State} (hi : Inv s) (hb : busy s = true) (hrec : SameRecord s t) (hp : t.phase = .done)
    (hm : t.raster = s.raster) (hc : t.cache = s.cache) : Inv t := by
  refine hi.of_sameRecord hb hrec ?_ (hm ▸ hi.rasterWf) (cacheInv_of_eq hi.cacheInv hc) ?_ ?_ ?_ ?_ <;>
    simp [hp, Phase.header, Phase.sized, Phase.encoding]

/-- R26: bytes emitted keep BYTES the length of the output. -/
theorem emitted_outCount {s : State} (h : s.bytes = BitVec.ofNat 64 s.output.length) (bs : List Byte) :
    (emitted bs s).bytes = BitVec.ofNat 64 (emitted bs s).output.length := by
  simp [emitted, h, BitVec.ofNat_add]

/-- R306: error entry after transfers keeps the invariant. -/
theorem Inv.raise {s u : State} (hi : Inv s) (e : PassError) (hm : u.raster = s.raster) (hc : u.cache = s.cache)
    (he : inChunkStep u = true → e = .truncatedStream ∨ e = .ioError) : Inv (raise e u) :=
  raise_inv e u (hm ▸ hi.rasterWf) (cacheInv_of_eq hi.cacheInv hc) he

/-- R201, R231: the header step of either direction sets N to the pixel count of a raster that has room for it. -/
theorem Inv.sized_of_header {s t : State} (hi : Inv s) (hp : s.phase.header = true) (hcur : t.cur = s.cur)
    (ht : t.n = pixelCount t.width t.height) (hn : t.width.toNat * t.height.toNat ≤ t.rcap.toNat) :
    t.n.toNat = t.width.toNat * t.height.toNat ∧ t.n.toNat ≤ t.rcap.toNat ∧ t.cur.toNat ≤ t.n.toNat := by
  obtain ⟨hzero, -⟩ := hi.fresh hp
  have hcount := pixelCount_toNat t.width t.height
  rw [ht, hcur, hzero, hcount]
  exact ⟨rfl, hn, Nat.zero_le _⟩

/-- R205, R235: with no pixel left CUR is N. -/
theorem Inv.cur_eq_n {s : State} (hi : Inv s) (hp : s.phase.sized = true) (hc : s.n.toNat ≤ s.cur.toNat) : s.cur = s.n := by
  obtain ⟨-, -, hle⟩ := hi.sized hp
  exact BitVec.eq_of_toNat_eq (le_antisymm hle hc)

/-- R202, R238: a chunk step of either direction that moves CUR up to N at most, and keeps memory, cache and BYTES as the
invariant wants them, keeps the invariant. -/
theorem Inv.of_chunk {s t : State} (hi : Inv s) (hp : s.phase = .encBody ∨ s.phase = .decBody)
    (hrest : t = ((((s.setOutput t.output).setBytes t.bytes).setRaster t.raster).setCur t.cur |>.setCache t.cache).setPrev
      t.prev)
    (hw : Memory.wf t.raster) (hc : CacheInv t) (hcur : t.cur.toNat ≤ s.n.toNat)
    (ho : s.phase.encoding = true → t.bytes = BitVec.ofNat 64 t.output.length) : Inv t := by
  have hphase : t.phase = s.phase := by rw [hrest]; rfl
  obtain ⟨hn, hr, -⟩ := hi.sized (by rcases hp with hp | hp <;> rw [hp] <;> rfl)
  have hbusy : busy s = true := by rcases hp with hp | hp <;> exact busy_of_phase hp
  refine hi.of_sameRecord hbusy ?_ ?_ hw hc ?_ (fun _ => ?_) ?_ ?_
  · rw [hrest]; exact ⟨rfl, rfl, rfl, rfl⟩
  · rcases hp with hp | hp <;> simp [hphase, hp]
  · rcases hp with hp | hp <;> simp [hphase, hp, Phase.header]
  · rw [hrest]; exact ⟨hn, hr, hcur⟩
  · rcases hp with hp | hp <;> simp [hphase, hp]
  · rw [hphase]; exact ho

/-- Every move of the engine keeps the invariant. -/
theorem EngineMove.inv {s t : State} (h : EngineMove s t) (hi : Inv s) : Inv t := by
  cases h with
  | rest => exact hi
  | encOverflow hp => exact hi.raise _ (by simp) (by simp) (by simp [inChunkStep, hp])
  | encHeaderCut pre hp => exact hi.raise _ (by simp) (by simp) fun _ => .inr rfl
  | encChunkCut pre hp => exact hi.raise _ (by simp) (by simp) fun _ => .inr rfl
  | encTrailerCut pre hp => exact hi.raise _ (by simp) (by simp) fun _ => .inr rfl
  | readCut e k _ _ _ _ he => exact hi.raise _ (by simp) (by simp) he
  | decOverflow w ht ch cs hp => exact hi.raise _ (by simp) (by simp) (by simp [inChunkStep, hp])
  | encHeader hp hn =>
    have hs := hi.sized_of_header (t := (emitted (headerBytes s.magic s.width s.height s.channels 0)
      (s.setN (pixelCount s.width s.height))).setPhase .encBody) (by rw [hp]; rfl) (by simp) (by simp) (by simpa using hn)
    exact hi.of_sameRecord (busy_of_phase hp) (by simp [SameRecord]) nofun (by simpa using hi.rasterWf)
      (cacheInv_of_eq hi.cacheInv (by simp)) rfl (fun _ => hs) nofun
      fun _ => emitted_outCount (hi.outCount (by rw [hp]; rfl)) _
  | encChunk i n hp hc he =>
    obtain ⟨-, hr, -⟩ := hi.sized (by rw [hp]; rfl)
    obtain ⟨j, m, hj, ht⟩ := encChunkStep_completed hc hr he (by simp [hp])
    rw [ht]
    exact hi.of_chunk (.inl hp) rfl hi.rasterWf (complete_cacheInv _ _ (cacheInv_of_eq hi.cacheInv rfl))
      (hj.cur_toNat ▸ hj.inRaster) fun h => emitted_outCount (hi.outCount h) _
  | encEnd hp hc =>
    exact hi.of_sameRecord (busy_of_phase hp) (by simp [SameRecord]) nofun hi.rasterWf hi.cacheInv rfl
      (fun _ => hi.sized (by rw [hp]; rfl)) (fun _ => hi.cur_eq_n (by rw [hp]; rfl) hc)
      fun _ => hi.outCount (by rw [hp]; rfl)
  | encTrailer hp => exact hi.of_done (busy_of_phase hp) (by simp [SameRecord]) rfl (by simp) (by simp)
  | decHeader w ht ch cs hp hn =>
    have hs := hi.sized_of_header (t := ((withHeader w ht ch cs (consumed 14 s)).setN (pixelCount w ht)).setPhase .decBody)
      (by rw [hp]; rfl) (by simp) (by simp) (by simpa using hn)
    exact hi.of_sameRecord (busy_of_phase hp) (by simp [SameRecord]) nofun (by simpa using hi.rasterWf)
      (cacheInv_of_eq hi.cacheInv (by simp)) rfl (fun _ => hs) nofun nofun
  | decChunk i k _ hp hc _ _ hx =>
    obtain ⟨-, -, hle⟩ := hi.sized (by rw [hp]; rfl)
    have hcur := exec_cur_le (s := consumed k s) hx hle
    refine hi.of_chunk (.inr hp) ?_ (exec_raster_wf hx hi.rasterWf) (exec_cacheInv hx (cacheInv_of_eq hi.cacheInv rfl))
      hcur (by simp [hp, Phase.encoding])
    rw [exec_frame hx]
    rfl
  | decEnd hp hc =>
    exact hi.of_sameRecord (busy_of_phase hp) (by simp [SameRecord]) nofun hi.rasterWf hi.cacheInv rfl
      (fun _ => hi.sized (by rw [hp]; rfl)) (fun _ => hi.cur_eq_n (by rw [hp]; rfl) hc) nofun
  | decTrailer hp => exact hi.of_done (busy_of_phase hp) (by simp [SameRecord]) rfl (by simp) (by simp)
  | peek w ht ch cs hp => exact hi.of_done (busy_of_phase hp) (by simp [SameRecord]) rfl (by simp) (by simp)

/-! The invariant through the host's moves. -/

/-- R268: every start command gives the pass state the invariant asks of a header phase, with the output bound empty for an
encode pass. -/
theorem start_inv {s : State} (hw : Memory.wf s.raster) (out : List Byte) {p : Phase} (hp : p.header = true)
    (hout : p.encoding = true → out = []) : Inv (((passStart s).setOutput out).setPhase p) := by
  refine ⟨hw, cacheInv_zero rfl, ?_, fun _ => ⟨rfl, rfl⟩, nofun, fun _ => ⟨rfl, rfl, rfl, rfl, rfl⟩, ?_, ?_, fun h => ?_⟩
  · cases p <;> simp [Phase.header] at hp ⊢
  · cases p <;> simp [Phase.header, Phase.sized] at hp ⊢
  · cases p <;> simp [Phase.header] at hp ⊢
  · simp [hout h]

/-- A state at rest with no error meets the invariant when its memory and cache do (R266, R340). -/
theorem idle_inv {s : State} (hp : s.phase = .idle) (hw : Memory.wf s.raster) (hc : CacheInv s) (he : s.errCode = none)
    (hv : s.posValid = false) (hx : s.errX = 0) (hy : s.errY = 0) : Inv s :=
  ⟨hw, hc, by simp [he, hp], fun _ => ⟨hx, hy⟩, by simp [hv], by simp [hp, Phase.header], by simp [hp, Phase.sized],
    by simp [hp], by simp [hp, Phase.encoding]⟩

/-- Every move of the host and of the stream environment keeps the invariant. -/
theorem HostMove.inv {s t : State} (h : HostMove s t) (hi : Inv s) : Inv t := by
  have hbusy : ∀ {p : Prop}, busy s = false → busy s = true → p := fun hb hb' => absurd (hb.symm.trans hb') nofun
  cases h with
  | ignored => exact hi
  | width v hb => exact inv_of_eq hi rfl rfl rfl rfl rfl rfl rfl (hbusy hb)
  | height v hb => exact inv_of_eq hi rfl rfl rfl rfl rfl rfl rfl (hbusy hb)
  | channels v hb => exact inv_of_eq hi rfl rfl rfl rfl rfl rfl rfl (hbusy hb)
  | rcap v hb => exact inv_of_eq hi rfl rfl rfl rfl rfl rfl rfl (hbusy hb)
  | irqEn b => exact inv_of_eq hi rfl rfl rfl rfl rfl rfl rfl fun _ => ⟨rfl, rfl, rfl, rfl, rfl, rfl, rfl, rfl⟩
  | encode b hb => exact start_inv (s := s.setIrqEn b) hi.rasterWf [] rfl fun _ => rfl
  | decode b hb => exact start_inv (s := s.setIrqEn b) hi.rasterWf s.output rfl nofun
  | peek b hb => exact start_inv (s := s.setIrqEn b) hi.rasterWf s.output rfl nofun
  | clear b hb => exact idle_inv rfl hi.rasterWf (cacheInv_of_eq hi.cacheInv rfl) rfl rfl rfl rfl
  | read d => exact inv_of_eq hi rfl rfl rfl rfl rfl rfl rfl fun _ => ⟨rfl, rfl, rfl, rfl, rfl, rfl, rfl, rfl⟩
  | racedRead d k => exact inv_of_eq hi rfl rfl rfl rfl rfl rfl rfl fun _ => ⟨rfl, rfl, rfl, rfl, rfl, rfl, rfl, rfl⟩
  | reset => exact idle_inv rfl hi.rasterWf (cacheInv_zero rfl) rfl rfl rfl rfl
  | bindInput bs e => exact inv_of_eq hi rfl rfl rfl rfl rfl rfl rfl fun _ => ⟨rfl, rfl, rfl, rfl, rfl, rfl, rfl, rfl⟩
  | drawOutErr e => exact inv_of_eq hi rfl rfl rfl rfl rfl rfl rfl fun _ => ⟨rfl, rfl, rfl, rfl, rfl, rfl, rfl, rfl⟩
  | rasterWrite i px =>
    exact ⟨writePixel_wf _ _ _ hi.rasterWf, hi.cacheInv, hi.errorIff, hi.noPosition, hi.position, hi.fresh, hi.sized,
      hi.atEnd, hi.outCount⟩

/-- Every step that answers a next state keeps the invariant. -/
theorem Inv.step {s t : State} (hi : Inv s) (h : step s = .next t) : Inv t := by
  obtain ⟨es, -, hmove | hmove⟩ := step_move h
  · exact hmove.inv (setEvents_inv hi es)
  · exact hmove.inv (setEvents_inv hi es)

/-- Settles O53: the engine's moves by `EngineMove.inv`, the host's by `HostMove.inv`. -/
theorem invKept : Obligations.InvKept := by
  unfold Obligations.InvKept
  exact fun _ _ hi h => hi.step h

/-! Runs. -/

theorem run_succ_of_next {s t : State} (h : step s = .next t) (k : Nat) :
    Host.Core.run core (k + 1) s = Host.Core.run core k t := by
  have hcore : core.step s = .next t := h
  simp only [Host.Core.run]
  rw [hcore]

theorem run_succ_of_fault {s : State} {f : Fault} (h : step s = .fault f) (k : Nat) :
    Host.Core.run core (k + 1) s = .fault f := by
  have hcore : core.step s = .fault f := h
  simp only [Host.Core.run]
  rw [hcore]

theorem run_succ_of_refused {s : State} {r : Refusal} (h : step s = .refused r) (k : Nat) :
    Host.Core.run core (k + 1) s = .refused r := by
  have hcore : core.step s = .refused r := h
  simp only [Host.Core.run]
  rw [hcore]

/-- A run of one more step that ends in a next state is a step and then the rest of the run. -/
theorem run_succ_next {s t : State} {k : Nat} (h : Host.Core.run core (k + 1) s = .next t) :
    ∃ u, step s = .next u ∧ Host.Core.run core k u = .next t := by
  cases hs : step s with
  | next u => exact ⟨u, rfl, (run_succ_of_next hs k).symm.trans h⟩
  | fault f => cases (run_succ_of_fault hs k).symm.trans h
  | refused r => cases (run_succ_of_refused hs k).symm.trans h

/-! The raster's bounds (R204, R238). -/

/-- No event but the engine's step takes the fault of an engine access. -/
theorem eventStep_ne_rasterFault {e : Event} (he : e ≠ .engine) (s : State) : eventStep e s ≠ .fault .rasterOutOfRange := by
  cases e with
  | engine => exact absurd rfl he
  | regWrite off size v => simp only [eventStep, hostRegWrite, regAccess]; split_ifs <;> nofun
  | regRead off size => simp only [eventStep, hostRegRead, regAccess]; split_ifs <;> nofun
  | reset => nofun
  | bindInput bs e => simp only [eventStep, hostBindInput]; split_ifs <;> nofun
  | drawOutErr e => simp only [eventStep, drawOutErr]; split_ifs <;> nofun
  | rasterWrite i px => simp only [eventStep, hostRasterWrite]; split_ifs <;> nofun
  | rasterRead i => simp only [eventStep, hostRasterRead]; split_ifs <;> nofun
  | outputRead k =>
    simp only [eventStep, hostOutputRead]
    split
    · nofun
    · split_ifs <;> nofun

/-- In a state that meets the invariant no step takes the fault of an engine access. -/
theorem Inv.step_ne_rasterFault {s : State} (hi : Inv s) : Machine.step s ≠ .fault .rasterOutOfRange := by
  rcases hev : s.events with _ | ⟨e, es⟩
  · obtain ⟨t, ht⟩ := engine_completes hi
    rw [step_alone hev, ht]
    nofun
  · rw [step_event hev]
    by_cases he : e = .engine
    · obtain ⟨t, ht⟩ := engine_completes (setEvents_inv hi es)
      rw [he, eventStep, ht]
      nofun
    · exact eventStep_ne_rasterFault he _

/-- Settles O54: by induction on the number of steps, each of which keeps the invariant and takes no such fault. -/
theorem engineStaysInRaster : Obligations.EngineStaysInRaster := by
  unfold Obligations.EngineStaysInRaster
  intro s k hi
  induction k generalizing s with
  | zero => nofun
  | succ k ih =>
    cases hs : step s with
    | next u =>
      rw [run_succ_of_next hs]
      exact ih u (hi.step hs)
    | fault f =>
      rw [run_succ_of_fault hs]
      exact fun he => hi.step_ne_rasterFault (hs.trans he)
    | refused r =>
      rw [run_succ_of_refused hs]
      nofun

end Sys2Proof.Machine

end

/-! PROOFS. What an engine step leaves unchanged, how far the cursor moves, and the end of every pass (10_state.md R24;
43_decoder.md R241; 70_reset_and_hazards.md R350 to R352), settled as O50, O51, O55 and O56. -/

section

namespace Sys2Proof.Machine

open Sys2Proof

/-! What the engine's moves keep (R62, R72, R92, R270). -/

/-- What no move of the engine writes: the parameters, the host's settings, the input and the model's own fields. -/
structure SameHostSide (s t : State) : Prop where
  magic : t.magic = s.magic
  irqEn : t.irqEn = s.irqEn
  rcap : t.rcap = s.rcap
  input : t.input = s.input
  inErr : t.inErr = s.inErr
  outErr : t.outErr = s.outErr
  events : t.events = s.events
  lastRead : t.lastRead = s.lastRead
  raced : t.raced = s.raced

theorem EngineMove.sameHostSide {s t : State} (h : EngineMove s t) : SameHostSide s t := by
  cases h with
  | decChunk _ _ _ _ _ _ _ hx =>
    obtain ⟨_, _, _, _, rfl⟩ := exec_rest hx
    exact ⟨rfl, rfl, rfl, rfl, rfl, rfl, rfl, rfl, rfl⟩
  | _ => constructor <;> simp

theorem EngineMove.raster_eq {s t : State} (h : EngineMove s t) (hp : s.phase ≠ .decBody) : t.raster = s.raster := by
  cases h with
  | decChunk _ _ _ hd => exact absurd hd hp
  | _ => simp

/-- Outside the chunk steps the engine does not write the raster. -/
theorem EngineMove.raster_eq_of_no_chunk {s t : State} (h : EngineMove s t) (hn : inChunkStep s = false) :
    t.raster = s.raster := by
  cases h with
  | decChunk _ _ _ hp hc => simp [(inChunkStep_iff s).mpr ⟨.inr hp, hc⟩] at hn
  | _ => simp

theorem EngineMove.output_eq {s t : State} (h : EngineMove s t) (hp : s.phase.encoding = false) :
    t.output = s.output := by
  cases h with
  | encHeaderCut _ he => simp [he, Phase.encoding] at hp
  | encHeader he => simp [he, Phase.encoding] at hp
  | encChunkCut _ he => simp [he, Phase.encoding] at hp
  | encChunk _ _ he => simp [he, Phase.encoding] at hp
  | encTrailerCut _ he => simp [he, Phase.encoding] at hp
  | encTrailer he => simp [he, Phase.encoding] at hp
  | decChunk _ _ _ _ _ _ _ hx => obtain ⟨_, _, _, _, rfl⟩ := exec_rest hx; rfl
  | _ => simp

theorem EngineMove.header_eq {s t : State} (h : EngineMove s t) (hd : s.phase ≠ .decHdr) (hk : s.phase ≠ .peekHdr) :
    t.width = s.width ∧ t.height = s.height ∧ t.channels = s.channels ∧ t.colorspace = s.colorspace := by
  cases h with
  | decOverflow _ _ _ _ hp => exact absurd hp hd
  | decHeader _ _ _ _ hp => exact absurd hp hd
  | peek _ _ _ _ hp => exact absurd hp hk
  | decChunk _ _ _ _ _ _ _ hx => obtain ⟨_, _, _, _, rfl⟩ := exec_rest hx; exact ⟨rfl, rfl, rfl, rfl⟩
  | _ => simp

theorem EngineMove.n_eq {s t : State} (h : EngineMove s t) (he : s.phase ≠ .encHdr) (hd : s.phase ≠ .decHdr) :
    t.n = s.n := by
  cases h with
  | encOverflow hp => exact absurd hp he
  | encHeaderCut _ hp => exact absurd hp he
  | encHeader hp => exact absurd hp he
  | decOverflow _ _ _ _ hp => exact absurd hp hd
  | decHeader _ _ _ _ hp => exact absurd hp hd
  | decChunk _ _ _ _ _ _ _ hx => obtain ⟨_, _, _, _, rfl⟩ := exec_rest hx; rfl
  | _ => simp

/-- With no event pending, a step is a move of the engine. -/
theorem engineMove_of_step {s t : State} (hev : s.events = []) (h : step s = .next t) : EngineMove s t := by
  rw [step_alone hev] at h
  exact engineStep_move h

/-- Settles O50: move by move of the engine. -/
theorem engineStepFrame : Obligations.EngineStepFrame := by
  unfold Obligations.EngineStepFrame
  intro s t hev h
  have hmove := engineMove_of_step hev h
  obtain ⟨hmagic, hirq, hrcap, hin, hinErr, houtErr, hevents, hread, hraced⟩ := hmove.sameHostSide
  exact ⟨hmagic, hirq, hrcap, hin, hinErr, houtErr, hevents.trans hev, hread, hraced, hmove.raster_eq, hmove.output_eq,
    hmove.header_eq, hmove.n_eq⟩

/-! The cursor (R24, R238, R241, R351). -/

/-- A chunk step of either direction that raises no error moves the cursor on by 1 to 62 pixels, not past N, and counts 1
to 5 bytes. -/
theorem EngineMove.chunk_advance {s t : State} (h : EngineMove s t) (hi : Inv s) (hchunk : inChunkStep s = true)
    (ht : t.phase ≠ .error) :
    ∃ n j, 1 ≤ n ∧ n ≤ 62 ∧ s.cur.toNat + n ≤ s.n.toNat ∧ t.cur.toNat = s.cur.toNat + n
      ∧ 1 ≤ j ∧ j ≤ 5 ∧ t.bytes = s.bytes + BitVec.ofNat 64 j := by
  obtain ⟨hp, hlt⟩ := (inChunkStep_iff s).mp hchunk
  obtain ⟨-, hr, -⟩ := hi.sized (by rcases hp with hp | hp <;> rw [hp] <;> rfl)
  cases h with
  | encChunk _ _ _ _ he =>
    obtain ⟨i, n, hj, hu⟩ := encChunkStep_completed hlt hr he ht
    obtain ⟨h1, h5⟩ := encode_length i
    rw [hu]
    exact ⟨n, _, hj.atLeastOne, hj.atMost, hj.inRaster, hj.cur_toNat, h1, h5, rfl⟩
  | decChunk i k _ _ _ hk hn hx =>
    have hcur : t.cur.toNat = s.cur.toNat + clip (chunkCount i) s :=
      exec_cur_toNat (s := consumed k s) hx
    have hclip : 1 ≤ clip (chunkCount i) s := by rw [clip]; omega
    have hle := clip_le_left (chunkCount i) s
    refine ⟨_, k, hclip, by omega, cur_add_clip _ s hclip, hcur, hk.1, hk.2, ?_⟩
    rw [exec_frame hx]
    rfl
  | rest hb => rcases hp with hp | hp <;> simp [busy, hp, Phase.busy] at hb
  | encEnd _ hc => omega
  | decEnd _ hc => omega
  | encChunkCut => simp at ht
  | readCut => simp at ht
  | encOverflow he => simp [he] at hp
  | encHeaderCut _ he => simp [he] at hp
  | encHeader he => simp [he] at hp
  | encTrailerCut _ he => simp [he] at hp
  | encTrailer he => simp [he] at hp
  | decOverflow _ _ _ _ hd => simp [hd] at hp
  | decHeader _ _ _ _ hd => simp [hd] at hp
  | decTrailer hd => simp [hd] at hp
  | peek _ _ _ _ hk => simp [hk] at hp

/-- No other move of the engine moves the cursor. -/
theorem EngineMove.cur_eq {s t : State} (h : EngineMove s t) (hn : ¬ (inChunkStep s = true ∧ t.phase ≠ .error)) :
    t.cur = s.cur := by
  cases h with
  | encChunk _ _ hp hc => exact absurd ⟨(inChunkStep_iff s).mpr ⟨.inl hp, hc⟩, by simp [hp]⟩ hn
  | decChunk _ _ _ hp hc _ _ hx =>
    have ht : t.phase ≠ .error := by simp [exec_phase hx, hp]
    exact absurd ⟨(inChunkStep_iff s).mpr ⟨.inr hp, hc⟩, ht⟩ hn
  | _ => simp

/-- Settles O51: a chunk step by `EngineMove.chunk_advance`, every other by `EngineMove.cur_eq`. -/
theorem cursorAdvances : Obligations.CursorAdvances := by
  unfold Obligations.CursorAdvances
  intro s t hi hev h
  have hmove := engineMove_of_step hev h
  have hchunk := inChunkStep_iff s
  refine ⟨fun ⟨hp, hc, ht⟩ => ?_, fun hn => hmove.cur_eq (by rwa [hchunk, and_assoc])⟩
  obtain ⟨n, j, h1, h62, hin, hcur, hj1, hj5, hbytes⟩ := hmove.chunk_advance hi (hchunk.mpr ⟨hp, hc⟩) ht
  exact ⟨by omega, by omega, by omega, j, hj1, hj5, hbytes⟩

/-! The steps a pass has left (R350). -/

theorem stepsLeft_of_ended {s : State} (h : s.phase = .done ∨ s.phase = .error) : stepsLeft s = 0 := by
  rcases h with h | h <;> rw [stepsLeft, h]

theorem stepsLeft_pos {s : State} (h : busy s = true) : 0 < stepsLeft s := by
  cases hp : s.phase <;> simp [busy, Phase.busy, stepsLeft, hp] at h ⊢

theorem stepsLeft_body {s : State} (h : s.phase = .encBody ∨ s.phase = .decBody) :
    stepsLeft s = s.n.toNat - s.cur.toNat + 2 := by
  rcases h with h | h <;> rw [stepsLeft, h]

/-- R350: after its header step a pass has at most N + 2 steps left. -/
theorem stepsLeft_le {s : State} (h : s.phase.header = false) : stepsLeft s ≤ s.n.toNat + 2 := by
  cases hp : s.phase <;> simp [stepsLeft, Phase.header, hp] at h ⊢

/-- Every move of a busy engine brings the end of the pass closer. -/
theorem EngineMove.stepsLeft_lt {s t : State} (h : EngineMove s t) (hi : Inv s) (hb : busy s = true) :
    stepsLeft t < stepsLeft s := by
  by_cases hend : t.phase = .done ∨ t.phase = .error
  · rw [stepsLeft_of_ended hend]
    exact stepsLeft_pos hb
  rw [not_or] at hend
  obtain ⟨hdone, herr⟩ := hend
  by_cases hchunk : inChunkStep s = true
  · obtain ⟨hp, hc⟩ := (inChunkStep_iff s).mp hchunk
    obtain ⟨n, j, h1, -, hin, hcur, -⟩ := h.chunk_advance hi hchunk herr
    have hn : t.n = s.n := h.n_eq (by rcases hp with hp | hp <;> simp [hp]) (by rcases hp with hp | hp <;> simp [hp])
    have ht : t.phase = .encBody ∨ t.phase = .decBody := by
      have hedge := h.edge
      rcases hp with hp | hp <;> simp only [EngineEdge, hp, hc, if_true] at hedge <;> tauto
    rw [stepsLeft_body hp, stepsLeft_body ht, hn]
    omega
  · cases h with
    | rest hr => rw [hr] at hb; cases hb
    | encHeader hp =>
      rw [stepsLeft_body (.inl rfl), stepsLeft, hp]
      simp only [State.setPhase_n, emitted_n, State.setN_n, pixelCount_toNat]
      omega
    | decHeader w ht ch cs hp =>
      have hlt := (pixelCount w ht).isLt
      rw [stepsLeft_body (.inr rfl), stepsLeft, hp]
      simp only [State.setPhase_n, State.setN_n]
      omega
    | encEnd hp =>
      rw [stepsLeft_body (.inl hp)]
      exact Nat.succ_lt_succ (Nat.succ_pos _)
    | decEnd hp =>
      rw [stepsLeft_body (.inr hp)]
      exact Nat.succ_lt_succ (Nat.succ_pos _)
    | encChunk _ _ hp hc => exact absurd ((inChunkStep_iff s).mpr ⟨.inl hp, hc⟩) hchunk
    | decChunk _ _ _ hp hc => exact absurd ((inChunkStep_iff s).mpr ⟨.inr hp, hc⟩) hchunk
    | encTrailer => exact absurd rfl hdone
    | decTrailer => exact absurd rfl hdone
    | peek => exact absurd rfl hdone
    | _ => exact absurd (raise_phase _ _) herr

/-- R350, R351: the step of a busy engine in a state that meets the invariant completes, as a move of the engine. -/
theorem Inv.step_completes {s : State} (hi : Inv s) (hev : s.events = []) :
    ∃ t, Machine.step s = .next t ∧ EngineMove s t := by
  obtain ⟨t, ht⟩ := engine_completes hi
  exact ⟨t, (step_alone hev).trans ht, engineStep_move ht⟩

/-- Settles O55: the step completes and its move brings the end closer. -/
theorem everyStepProgresses : Obligations.EveryStepProgresses := by
  unfold Obligations.EveryStepProgresses
  intro s hi hev hb
  obtain ⟨t, ht, hmove⟩ := hi.step_completes hev
  exact ⟨t, ht, hmove.stepsLeft_lt hi hb⟩

/-! The end of every pass (R352). -/

/-- R29: no move of a busy engine goes to a header phase. -/
theorem EngineMove.header_eq_false {s t : State} (h : EngineMove s t) (hb : busy s = true) : t.phase.header = false := by
  cases h with
  | rest hr => rw [hr] at hb; cases hb
  | encChunk _ _ hp => simp [hp, Phase.header]
  | decChunk _ _ _ hp _ _ _ hx => simp [exec_phase hx, hp, Phase.header]
  | _ => simp [Phase.header]

/-- By induction on the steps left: a busy pass ends within them, and within N + 3 steps, N being set by its header step. -/
theorem Inv.run_ends {s : State} (hi : Inv s) (hev : s.events = []) (hb : busy s = true) :
    ∃ k t, k ≤ stepsLeft s ∧ Host.Core.run core k s = .next t ∧ (t.phase = .done ∨ t.phase = .error)
      ∧ k ≤ t.n.toNat + 3 ∧ (s.phase.header = false → t.n = s.n) := by
  induction hm : stepsLeft s using Nat.strong_induction_on generalizing s with
  | _ m ih =>
    obtain ⟨u, hu, hmove⟩ := hi.step_completes hev
    have hlt := hmove.stepsLeft_lt hi hb
    have hn : s.phase.header = false → u.n = s.n := fun hh =>
      hmove.n_eq (by rintro hp; simp [hp, Phase.header] at hh) (by rintro hp; simp [hp, Phase.header] at hh)
    cases hbu : busy u with
    | false =>
      exact ⟨1, u, by omega, run_succ_of_next hu 0, hmove.edge.ends hb hbu, by omega, hn⟩
    | true =>
      have hhu := hmove.header_eq_false hb
      obtain ⟨k, t, hk, hrun, hend, -, hnt⟩ :=
        ih _ (hm ▸ hlt) (hi.step hu) (hmove.sameHostSide.events.trans hev) hbu rfl
      have hle := stepsLeft_le hhu
      rw [← hnt hhu] at hle hn
      exact ⟨k + 1, t, by omega, (run_succ_of_next hu k).trans hrun, hend, by omega, hn⟩

/-- Settles O56: by `Inv.run_ends`. -/
theorem everyPassEnds : Obligations.EveryPassEnds := by
  unfold Obligations.EveryPassEnds
  intro s hi hev hb
  obtain ⟨k, t, hk, hrun, hend, hbound, -⟩ := hi.run_ends hev hb
  exact ⟨k, t, hk, hrun, hend, fun _ => hbound⟩

end Sys2Proof.Machine

end

/-! PROOFS. The length of the output of an encode pass (42_encoder.md R208), settled as O35. -/

section

namespace Sys2Proof.Machine

open Sys2Proof

/-- Outside an encode pass the bounds say nothing. -/
theorem outputBounds_of_not_encoding {s : State} (h : s.phase.encoding = false) : OutputBounds s := by
  constructor
  · intro hp; simp [hp, Phase.encoding] at h
  · rintro (hp | hp) <;> simp [hp, Phase.encoding] at h

/-- The bounds speak of PHASE, the output and the cursor alone. -/
theorem OutputBounds.of_eq {s t : State} (h : OutputBounds s) (hp : t.phase = s.phase) (ho : t.output = s.output)
    (hc : t.cur = s.cur) : OutputBounds t := by
  constructor
  · rw [hp, ho]; exact h.atHeader
  · rw [hp, ho, hc]; exact h.inBody

theorem afterEncChunk_output_length (i : Instr) (n : Nat) (s : State) :
    (afterEncChunk i n s).output.length = s.output.length + (encode i).length := by
  simp [afterEncChunk]

/-- R208: a chunk of 1 to 62 pixels takes 1 to 5 bytes, so it keeps the bounds. -/
theorem OutputBounds.afterEncChunk {i : Instr} {n : Nat} {s : State} (h : OutputBounds s) (hp : s.phase = .encBody)
    (hi : ChunkAtCursor i n s) : OutputBounds (afterEncChunk i n s) := by
  obtain ⟨hmin, hmax, hpixels⟩ := h.inBody (.inl hp)
  obtain ⟨h1, h5⟩ := encode_length i
  have hlength := afterEncChunk_output_length i n s
  have hcur := hi.cur_toNat
  have hone := hi.atLeastOne
  have h62 := hi.atMost
  refine ⟨fun he => ?_, fun _ => ?_⟩
  · cases hp.symm.trans he
  · rw [hlength, hcur]
    omega

/-- Every move of the engine keeps the bounds. -/
theorem EngineMove.outputBounds {s t : State} (h : EngineMove s t) (hi : Inv s) (hb : OutputBounds s) :
    OutputBounds t := by
  cases h with
  | rest => exact hb
  | encHeader hp =>
    obtain ⟨hcur, -⟩ := hi.fresh (by rw [hp]; rfl)
    refine ⟨nofun, fun _ => ?_⟩
    simp only [State.setPhase_output, emitted_output, State.setN_output, hb.atHeader hp, State.setPhase_cur, emitted_cur,
      State.setN_cur, hcur]
    exact ⟨le_rfl, le_rfl, le_rfl⟩
  | encChunk _ _ hp hc he =>
    obtain ⟨-, hr, -⟩ := hi.sized (by rw [hp]; rfl)
    obtain ⟨i, n, hj, ht⟩ := encChunkStep_completed hc hr he (by simp [hp])
    rw [ht]
    exact hb.afterEncChunk hp hj
  | encEnd hp => exact ⟨nofun, fun _ => hb.inBody (.inl hp)⟩
  | decChunk _ _ _ hp _ _ _ hx => exact outputBounds_of_not_encoding (by rw [exec_phase hx, consumed_phase, hp]; rfl)
  | _ => exact outputBounds_of_not_encoding (by simp [Phase.encoding])

/-- Every move of the host keeps the bounds: it writes neither output nor cursor but by starting a pass or a reset. -/
theorem HostMove.outputBounds {s t : State} (h : HostMove s t) (hb : OutputBounds s) : OutputBounds t := by
  cases h with
  | encode => exact ⟨fun _ => rfl, nofun⟩
  | decode => exact outputBounds_of_not_encoding rfl
  | peek => exact outputBounds_of_not_encoding rfl
  | clear => exact outputBounds_of_not_encoding rfl
  | reset => exact outputBounds_of_not_encoding rfl
  | _ => exact hb.of_eq rfl rfl rfl

/-- R206: an encode pass that ends in DONE has appended the end marker. -/
theorem EngineMove.encTrailer_output {s t : State} (h : EngineMove s t) (hp : s.phase = .encTrl) (ht : t.phase = .done) :
    t.output = s.output ++ trailerBytes := by
  cases h with
  | encTrailer => rfl
  | rest hb => simp [busy_of_phase hp, Phase.busy] at hb
  | _ => simp_all

/-- R29: no move of the host leads to DONE. -/
theorem HostMove.phase_ne_done {s t : State} (h : HostMove s t) (hp : s.phase ≠ .done) : t.phase ≠ .done := by
  cases h with
  | encode => simp
  | decode => simp
  | peek => simp
  | clear => simp
  | reset => simp
  | _ => simpa using hp

/-- Settles O35: the bounds are kept move by move, and at the end marker CUR = N. -/
theorem outputLengthBounds : Obligations.OutputLengthBounds := by
  unfold Obligations.OutputLengthBounds
  intro s t hi hb h
  obtain ⟨es, -, hmove⟩ := step_move h
  have hie := setEvents_inv hi es
  have hbe : OutputBounds (s.setEvents es) := hb.of_eq rfl rfl rfl
  refine ⟨?_, fun hp ht => ?_⟩
  · rcases hmove with hmove | hmove
    · exact hmove.outputBounds hie hbe
    · exact hmove.outputBounds hbe
  · rcases hmove with hmove | hmove
    · obtain ⟨hmin, hmax, hpixels⟩ := hb.inBody (.inr hp)
      have hlength := congrArg List.length (hmove.encTrailer_output hp ht)
      rw [List.length_append, show trailerBytes.length = 8 from rfl, State.setEvents_output] at hlength
      rw [hi.atEnd (.inl hp)] at hmax hpixels
      omega
    · exact absurd ht (hmove.phase_ne_done (by simp [hp]))

end Sys2Proof.Machine

end

/-! PROOFS. The decoder beside the encoder (41_chunks.md R173), settled as O59 and O60. -/

section

namespace Sys2Proof.Machine

open Sys2Proof

/-! The two engines side by side. -/

/-- R106: the pixel of a chunk depends on PREV and the cache alone. -/
theorem chunkPixel_congr {s t : State} (i : Instr) (hp : t.prev = s.prev) (hc : t.cache = s.cache) :
    chunkPixel i t = chunkPixel i s := by
  cases i <;> simp only [chunkPixel, hp, hc]

theorem Mirror.phase_eq {e d : State} (hm : Mirror e d) {p q : Phase} (hp : e.phase = p) (hq : mirrorPhase p = some q) :
    d.phase = q := by
  have hphases := hm.phases
  rw [hp, hq] at hphases
  exact (Option.some.inj hphases).symm

/-- A mirrored encode pass is no decode pass. -/
theorem Mirror.phase_ne {e d : State} (hm : Mirror e d) {p : Phase} (hp : mirrorPhase p = none) : e.phase ≠ p := by
  rintro rfl
  cases hp.symm.trans hm.phases

/-- R26, R173: BYTES of the decoder is the length of the encoder's output, while that fits 64 bits. -/
theorem Mirror.bytes_toNat {e d : State} (hm : Mirror e d) (he : e.phase.encoding = true)
    (hlen : e.output.length < 2 ^ 64) : d.bytes.toNat = e.output.length := by
  rw [hm.bytes, hm.invE.outCount he, BitVec.toNat_ofNat, Nat.mod_eq_of_lt hlen]

/-- R173: what the encoder appends to its output, the decoder's input holds next. -/
theorem Mirror.inputHolds {e d : State} (hm : Mirror e d) (he : e.phase.encoding = true) {bs : List Byte}
    (hpre : e.output ++ bs <+: d.input) (hlen : (e.output ++ bs).length < 2 ^ 64) : InputHolds d bs := by
  rw [List.length_append] at hlen
  have hbytes := hm.bytes_toNat he (by omega)
  obtain ⟨rest, hrest⟩ := hpre
  refine ⟨⟨rest, ?_⟩, fun x hx => ?_, by omega⟩
  · rw [hbytes, ← hrest, List.append_assoc, List.drop_left]
  · rw [hm.noInErr] at hx
    cases hx

/-- Two moves that keep the pass states, the dimensions and the finished pixels alike keep the mirror: the host's side does
not change, and the invariant is kept. -/
theorem Mirror.of_moves {e d e' d' : State} (hm : Mirror e d) (he : EngineMove e e') (hd : EngineMove d d')
    (hphases : mirrorPhase e'.phase = some d'.phase) (hbytes : d'.bytes = e'.bytes) (hcur : d'.cur = e'.cur)
    (hn : d'.n = e'.n) (hprev : d'.prev = e'.prev) (hcache : d'.cache = e'.cache)
    (hdims : d'.width = e'.width ∧ d'.height = e'.height ∧ d'.channels = e'.channels ∧ d'.colorspace = 0)
    (hended : e'.phase = .done → e'.cur = e'.n ∧ e'.n.toNat = e'.width.toNat * e'.height.toNat)
    (hraster : ∀ i, i < e'.cur.toNat → readPixel d'.raster i = readPixel e'.raster i) : Mirror e' d' := by
  have hostE := he.sameHostSide
  have hostD := hd.sameHostSide
  obtain ⟨hw, hh, -, -⟩ := he.header_eq (hm.phase_ne rfl) (hm.phase_ne rfl)
  exact
    { phases := hphases, bytes := hbytes, cur := hcur, n := hn, prev := hprev, cache := hcache, dims := fun _ => hdims,
      ended := hended, raster := hraster
      eventsE := hostE.events.trans hm.eventsE
      eventsD := hostD.events.trans hm.eventsD
      invE := he.inv hm.invE
      invD := hd.inv hm.invD
      magic := by rw [hostD.magic, hostE.magic, hm.magic]
      capacity := by rw [hostD.rcap, hw, hh]; exact hm.capacity
      noInErr := hostD.inErr.trans hm.noInErr }

/-! The steps, side by side. -/

/-- R201, R231: the header the encoder writes is the one the decoder reads. -/
theorem Mirror.header {e d : State} (hm : Mirror e d) (hp : e.phase = .encHdr)
    (hfits : e.width.toNat * e.height.toNat ≤ e.rcap.toNat)
    (hpre : e.output ++ headerBytes e.magic e.width e.height e.channels 0 <+: d.input)
    (hlen : (e.output ++ headerBytes e.magic e.width e.height e.channels 0).length < 2 ^ 64) :
    ∃ d', engineStep d = .next d' ∧ Mirror ((emitted (headerBytes e.magic e.width e.height e.channels 0)
      (e.setN (pixelCount e.width e.height))).setPhase .encBody) d' := by
  have hd := hm.phase_eq hp rfl
  have hholds := hm.inputHolds (by rw [hp]; rfl) hpre hlen
  rw [← hm.magic] at hholds
  obtain ⟨hzero, -⟩ := hm.invE.fresh (by rw [hp]; rfl)
  have hbytes : (headerBytes e.magic e.width e.height e.channels 0).length = 14 := rfl
  refine ⟨((withHeader e.width e.height e.channels 0 (consumed 14 d)).setN (pixelCount e.width e.height)).setPhase .decBody,
    ?_, hm.of_moves (.encHeader hp hfits) (.decHeader _ _ _ _ hd hm.capacity) rfl ?_ (by simp [hm.cur]) (by simp)
      (by simp [hm.prev]) (by simp [hm.cache]) (by simp) nofun ?_⟩
  · have hstep : engineStep d = decHeaderStep d := by rw [engineStep, hd]
    rw [hstep, decHeaderStep_of_fits (readHeader_of_holds hholds) (by simpa using hm.capacity), withHeader_width,
      withHeader_height]
  · simp only [consumed, emitted, hbytes, State.setPhase_bytes, State.setN_bytes, withHeader_bytes, State.setBytes_bytes,
      hm.bytes]
  · simp [hzero]

/-- R160, R173: the chunk the encoder emits at the cursor, the decoder reads and runs; it fills the same pixels and completes
the same one. -/
theorem Mirror.chunk {e d : State} (hm : Mirror e d) (hp : e.phase = .encBody) {i : Instr} {n : Nat}
    (hmove : EngineMove e (afterEncChunk i n e)) (hi : ChunkAtCursor i n e) (hpre : e.output ++ encode i <+: d.input)
    (hlen : (e.output ++ encode i).length < 2 ^ 64) :
    ∃ d', engineStep d = .next d' ∧ Mirror (afterEncChunk i n e) d' := by
  have hd := hm.phase_eq hp rfl
  have hone := hi.atLeastOne
  have hin := hi.inRaster
  have hpx : chunkPixel i d = readPixel e.raster e.cur.toNat :=
    (chunkPixel_congr i hm.prev hm.cache).trans hi.pixel
  have hclip : clip (chunkCount i) d = n := by rw [clip, hi.count, hm.cur, hm.n]; omega
  obtain ⟨-, hfits, -⟩ := hm.invD.sized (by rw [hd]; rfl)
  obtain ⟨d', hx, -⟩ := exec_effect i (s := consumed (encode i).length d) hm.invD.rasterWf hfits
  have hstep : engineStep d = .next d' := by
    rw [engineStep_decChunk hd (by rw [hm.cur, hm.n]; omega), ← hx]
    exact decChunkStep_of_holds_encode hi.wf (hm.inputHolds (by rw [hp]; rfl) hpre hlen)
  have hcur : d'.cur.toNat = d.cur.toNat + clip (chunkCount i) d :=
    exec_cur_toNat (s := consumed _ d) hx
  have hraster : d'.raster = fillPixels d.raster d.cur.toNat (chunkPixel i d) (clip (chunkCount i) d) :=
    exec_raster (s := consumed _ d) hx
  obtain ⟨hcache, hprev⟩ := exec_completes hx
  have hframe := exec_frame hx
  rw [hclip, hm.cur] at hcur
  rw [hclip, hm.cur, hpx] at hraster
  refine ⟨d', hstep, hm.of_moves hmove (engineStep_move hstep) ?_ ?_ ?_ ?_ ?_ ?_ ?_ ?_ fun j hj => ?_⟩
  · rw [exec_phase hx, consumed_phase, hd, afterEncChunk, complete_phase, State.setCur_phase, emitted_phase, hp]
    rfl
  · rw [hframe]
    exact congrArg (· + BitVec.ofNat 64 (encode i).length) hm.bytes
  · exact BitVec.eq_of_toNat_eq (hcur.trans hi.cur_toNat.symm)
  · rw [hframe]
    exact hm.n
  · exact hprev.trans hpx
  · rw [hcache, show chunkPixel i (consumed (encode i).length d) = readPixel e.raster e.cur.toNat from hpx,
      consumed_cache, hm.cache]
    rfl
  · rw [hframe]
    exact hm.dims (by simp [hp])
  · simp [afterEncChunk, hp]
  · rw [hi.cur_toNat] at hj
    rw [hraster]
    rcases Nat.lt_or_ge j e.cur.toNat with hlt | hge
    · rw [readPixel_fillPixels_outside _ _ _ _ _ (.inl hlt)]
      exact hm.raster j hlt
    · obtain ⟨k, rfl⟩ := Nat.exists_eq_add_of_le hge
      have hk : k < n := by omega
      rw [readPixel_fillPixels_inside _ _ _ _ _ hm.invD.rasterWf hk]
      exact (hi.allEqual k hk).symm

/-- R205, R235: the two chunk loops end together. -/
theorem Mirror.chunkEnd {e d : State} (hm : Mirror e d) (hp : e.phase = .encBody) (hc : e.n.toNat ≤ e.cur.toNat) :
    ∃ d', engineStep d = .next d' ∧ Mirror (e.setPhase .encTrl) d' := by
  have hd := hm.phase_eq hp rfl
  have hcd : d.n.toNat ≤ d.cur.toNat := by rw [hm.n, hm.cur]; exact hc
  have hstep : engineStep d = .next (d.setPhase .decTrl) := by
    rw [engineStep, hd]
    exact decBodyStep_of_end (hm.invD.cur_eq_n (by rw [hd]; rfl) hcd)
  exact ⟨_, hstep, hm.of_moves (.encEnd hp hc) (.decEnd hd hcd) rfl hm.bytes hm.cur hm.n hm.prev hm.cache
    (hm.dims (by simp [hp])) nofun hm.raster⟩

/-- R206, R236: the end marker the encoder writes ends the decode pass too. -/
theorem Mirror.trailer {e d : State} (hm : Mirror e d) (hp : e.phase = .encTrl)
    (hpre : e.output ++ trailerBytes <+: d.input) (hlen : (e.output ++ trailerBytes).length < 2 ^ 64) :
    ∃ d', engineStep d = .next d' ∧ Mirror ((emitted trailerBytes e).setPhase .done) d' := by
  have hd := hm.phase_eq hp rfl
  have hholds := hm.inputHolds (by rw [hp]; rfl) hpre hlen
  have hstep : engineStep d = .next ((consumed 8 d).setPhase .done) := by
    rw [engineStep, hd]
    exact (decTrailerStep_of_holds rfl hholds).trans (if_neg (not_not_intro rfl))
  obtain ⟨hn, -, -⟩ := hm.invE.sized (by rw [hp]; rfl)
  exact ⟨_, hstep, hm.of_moves (.encTrailer hp) (.decTrailer hd) rfl
    (congrArg (· + BitVec.ofNat 64 8) hm.bytes) (by simp [hm.cur]) (by simp [hm.n]) (by simp [hm.prev]) (by simp [hm.cache])
    (by simpa using hm.dims (by simp [hp])) (fun _ => ⟨hm.invE.atEnd (.inl hp), hn⟩) (by simpa using hm.raster)⟩

/-- R352: two passes that are DONE stand still together. -/
theorem Mirror.rest {e d : State} (hm : Mirror e d) (hb : busy e = false) : engineStep d = .next d := by
  have hp : e.phase = .done := by
    have hphases := hm.phases
    cases hp : e.phase <;> simp [busy, Phase.busy, mirrorPhase, hp] at hb hphases ⊢
  rw [engineStep, hm.phase_eq hp rfl]

/-- R173: for every move of the encoder without error, the decoder's step keeps the mirror. -/
theorem Mirror.step {e e' d : State} (hm : Mirror e d) (h : EngineMove e e') (herr : e'.phase ≠ .error)
    (hpre : e'.output <+: d.input) (hlen : e'.output.length < 2 ^ 64) :
    ∃ d', engineStep d = .next d' ∧ Mirror e' d' := by
  cases hmove : h with
  | rest hb => exact ⟨d, hm.rest hb, hm⟩
  | encHeader hp hn => exact hm.header hp hn hpre hlen
  | encChunk i n hp hc hx =>
    obtain ⟨-, hr, -⟩ := hm.invE.sized (by rw [hp]; rfl)
    obtain ⟨j, m, hj, ht⟩ := encChunkStep_completed hc hr hx herr
    rw [ht] at h hpre hlen ⊢
    exact hm.chunk hp h hj hpre hlen
  | encEnd hp hc => exact hm.chunkEnd hp hc
  | encTrailer hp => exact hm.trailer hp hpre hlen
  | decHeader _ _ _ _ hp => exact absurd hp (hm.phase_ne rfl)
  | decChunk _ _ _ hp => exact absurd hp (hm.phase_ne rfl)
  | decEnd hp => exact absurd hp (hm.phase_ne rfl)
  | decTrailer hp => exact absurd hp (hm.phase_ne rfl)
  | peek _ _ _ _ hp => exact absurd hp (hm.phase_ne rfl)
  | _ => exact absurd (raise_phase _ _) herr

/-- Settles O59: the encoder's step is a move of the engine, beside which the decoder moves by `Mirror.step`. -/
theorem decoderMirrorsEncoder : Obligations.DecoderMirrorsEncoder := by
  unfold Obligations.DecoderMirrorsEncoder
  intro e e' d hm h herr hpre hlen
  rw [step_alone hm.eventsD]
  exact hm.step (engineMove_of_step hm.eventsE h) herr hpre hlen

/-! Runs, side by side. -/

/-- R64: the output port only appends. -/
theorem EngineMove.output_prefix {s t : State} (h : EngineMove s t) : s.output <+: t.output := by
  cases h with
  | decChunk _ _ _ _ _ _ _ hx => obtain ⟨_, _, _, _, rfl⟩ := exec_rest hx; exact List.prefix_rfl
  | _ => simp

theorem run_output_prefix {k : Nat} {s t : State} (hev : s.events = []) (h : Host.Core.run core k s = .next t) :
    s.output <+: t.output := by
  induction k generalizing s with
  | zero => cases h; exact List.prefix_rfl
  | succ k ih =>
    obtain ⟨u, hu, hrun⟩ := run_succ_next h
    have hmove := engineMove_of_step hev hu
    exact hmove.output_prefix.trans (ih (hmove.sameHostSide.events.trans hev) hrun)

/-- R352: an engine at rest stays there. -/
theorem run_of_rest {k : Nat} {s t : State} (hev : s.events = []) (hb : busy s = false)
    (h : Host.Core.run core k s = .next t) : t = s := by
  induction k with
  | zero => cases h; rfl
  | succ k ih =>
    obtain ⟨u, hu, hrun⟩ := run_succ_next h
    rw [step_alone hev] at hu
    rw [engineStep_of_rest hb hu] at hrun
    exact ih hrun

/-- What an encode pass reads and no engine step of it writes (R72, R270). -/
def SameImage (s t : State) : Prop :=
  t.raster = s.raster ∧ t.width = s.width ∧ t.height = s.height ∧ t.channels = s.channels

/-- R173: beside an encode pass that ends in DONE, a decoder with the whole output as its input runs mirrored to the end. -/
theorem Mirror.run {k : Nat} {e e' d : State} (hm : Mirror e d) (hrun : Host.Core.run core k e = .next e')
    (hdone : e'.phase = .done) (hpre : e'.output <+: d.input) (hlen : e'.output.length < 2 ^ 64) :
    ∃ d', Host.Core.run core k d = .next d' ∧ Mirror e' d' ∧ SameImage e e' := by
  induction k generalizing e d with
  | zero => cases hrun; exact ⟨d, rfl, hm, rfl, rfl, rfl, rfl⟩
  | succ k ih =>
    obtain ⟨u, hu, hrest⟩ := run_succ_next hrun
    have hmove := engineMove_of_step hm.eventsE hu
    have hev : u.events = [] := hmove.sameHostSide.events.trans hm.eventsE
    have herr : u.phase ≠ .error := fun hp => by
      rw [run_of_rest hev (busy_of_phase hp) hrest, hp] at hdone
      cases hdone
    have hout := run_output_prefix hev hrest
    obtain ⟨v, hv, hmv⟩ := hm.step hmove herr (hout.trans hpre) (hout.length_le.trans_lt hlen)
    have hin : v.input = d.input := (engineStep_move hv).sameHostSide.input
    obtain ⟨d', hd', hmd, hraster, hw, hh, hch⟩ := ih hmv hrest (hin ▸ hpre)
    obtain ⟨hw', hh', hch', -⟩ := hmove.header_eq (hm.phase_ne rfl) (hm.phase_ne rfl)
    have hraster' := hmove.raster_eq (hm.phase_ne rfl)
    refine ⟨d', (run_succ_of_next ((step_alone hm.eventsD).trans hv) k).trans hd', hmd, ?_⟩
    exact ⟨hraster.trans hraster', hw.trans hw', hh.trans hh', hch.trans hch'⟩

/-- R268: an encode pass and a decode pass at their header steps stand alike. -/
theorem mirror_of_headers {e d : State} (hie : Inv e) (hid : Inv d) (hpe : e.phase = .encHdr) (hpd : d.phase = .decHdr)
    (hee : e.events = []) (hed : d.events = []) (hmagic : d.magic = e.magic) (hin : d.inErr = none)
    (hcap : e.width.toNat * e.height.toNat ≤ d.rcap.toNat) : Mirror e d := by
  obtain ⟨hcurE, hbytesE, hnE, hprevE, hcacheE⟩ := hie.fresh (by rw [hpe]; rfl)
  obtain ⟨hcurD, hbytesD, hnD, hprevD, hcacheD⟩ := hid.fresh (by rw [hpd]; rfl)
  exact
    { phases := by rw [hpe, hpd]; rfl
      eventsE := hee, eventsD := hed, invE := hie, invD := hid, magic := hmagic, capacity := hcap, noInErr := hin
      bytes := hbytesD.trans hbytesE.symm
      cur := hcurD.trans hcurE.symm
      n := hnD.trans hnE.symm
      prev := hprevD.trans hprevE.symm
      cache := hcacheD.trans hcacheE.symm
      dims := fun hne => absurd hpe hne
      ended := by simp [hpe]
      raster := by simp [hcurE] }

/-- Settles O60: the two passes start alike and run mirrored to DONE, where CUR = N = WIDTH * HEIGHT. -/
theorem decodeOfEncodedRaster : Obligations.DecodeOfEncodedRaster := by
  unfold Obligations.DecodeOfEncodedRaster
  intro k e e' d hie hpe hee hrun hdone hlen hid hpd hed hin hinErr hmagic hcap
  have hm := mirror_of_headers hie hid hpe hpd hee hed hmagic hinErr hcap
  obtain ⟨d', hrunD, hmd, hraster, hw, hh, hch⟩ := hm.run hrun hdone (by rw [hin]) hlen
  obtain ⟨hcur, hn⟩ := hmd.ended hdone
  obtain ⟨hwD, hhD, hchD, hcsD⟩ := hmd.dims (by simp [hdone])
  refine ⟨d', hrunD, hmd.phase_eq hdone rfl, hwD.trans hw, hhD.trans hh, hchD.trans hch, hcsD, hmd.cache, hmd.prev,
    fun i hi => ?_⟩
  rw [← hw, ← hh, ← hn, ← hcur] at hi
  rw [hmd.raster i hi, hraster]

end Sys2Proof.Machine

end

/-! PROOFS. What a decode pass writes, and that it does not depend on the raster before it (43_decoder.md R238, R242), settled
as O57. -/

section

namespace Sys2Proof.Machine

open Sys2Proof

/-! A step on a state changed in fields the step does not read. -/

/-- The transfers with the states they end in changed by `f`. -/
def Xfer.map {α : Type} (f : State → State) : Xfer α → Xfer α
  | .ok a s => .ok a (f s)
  | .raised s => .raised (f s)

/-- The outcome with its next state changed by `f`. -/
def mapNext (f : State → State) : Host.Outcome State Fault Refusal → Host.Outcome State Fault Refusal
  | .next s => .next (f s)
  | .fault r => .fault r
  | .refused r => .refused r

theorem Xfer.andThen_map {α β : Type} {f : State → State} {g : α → State → Xfer β}
    (h : ∀ a s, g a (f s) = (g a s).map f) (x : Xfer α) : (x.map f).andThen g = (x.andThen g).map f := by
  cases x with
  | ok a s => exact h a s
  | raised s => rfl

theorem Xfer.finish_map {α : Type} {f : State → State} {g : α → State → Host.Outcome State Fault Refusal}
    (h : ∀ a s, g a (f s) = mapNext f (g a s)) (x : Xfer α) : (x.map f).finish g = mapNext f (x.finish g) := by
  cases x with
  | ok a s => exact h a s
  | raised s => rfl

/-! Reading does not look at the raster (R63, R231, R234, R236). -/

theorem nextByte_of_failing {s : State} (hf : portFails s.inErr s.bytes.toNat = true) :
    nextByte s = .raised (raise .ioError s) := by
  simp only [nextByte, inRead, hf, if_true]

theorem nextByte_of_missing {s : State} (h : s.input[s.bytes.toNat]? = none)
    (hf : portFails s.inErr s.bytes.toNat = false) : nextByte s = .raised (raise .truncatedStream s) := by
  simp only [nextByte, inRead, hf, h, Bool.false_eq_true, if_false]

section Reading

variable (m : Memory)

theorem raise_setRaster (e : PassError) (s : State) : raise e (s.setRaster m) = (raise e s).setRaster m := by
  simp only [raise, show inChunkStep (s.setRaster m) = inChunkStep s from rfl]
  split <;> rfl

theorem nextByte_setRaster (s : State) : nextByte (s.setRaster m) = (nextByte s).map (·.setRaster m) := by
  cases hf : portFails s.inErr s.bytes.toNat with
  | true =>
    rw [nextByte_of_failing hf, nextByte_of_failing (s := s.setRaster m) hf, raise_setRaster]
    rfl
  | false =>
    cases hv : s.input[s.bytes.toNat]? with
    | some v =>
      rw [nextByte_of_ready hv hf, nextByte_of_ready (s := s.setRaster m) hv hf]
      rfl
    | none =>
      rw [nextByte_of_missing hv hf, nextByte_of_missing (s := s.setRaster m) hv hf, raise_setRaster]
      rfl

theorem readBytes_setRaster (k : Nat) (s : State) :
    readBytes k (s.setRaster m) = (readBytes k s).map (·.setRaster m) := by
  induction k generalizing s with
  | zero => rfl
  | succ k ih =>
    rw [readBytes, nextByte_setRaster, Xfer.andThen_map]
    · rfl
    · intro v t
      rw [ih, Xfer.andThen_map]
      exact fun _ _ => rfl

theorem readHeader_setRaster (s : State) : readHeader (s.setRaster m) = (readHeader s).map (·.setRaster m) := by
  rw [readHeader, readBytes_setRaster, Xfer.andThen_map]
  · rfl
  · intro bs t
    by_cases hm : bs ≠ t.magic.toBytes
    · rw [if_pos hm, if_pos (by simpa using hm), raise_setRaster, Xfer.map]
    · rw [if_neg hm, if_neg (by simpa using hm), readBytes_setRaster, Xfer.andThen_map]
      exact fun _ _ => rfl

theorem fetch_setRaster (s : State) : fetch (s.setRaster m) = (fetch s).map (·.setRaster m) := by
  rw [fetch, nextByte_setRaster, Xfer.andThen_map]
  · rfl
  · intro b0 t
    rw [readBytes_setRaster, Xfer.andThen_map]
    intro payload u
    cases decode (b0 :: payload) with
    | ok r => rfl
    | error e => exact congrArg Xfer.raised (raise_setRaster m _ u)

theorem decHeaderStep_setRaster (s : State) :
    decHeaderStep (s.setRaster m) = mapNext (·.setRaster m) (decHeaderStep s) := by
  rw [decHeaderStep, readHeader_setRaster, Xfer.finish_map]
  · rfl
  · intro _ t
    by_cases hn : t.rcap.toNat < (pixelCount t.width t.height).toNat
    · refine (if_pos hn).trans (Eq.trans ?_ (congrArg (mapNext _) (if_pos hn).symm))
      exact congrArg Host.Outcome.next (raise_setRaster m _ (t.setN _))
    · refine (if_neg hn).trans (Eq.trans ?_ (congrArg (mapNext _) (if_neg hn).symm))
      rfl

theorem decTrailerStep_setRaster (s : State) :
    decTrailerStep (s.setRaster m) = mapNext (·.setRaster m) (decTrailerStep s) := by
  rw [decTrailerStep, readBytes_setRaster, Xfer.finish_map]
  · rfl
  · intro bs t
    by_cases hm : bs ≠ trailerBytes
    · rw [if_pos hm, if_pos hm, raise_setRaster, mapNext]
    · rw [if_neg hm, if_neg hm]
      rfl

end Reading

/-- A chunk over another raster does the same but to the raster, where it fills the same pixels. -/
theorem exec_setRaster {i : Instr} {s t : State} (h : exec i s = .next t) (m : Memory) :
    exec i (s.setRaster m)
      = .next (t.setRaster (fillPixels m s.cur.toNat (chunkPixel i s) (clip (chunkCount i) s))) := by
  rw [exec_eq] at h ⊢
  have hfits : clip (chunkCount i) s = 0 ∨ s.cur.toNat + clip (chunkCount i) s ≤ s.rcap.toNat := by
    by_contra hno
    cases (writeChunk_fault _ _ s hno).symm.trans h
  rw [writeChunk_next h, chunkPixel_congr (s := s) i rfl rfl]
  exact writeChunk_of_fits _ _ (s.setRaster m) hfits

/-! A decode pass over another raster (R238, R242). -/

/-- The raster `m` holds the same pixels below the cursor as that of `s`. -/
def SameBelowCursor (m : Memory) (s : State) : Prop :=
  Memory.wf m ∧ ∀ i, i < s.cur.toNat → readPixel m i = readPixel s.raster i

/-- A chunk fills the same pixels of another raster, so it stays alike below the cursor. -/
theorem exec_sameBelowCursor {i : Instr} {s t : State} {m : Memory} (h : exec i s = .next t) (hw : Memory.wf s.raster)
    (hm : SameBelowCursor m s) :
    ∃ m', exec i (s.setRaster m) = .next (t.setRaster m') ∧ SameBelowCursor m' t := by
  obtain ⟨hwf, hsame⟩ := hm
  refine ⟨_, exec_setRaster h m, fillPixels_wf _ _ _ _ hwf, fun j hj => ?_⟩
  rw [exec_cur_toNat h] at hj
  rw [exec_raster h]
  rcases Nat.lt_or_ge j s.cur.toNat with hlt | hge
  · rw [readPixel_fillPixels_outside _ _ _ _ _ (.inl hlt), readPixel_fillPixels_outside _ _ _ _ _ (.inl hlt)]
    exact hsame j hlt
  · obtain ⟨k, rfl⟩ := Nat.exists_eq_add_of_le hge
    have hk : k < clip (chunkCount i) s := by omega
    rw [readPixel_fillPixels_inside _ _ _ _ _ hwf hk, readPixel_fillPixels_inside _ _ _ _ _ hw hk]

/-- R234: a decode chunk step over a raster alike below the cursor does the same, and the rasters stay alike there. -/
theorem decChunkStep_sameBelowCursor {s t : State} {m : Memory} (h : decChunkStep s = .next t) (hw : Memory.wf s.raster)
    (hm : SameBelowCursor m s) :
    ∃ m', decChunkStep (s.setRaster m) = .next (t.setRaster m') ∧ SameBelowCursor m' t := by
  simp only [decChunkStep, fetch_setRaster] at h ⊢
  cases hf : fetch s with
  | ok i u =>
    rw [hf, Xfer.finish_ok] at h
    obtain ⟨-, k, -, -, rfl⟩ := fetch_ok hf
    exact exec_sameBelowCursor (s := consumed k s) h hw hm
  | raised u =>
    rw [hf, Xfer.finish_raised] at h
    cases h
    obtain ⟨k, e, -, -, rfl⟩ := fetch_raised hf
    refine ⟨m, rfl, hm.1, ?_⟩
    simpa using hm.2

/-- A decode pass, from its header step to its end (R231 to R236). -/
structure DecodePass (s : State) : Prop where
  inv : Inv s
  alone : s.events = []
  notEncoding : s.phase.encoding = false
  notPeek : s.phase ≠ .peekHdr
  ended : s.phase = .done → s.cur = s.n ∧ s.n.toNat = s.width.toNat * s.height.toNat

theorem DecodePass.move {s t : State} (hs : DecodePass s) (h : EngineMove s t) : DecodePass t := by
  refine ⟨h.inv hs.inv, h.sameHostSide.events.trans hs.alone, ?_, ?_, ?_⟩ <;> have henc := hs.notEncoding
  · cases h with
    | rest => exact henc
    | decChunk _ _ _ hp _ _ _ hx => rw [exec_phase hx, consumed_phase, hp]; rfl
    | encHeader hp => rw [hp] at henc; cases henc
    | encChunk _ _ hp => rw [hp] at henc; cases henc
    | encEnd hp => rw [hp] at henc; cases henc
    | _ => simp [Phase.encoding]
  · cases h with
    | rest => exact hs.notPeek
    | decChunk _ _ _ hp _ _ _ hx => simp [exec_phase hx, hp]
    | encChunk _ _ hp => simp [hp]
    | _ => simp
  · intro ht
    cases h with
    | rest => exact hs.ended ht
    | decTrailer hp =>
      obtain ⟨hn, -, -⟩ := hs.inv.sized (by rw [hp]; rfl)
      exact ⟨by simpa using hs.inv.atEnd (.inr hp), by simpa using hn⟩
    | encTrailer hp => rw [hp] at henc; cases henc
    | peek _ _ _ _ hp => exact absurd hp hs.notPeek
    | decChunk _ _ _ hp _ _ _ hx => simp [exec_phase hx, hp] at ht
    | encChunk _ _ hp => simp [hp] at ht
    | _ => simp at ht

/-- R29: outside the chunk steps and the encode passes the engine's step does not look at the raster. -/
theorem engineStep_setRaster {s : State} (henc : s.phase.encoding = false) (hpeek : s.phase ≠ .peekHdr)
    (hn : inChunkStep s = false) (m : Memory) : engineStep (s.setRaster m) = mapNext (·.setRaster m) (engineStep s) := by
  rw [engineStep, engineStep, State.setRaster_phase]
  cases hp : s.phase with
  | idle => rfl
  | done => rfl
  | error => rfl
  | decHdr => exact decHeaderStep_setRaster m s
  | decTrl => exact decTrailerStep_setRaster m s
  | decBody =>
    have hc : ¬ s.cur.toNat < s.n.toNat := fun hc => by simp [(inChunkStep_iff s).mpr ⟨.inr hp, hc⟩] at hn
    refine (if_neg hc).trans (Eq.trans ?_ (congrArg (mapNext _) (if_neg hc).symm))
    rfl
  | peekHdr => exact absurd hp hpeek
  | encHdr => rw [hp] at henc; cases henc
  | encBody => rw [hp] at henc; cases henc
  | encTrl => rw [hp] at henc; cases henc

/-- A step of a decode pass over a raster alike below the cursor does the same, and the rasters stay alike there. -/
theorem DecodePass.step_sameBelowCursor {s t : State} {m : Memory} (hs : DecodePass s) (h : engineStep s = .next t)
    (hm : SameBelowCursor m s) :
    ∃ m', engineStep (s.setRaster m) = .next (t.setRaster m') ∧ SameBelowCursor m' t := by
  cases hchunk : inChunkStep s with
  | true =>
    obtain ⟨hp | hp, hc⟩ := (inChunkStep_iff s).mp hchunk
    · have henc := hs.notEncoding
      rw [hp] at henc
      cases henc
    · rw [engineStep_decChunk hp hc] at h
      rw [engineStep_decChunk (s := s.setRaster m) hp hc]
      exact decChunkStep_sameBelowCursor h hs.inv.rasterWf hm
  | false =>
    have hmove := engineStep_move h
    have hcur := hmove.cur_eq (by simp [hchunk])
    have hraster := hmove.raster_eq_of_no_chunk hchunk
    refine ⟨m, ?_, hm.1, ?_⟩
    · rw [engineStep_setRaster hs.notEncoding hs.notPeek hchunk, h]
      rfl
    · rw [hcur, hraster]
      exact hm.2

/-- R238: a decode pass writes no raster byte from the cursor on, and the cursor never moves back. -/
theorem DecodePass.step_above_cursor {s t : State} (hs : DecodePass s) (h : EngineMove s t) :
    s.cur.toNat ≤ t.cur.toNat ∧ ∀ a, 4 * t.cur.toNat ≤ a → Memory.read t.raster a = Memory.read s.raster a := by
  cases hchunk : inChunkStep s with
  | false => simp [h.cur_eq (by simp [hchunk]), h.raster_eq_of_no_chunk hchunk]
  | true =>
    cases h with
    | decChunk i k _ _ _ _ _ hx =>
      have hcur : t.cur.toNat = s.cur.toNat + clip (chunkCount i) s := exec_cur_toNat (s := consumed k s) hx
      refine ⟨by omega, fun a ha => ?_⟩
      rw [exec_raster hx]
      exact read_fillPixels_outside _ _ _ _ _ (.inr (hcur ▸ ha))
    | encChunk _ _ hp => have henc := hs.notEncoding; rw [hp] at henc; cases henc
    | _ => simp

/-- R242: along a decode pass, over its own raster and over another one that is alike below the cursor. -/
theorem DecodePass.run {k : Nat} {s t : State} (hs : DecodePass s) (h : Host.Core.run core k s = .next t) :
    DecodePass t ∧ s.cur.toNat ≤ t.cur.toNat
      ∧ (∀ a, 4 * t.cur.toNat ≤ a → Memory.read t.raster a = Memory.read s.raster a)
      ∧ ∀ m, SameBelowCursor m s →
        ∃ m', Host.Core.run core k (s.setRaster m) = .next (t.setRaster m') ∧ SameBelowCursor m' t := by
  induction k generalizing s with
  | zero => cases h; exact ⟨hs, le_rfl, fun _ _ => rfl, fun m hm => ⟨m, rfl, hm⟩⟩
  | succ k ih =>
    obtain ⟨u, hu, hrun⟩ := run_succ_next h
    have hmove := engineMove_of_step hs.alone hu
    obtain ⟨hle, hread⟩ := hs.step_above_cursor hmove
    obtain ⟨ht, hle', hread', hrun'⟩ := ih (hs.move hmove) hrun
    refine ⟨ht, hle.trans hle', fun a ha => (hread' a ha).trans (hread a (by omega)), fun m hm => ?_⟩
    obtain ⟨m₁, hm₁, hsame⟩ := hs.step_sameBelowCursor (step_alone hs.alone ▸ hu) hm
    obtain ⟨m', hm', hsame'⟩ := hrun' m₁ hsame
    exact ⟨m', (run_succ_of_next ((step_alone (s := s.setRaster m) hs.alone).trans hm₁) k).trans hm', hsame'⟩

/-- Settles O57: below the cursor a fresh pass, with CUR = 0, is alike over every raster. -/
theorem decodePassWritesBelowCursor : Obligations.DecodePassWritesBelowCursor := by
  unfold Obligations.DecodePassWritesBelowCursor
  intro k s t hi hp hev h
  have hs : DecodePass s := ⟨hi, hev, by rw [hp]; rfl, by simp [hp], by simp [hp]⟩
  obtain ⟨hcur, -⟩ := hi.fresh (by rw [hp]; rfl)
  obtain ⟨ht, -, hread, hrun⟩ := hs.run h
  refine ⟨hread, fun m hm => ?_, ht.ended⟩
  obtain ⟨m', hm', -, hsame⟩ := hrun m ⟨hm, by simp [hcur]⟩
  exact ⟨m', hm', hsame⟩

end Sys2Proof.Machine

end

/-! PROOFS. What an encode pass does not depend on (42_encoder.md R200; 70_reset_and_hazards.md R342), settled as O58. -/

section

namespace Sys2Proof.Machine

open Sys2Proof

/-! The host's side of a state, which an encode pass may read only the raster's pixels of. -/

/-- The state `s` with the raster and its capacity, the input and all else that is no operand of an encode pass taken from
`h` (R200). -/
def withHostOf (h s : State) : State :=
  { s with
    colorspace := h.colorspace, rcap := h.rcap, raster := h.raster, input := h.input, inErr := h.inErr, irqEn := h.irqEn,
    lastRead := h.lastRead, raced := h.raced }

section HostSide

variable (h s : State)

@[simp] theorem withHostOf_phase : (withHostOf h s).phase = s.phase := rfl
@[simp] theorem withHostOf_bytes : (withHostOf h s).bytes = s.bytes := rfl
@[simp] theorem withHostOf_outErr : (withHostOf h s).outErr = s.outErr := rfl
@[simp] theorem withHostOf_rcap : (withHostOf h s).rcap = h.rcap := rfl
@[simp] theorem withHostOf_raster : (withHostOf h s).raster = h.raster := rfl
@[simp] theorem withHostOf_cur : (withHostOf h s).cur = s.cur := rfl
@[simp] theorem withHostOf_n : (withHostOf h s).n = s.n := rfl
@[simp] theorem withHostOf_prev : (withHostOf h s).prev = s.prev := rfl

theorem raise_withHostOf (e : PassError) : raise e (withHostOf h s) = withHostOf h (raise e s) := by
  simp only [raise, show inChunkStep (withHostOf h s) = inChunkStep s from rfl]
  split <;> rfl

theorem outWrite_withHostOf (v : Byte) :
    outWrite v (withHostOf h s) = ((outWrite v s).1, withHostOf h (outWrite v s).2) := by
  cases hf : portFails s.outErr s.bytes.toNat <;>
    simp only [outWrite, withHostOf_outErr, withHostOf_bytes, hf, Bool.false_eq_true, if_true, if_false]
  rfl

/-- Emission looks at the port's draw and BYTES alone (R64). -/
theorem emit_withHostOf (bs : List Byte) : emit bs (withHostOf h s) = (emit bs s).map (withHostOf h) := by
  induction bs generalizing s with
  | nil => rfl
  | cons v vs ih =>
    rw [emit, emit, outWrite_withHostOf]
    rcases outWrite v s with ⟨_ | _, t⟩
    · exact ih t
    · exact congrArg Xfer.raised (raise_withHostOf h t _)

theorem emitChunk_withHostOf (i : Instr) (n : Nat) (px : Pixel) :
    emitChunk i n px (withHostOf h s) = mapNext (withHostOf h) (emitChunk i n px s) := by
  rw [emitChunk, emit_withHostOf, Xfer.finish_map]
  · rfl
  · exact fun _ _ => rfl

theorem encTrailerStep_withHostOf : encTrailerStep (withHostOf h s) = mapNext (withHostOf h) (encTrailerStep s) := by
  rw [encTrailerStep, emit_withHostOf, Xfer.finish_map]
  · rfl
  · exact fun _ _ => rfl

end HostSide

/-! A pass over the same pixels. -/

/-- The image fits the raster of both, and its pixels are the same in both. -/
structure SamePixels (h s : State) : Prop where
  fits : s.width.toNat * s.height.toNat ≤ s.rcap.toNat
  fitsToo : s.width.toNat * s.height.toNat ≤ h.rcap.toNat
  pixels : ∀ i, i < s.width.toNat * s.height.toNat → readPixel h.raster i = readPixel s.raster i

theorem SamePixels.rasterRead {h s : State} (hs : SamePixels h s) {i : Nat} (hi : i < s.width.toNat * s.height.toNat) :
    rasterRead (withHostOf h s) i = rasterRead s i := by
  have hfits := hs.fits
  have hfitsToo := hs.fitsToo
  simp only [Machine.rasterRead, withHostOf_rcap, withHostOf_raster, hs.pixels i hi]
  rw [if_pos (by omega), if_pos (by omega)]

/-- R203: the run measurement reads pixels of the image only. -/
theorem SamePixels.runLengthFrom {h s : State} (hs : SamePixels h s) (hn : s.n.toNat = s.width.toNat * s.height.toNat)
    (n fuel : Nat) : runLengthFrom (withHostOf h s) n fuel = runLengthFrom s n fuel := by
  induction fuel generalizing n with
  | zero => rfl
  | succ fuel ih =>
    simp only [Machine.runLengthFrom, withHostOf_cur, withHostOf_n, withHostOf_prev, ih]
    split_ifs with hlt
    · rw [hs.rasterRead (by omega)]
    · rfl

/-- R202: an encode chunk step reads pixels of the image only. -/
theorem SamePixels.encChunkStep {h s : State} (hs : SamePixels h s) (hn : s.n.toNat = s.width.toNat * s.height.toNat)
    (hc : s.cur.toNat < s.n.toNat) : encChunkStep (withHostOf h s) = mapNext (withHostOf h) (encChunkStep s) := by
  simp only [Machine.encChunkStep, runLength, withHostOf_cur, withHostOf_prev, hs.rasterRead (hn ▸ hc),
    hs.runLengthFrom hn]
  cases Machine.rasterRead s s.cur.toNat with
  | error f => rfl
  | ok px =>
    by_cases hp : px = s.prev
    · simp only [if_pos hp]
      cases Machine.runLengthFrom s 1 (runMax - 1) with
      | error f => rfl
      | ok n => exact emitChunk_withHostOf h s _ _ _
    · simp only [if_neg hp]
      exact emitChunk_withHostOf h s _ _ _

/-- R201: with room for the image in both rasters, the header step does not look at either. -/
theorem SamePixels.encHeaderStep {h s : State} (hs : SamePixels h s) :
    encHeaderStep (withHostOf h s) = mapNext (withHostOf h) (encHeaderStep s) := by
  rw [encHeaderStep_of_fits hs.fits, encHeaderStep_of_fits (s := withHostOf h s) hs.fitsToo]
  refine Eq.trans (congrArg (Xfer.finish · _) (emit_withHostOf h (s.setN _) _)) (Xfer.finish_map ?_ _)
  exact fun _ _ => rfl

/-- An encode pass, from its header step to its end (R201 to R206). -/
structure EncodePass (s : State) : Prop where
  inv : Inv s
  alone : s.events = []
  encodes : busy s = true → s.phase.encoding = true

theorem EncodePass.phase_ne {s : State} (hs : EncodePass s) {p : Phase} (hb : p.busy = true) (he : p.encoding = false) :
    s.phase ≠ p := by
  rintro rfl
  cases he.symm.trans (hs.encodes hb)

theorem EncodePass.move {s t : State} (hs : EncodePass s) (h : EngineMove s t) : EncodePass t := by
  refine ⟨h.inv hs.inv, h.sameHostSide.events.trans hs.alone, ?_⟩
  cases h with
  | rest => exact hs.encodes
  | encHeader => exact fun _ => rfl
  | encChunk _ _ hp => intro; rw [complete_phase, State.setCur_phase, emitted_phase, hp]; rfl
  | encEnd => exact fun _ => rfl
  | encTrailer => nofun
  | decHeader _ _ _ _ hp => exact absurd hp (hs.phase_ne rfl rfl)
  | decChunk _ _ _ hp => exact absurd hp (hs.phase_ne rfl rfl)
  | decEnd hp => exact absurd hp (hs.phase_ne rfl rfl)
  | decTrailer => nofun
  | peek => nofun
  | _ => simp [busy, Phase.busy]

/-- A step of an encode pass over the same pixels does the same. -/
theorem SamePixels.engineStep {h s : State} (hs : SamePixels h s) (hp : EncodePass s) :
    engineStep (withHostOf h s) = mapNext (withHostOf h) (engineStep s) := by
  rw [Machine.engineStep, Machine.engineStep, withHostOf_phase]
  cases hph : s.phase with
  | idle => rfl
  | done => rfl
  | error => rfl
  | encHdr => exact hs.encHeaderStep
  | encBody =>
    obtain ⟨hn, -, -⟩ := hp.inv.sized (by rw [hph]; rfl)
    by_cases hc : s.cur.toNat < s.n.toNat
    · exact (if_pos hc).trans ((hs.encChunkStep hn hc).trans (congrArg (mapNext _) (if_pos hc).symm))
    · refine (if_neg hc).trans (Eq.trans ?_ (congrArg (mapNext _) (if_neg hc).symm))
      rfl
  | encTrl => exact encTrailerStep_withHostOf h s
  | decHdr => exact absurd hph (hp.phase_ne rfl rfl)
  | decBody => exact absurd hph (hp.phase_ne rfl rfl)
  | decTrl => exact absurd hph (hp.phase_ne rfl rfl)
  | peekHdr => exact absurd hph (hp.phase_ne rfl rfl)

/-- The engine writes nothing of the image in an encode pass, so its pixels stay the same in both. -/
theorem SamePixels.move {h s t : State} (hs : SamePixels h s) (hp : EncodePass s) (hmove : EngineMove s t) :
    SamePixels h t := by
  obtain ⟨hw, hh, -, -⟩ := hmove.header_eq (hp.phase_ne rfl rfl) (hp.phase_ne rfl rfl)
  obtain ⟨hfits, hfitsToo, hpixels⟩ := hs
  constructor <;> rw [hw, hh]
  · rwa [hmove.sameHostSide.rcap]
  · exact hfitsToo
  · rwa [hmove.raster_eq (hp.phase_ne rfl rfl)]

/-- A run of an encode pass over the same pixels does the same. -/
theorem SamePixels.run {k : Nat} {h s t : State} (hs : SamePixels h s) (hp : EncodePass s)
    (hrun : Host.Core.run core k s = .next t) : Host.Core.run core k (withHostOf h s) = .next (withHostOf h t) := by
  induction k generalizing s with
  | zero => cases hrun; rfl
  | succ k ih =>
    obtain ⟨u, hu, hrest⟩ := run_succ_next hrun
    have hmove := engineMove_of_step hp.alone hu
    have hstep : Machine.engineStep (withHostOf h s) = .next (withHostOf h u) := by
      rw [hs.engineStep hp, ← step_alone hp.alone, hu, mapNext]
    exact (run_succ_of_next ((step_alone (s := withHostOf h s) hp.alone).trans hstep) k).trans
      (ih (hs.move hp hmove) (hp.move hmove) hrest)

/-! The start of the pass. -/

/-- R300, R306: outside PHASE = ERROR the error record is empty. -/
theorem Inv.empty_record {s : State} (hi : Inv s) (hp : s.phase ≠ .error) :
    s.errCode = none ∧ s.posValid = false ∧ s.errX = 0 ∧ s.errY = 0 := by
  have hcode : s.errCode = none := by
    have := mt hi.errorIff.mp hp
    simpa using this
  have hvalid : s.posValid = false := by
    by_contra hno
    have := hi.position (by simpa using hno)
    simp [hcode] at this
  exact ⟨hcode, hvalid, hi.noPosition hvalid⟩

/-- R200, R268: two encode passes at their header steps that agree on their operands, MAGIC and the output port differ in the
host's side alone. -/
theorem withHostOf_eq_of_operands {s t : State} (hs : Inv s) (ht : Inv t) (hps : s.phase = .encHdr) (hpt : t.phase = .encHdr)
    (hev : t.events = s.events) (hw : t.width = s.width) (hh : t.height = s.height) (hch : t.channels = s.channels)
    (hmagic : t.magic = s.magic) (houtErr : t.outErr = s.outErr) (hout : t.output = s.output) : withHostOf t s = t := by
  obtain ⟨hcurS, hbytesS, hnS, hprevS, hcacheS⟩ := hs.fresh (by rw [hps]; rfl)
  obtain ⟨hcurT, hbytesT, hnT, hprevT, hcacheT⟩ := ht.fresh (by rw [hpt]; rfl)
  obtain ⟨hcodeS, hvalidS, hxS, hyS⟩ := hs.empty_record (by simp [hps])
  obtain ⟨hcodeT, hvalidT, hxT, hyT⟩ := ht.empty_record (by simp [hpt])
  rw [withHostOf, ← hw, ← hh, ← hch, ← hmagic, ← houtErr, ← hout, ← hev, hps, ← hpt, hcurS, ← hcurT, hbytesS, ← hbytesT, hnS,
    ← hnT, hprevS, ← hprevT, hcacheS, ← hcacheT, hcodeS, ← hcodeT, hvalidS, ← hvalidT, hxS, ← hxT, hyS, ← hyT]

/-- Settles O58: the two passes differ in the host's side alone, and run alike over the same pixels. -/
theorem encodeDependsOnlyOnOperands : Obligations.EncodeDependsOnlyOnOperands := by
  unfold Obligations.EncodeDependsOnlyOnOperands
  intro k s t s' hs ht hps hpt hes het hw hh hch hmagic houtErr hout hfits hfitsToo hpixels hrun
  have hside := withHostOf_eq_of_operands hs ht hps hpt (het.trans hes.symm) hw hh hch hmagic houtErr hout
  have hpass : EncodePass s := ⟨hs, hes, fun _ => by rw [hps]; rfl⟩
  have hrunT := SamePixels.run (h := t) ⟨hfits, hfitsToo, hpixels⟩ hpass hrun
  rw [hside] at hrunT
  exact ⟨withHostOf t s', hrunT, rfl, rfl, rfl, rfl, rfl, fun _ => ⟨rfl, rfl, rfl⟩⟩

end Sys2Proof.Machine

end

/-! PROOFS. The register window, the commands, and the host's accesses (10_state.md section 4; 44_control.md; 20_memory.md R65,
R76), settled as O40 to O43 and O46 to O48. -/

section

namespace Sys2Proof.Machine

open Sys2Proof

/-! The two halves of a 64-bit register (R35, R36). -/

theorem lowHalf_toNat (v : Count) : (v.extractLsb' 0 32).toNat = v.toNat % 2 ^ 32 := by
  rw [BitVec.extractLsb'_toNat, Nat.shiftRight_zero]

theorem highHalf_toNat (v : Count) : (v.extractLsb' 32 32).toNat = v.toNat / 2 ^ 32 := by
  have hv := v.isLt
  rw [BitVec.extractLsb'_toNat, Nat.shiftRight_eq_div_pow]
  omega

/-- A 64-bit value put together from its halves. -/
theorem halves_eq_ofNat (hi lo : Word) : hi ++ lo = BitVec.ofNat 64 (hi.toNat * 2 ^ 32 + lo.toNat) := by
  have hhi := hi.isLt
  have hlo := lo.isLt
  apply BitVec.eq_of_toNat_eq
  rw [toNat_fields, BitVec.toNat_ofNat]
  omega

theorem lowHalf_append (hi lo : Word) : (hi ++ lo : Count).extractLsb' 0 32 = lo := by
  have hlo := lo.isLt
  apply BitVec.eq_of_toNat_eq
  rw [lowHalf_toNat, toNat_fields]
  omega

theorem highHalf_append (hi lo : Word) : (hi ++ lo : Count).extractLsb' 32 32 = hi := by
  have hlo := lo.isLt
  apply BitVec.eq_of_toNat_eq
  rw [highHalf_toNat, toNat_fields]
  omega

/-! Register reads and writes (R30 to R37, R260, R261). -/

/-- R33: HDR_INFO holds CHANNELS in its low byte and COLORSPACE in the next. -/
theorem hdrInfo_toNat (s : State) : (readReg .hdrInfo s).toNat = s.colorspace.toNat * 2 ^ 8 + s.channels.toNat := by
  simp only [readReg, toNat_fields, BitVec.toNat_ofNat, Nat.zero_mod, Nat.zero_mul, Nat.zero_add]

/-- R30: CTRL reads IRQ_EN in bit 8. -/
theorem ctrl_toNat (s : State) : (readReg .ctrl s).toNat = s.irqEn.toNat * 2 ^ 8 := by
  rw [readReg]
  cases s.irqEn <;> rfl

/-- Settles O40: offset by offset of the register table. -/
theorem registerReads : Obligations.RegisterReads := by
  unfold Obligations.RegisterReads
  intro s
  exact ⟨ctrl_toNat s, rfl, rfl, hdrInfo_toNat s, rfl, rfl, lowHalf_toNat _, highHalf_toNat _, lowHalf_toNat _,
    highHalf_toNat _, lowHalf_toNat _, highHalf_toNat _⟩

section NotBusy

variable {s : State} (hb : busy s = false) (v : Word)

include hb

/-! What a configuration write does while not BUSY (R32, R33, R35). -/

theorem regWrite_width : regWrite 0x08 v s = s.setWidth v := if_neg (by simp [hb])

theorem regWrite_height : regWrite 0x0C v s = s.setHeight v := if_neg (by simp [hb])

theorem regWrite_hdrInfo : regWrite 0x10 v s = s.setChannels (v.extractLsb' 0 8) := if_neg (by simp [hb])

theorem regWrite_rcapLo : regWrite 0x1C v s = s.setRcap (s.rcap.extractLsb' 32 32 ++ v) := if_neg (by simp [hb])

theorem regWrite_rcapHi : regWrite 0x20 v s = s.setRcap (v ++ s.rcap.extractLsb' 0 32) := if_neg (by simp [hb])

end NotBusy

/-- R270: while BUSY a configuration write has no effect. -/
theorem regWrite_config_busy {s : State} (hb : busy s = true) (v : Word) {off : Nat}
    (h : off ∈ [0x08, 0x0C, 0x10, 0x1C, 0x20]) : regWrite off v s = s := by
  simp only [List.mem_cons, List.not_mem_nil, or_false] at h
  rcases h with rfl | rfl | rfl | rfl | rfl <;> exact if_pos hb

/-- Settles O41: each write by its equation, the halves of RCAP by their arithmetic. -/
theorem configurationWrites : Obligations.ConfigurationWrites := by
  unfold Obligations.ConfigurationWrites
  intro s v
  refine ⟨fun hb => ?_, fun hb off => regWrite_config_busy hb v⟩
  rw [regWrite_width hb, regWrite_height hb, regWrite_hdrInfo hb, regWrite_rcapLo hb, regWrite_rcapHi hb]
  refine ⟨rfl, rfl, rfl, ?_, ?_, rfl, rfl, lowHalf_append _ v, highHalf_append v _, highHalf_append _ v,
    lowHalf_append v _⟩
  · rw [halves_eq_ofNat, highHalf_toNat]
  · rw [halves_eq_ofNat, lowHalf_toNat]

/-- Settles O42: the read-only registers ignore writes, and from 0x34 on no register is mapped. -/
theorem readOnlyAndUnmapped : Obligations.ReadOnlyAndUnmapped := by
  unfold Obligations.ReadOnlyAndUnmapped
  intro s v off
  refine ⟨fun h => ?_, fun h _ _ => ?_⟩
  · simp only [List.mem_cons, List.not_mem_nil, or_false] at h
    rcases h with rfl | rfl | rfl | rfl | rfl | rfl | rfl <;> rfl
  · simp [regWrite, regRead, regAt_unmapped h]

/-! Commands (R262 to R269). -/

theorem command_of_busy {s : State} (hb : busy s = true) (c : BitVec 3) : command c s = s := if_pos hb

section Commands

variable {s : State} (hb : busy s = false)

include hb

theorem command_encode : command 1 s = startEncode s := by simp [command, hb]
theorem command_decode : command 2 s = startDecode s := by simp [command, hb]
theorem command_peek : command 3 s = startPeek s := by simp [command, hb]
theorem command_clear : command 4 s = clear s := by simp [command, hb]

end Commands

/-- R267: no command writes IRQ_EN, the configuration registers, the raster or the input. -/
theorem command_keeps (c : BitVec 3) (s : State) :
    (command c s).irqEn = s.irqEn ∧ (command c s).width = s.width ∧ (command c s).height = s.height
      ∧ (command c s).channels = s.channels ∧ (command c s).colorspace = s.colorspace ∧ (command c s).rcap = s.rcap
      ∧ (command c s).raster = s.raster ∧ (command c s).input = s.input := by
  obtain e | ⟨-, ⟨-, e⟩ | ⟨-, e⟩ | ⟨-, e⟩ | ⟨-, e⟩⟩ := command_cases c s <;> rw [e] <;>
    exact ⟨rfl, rfl, rfl, rfl, rfl, rfl, rfl, rfl⟩

/-- Settles O43: a CTRL write is its command on the state with IRQ_EN set. -/
theorem commandAcceptance : Obligations.CommandAcceptance := by
  unfold Obligations.CommandAcceptance
  intro s v c t u
  have hu : u = command (v.extractLsb' 0 3) t := regWrite_ctrl v s
  have hcode : ∀ k : BitVec 3, c = k.toNat → u = command k t := fun k hk => by
    rw [hu, BitVec.eq_of_toNat_eq hk]
  refine ⟨fun hb => hu.trans (command_of_busy (s := t) hb _), fun hb => ⟨?_, ?_, ?_, ?_, ?_⟩, hu ▸ command_keeps _ t⟩
  · intro hc
    have he := (hcode 1 hc).trans (command_encode (s := t) hb)
    exact ⟨he, he⟩
  · intro hc
    have he := (hcode 2 hc).trans (command_decode (s := t) hb)
    exact ⟨he, he⟩
  · intro hc
    have he := (hcode 3 hc).trans (command_peek (s := t) hb)
    exact ⟨he, he⟩
  · exact fun hc => (hcode 4 hc).trans (command_clear (s := t) hb)
  · exact fun hc => hu.trans (command_of_no_command hc t)

/-! Reset (R340). -/

/-- The reset state is what a reset makes of it. -/
theorem hardReset_reset : hardReset State.reset = State.reset := rfl

/-- Settles O46: the reset state reads as every state after a reset. -/
theorem resetRegisters : Obligations.ResetRegisters := by
  unfold Obligations.ResetRegisters
  refine ⟨fun off => ?_, ?_, rfl, fun s => ⟨rfl, rfl, rfl⟩⟩
  · rw [← hardReset_reset]
    exact regRead_hardReset State.reset off
  · rw [step_alone rfl]
    exact engineStep_idle rfl

/-! Register accesses as events (R65, R260, R261). -/

theorem regAccess_of_word {off size : Nat} (h4 : size = 4) (ha : off % 4 = 0) (hw : off < 0x100) (t : State) :
    regAccess off size t = .next t := by
  rw [regAccess, if_neg (by simp [wordAccess, h4, ha]), if_neg (by simpa using hw)]

theorem regAccess_of_no_word {off size : Nat} (h : size ≠ 4 ∨ off % 4 ≠ 0) (t : State) :
    regAccess off size t = .refused .registerAccess :=
  if_pos (by simpa [wordAccess, imp_iff_not_or] using h)

theorem regAccess_outside {off size : Nat} (h4 : size = 4) (ha : off % 4 = 0) (hw : 0x100 ≤ off) (t : State) :
    regAccess off size t = .refused .outsideWindow := by
  rw [regAccess, if_neg (by simp [wordAccess, h4, ha]), if_pos hw]

/-- Settles O47: reads and writes are the same access with another effect. -/
theorem registerAccessEvents : Obligations.RegisterAccessEvents := by
  unfold Obligations.RegisterAccessEvents
  intro s off size es
  refine ⟨fun hev => ?_, fun v hev => ?_⟩
  · rw [step_event hev, eventStep, hostRegRead]
    exact ⟨fun h4 ha hw => regAccess_of_word h4 ha hw _, fun h => regAccess_of_no_word h _,
      fun h4 ha hw => regAccess_outside h4 ha hw _⟩
  · rw [step_event hev, eventStep, hostRegWrite]
    exact ⟨fun h4 ha hw => regAccess_of_word h4 ha hw _, fun h => regAccess_of_no_word h _,
      fun h4 ha hw => regAccess_outside h4 ha hw _⟩

/-! The host's accesses to its raster and to the streams (R76, R274, R347). -/

/-- R28: the phases of a decode pass. -/
def Decoding (s : State) : Prop := s.phase = .decHdr ∨ s.phase = .decBody ∨ s.phase = .decTrl

/-- R61: a pixel of a busy decode pass, by its index. -/
theorem inDecodeRaster_iff_decoding (i : Count) (s : State) :
    inDecodeRaster i s = true ↔ Decoding s ∧ (s.phase = .decHdr ∨ i.toNat < s.n.toNat) := by
  rw [inDecodeRaster_iff, Decoding]
  tauto

/-- R76: the pixels that a host read does not find finished. -/
theorem unfinishedPixel_iff_decoding (i : Count) (s : State) :
    unfinishedPixel i s = true ↔ Decoding s ∧ (s.phase = .decHdr ∨ i.toNat < s.n.toNat) ∧ s.cur.toNat ≤ i.toNat := by
  rw [unfinishedPixel, Bool.and_eq_true, inDecodeRaster_iff_decoding, decide_eq_true_iff, and_assoc]

/-- R63, R347: the phases in which the input stream is bound for the pass. -/
theorem busy_not_encoding_iff (s : State) :
    (busy s && !s.phase.encoding) = true ↔ Decoding s ∨ s.phase = .peekHdr := by
  cases hp : s.phase <;> simp [busy, Phase.busy, Phase.encoding, Decoding, hp]

theorem hostRasterRead_finished {i : Count} {s : State} (h : unfinishedPixel i s = false) :
    hostRasterRead i s = .next (s.setLastRead (some (.pixel (readPixel s.raster i.toNat)))) :=
  if_neg (by simp [h])

theorem hostOutputRead_written {k : Nat} {s : State} (h : k < s.output.length) :
    hostOutputRead k s = .next (s.setLastRead (some (.byte s.output[k]))) := by
  rw [hostOutputRead, List.getElem?_eq_getElem h]

/-- R64: a pixel write leaves every other pixel alone. -/
theorem readPixel_writePixel_ne (m : Memory) (px : Pixel) {i j : Nat} (h : j ≠ i) :
    readPixel (writePixel m i px) j = readPixel m j :=
  readPixel_congr _ _ _ fun _ _ _ => read_writePixel_outside _ _ _ _ (by omega)

theorem hostRasterWrite_permitted {i : Count} {px : Pixel} {s : State} (he : inEncodeRaster i s = false)
    (hd : inDecodeRaster i s = false) :
    hostRasterWrite i px s = .next (s.setRaster (writePixel s.raster i.toNat px)) := by
  rw [hostRasterWrite, if_neg (by simp [he]), if_neg (by simp [hd])]

/-- R29: an encode pass is no decode pass. -/
theorem Decoding.not_encoding {s : State} (h : Decoding s) : s.phase.encoding = false := by
  rcases h with h | h | h <;> rw [h] <;> rfl

/-- Settles O48: each event by the test its move makes. -/
theorem hostAccess : Obligations.HostAccess := by
  unfold Obligations.HostAccess
  intro s es decoding
  refine ⟨fun i hev => ?_, fun k hev => ?_, fun i px hev => ?_, fun bs e hev => ?_, fun e hev => ?_⟩ <;>
    rw [step_event hev, eventStep]
  · have hiff := unfinishedPixel_iff_decoding i (s.setEvents es)
    refine ⟨fun h => ?_, fun hd hcur hin => if_pos (hiff.mpr ⟨hd, hin, hcur⟩)⟩
    refine hostRasterRead_finished (s := s.setEvents es) (Bool.eq_false_iff.mpr fun hno => ?_)
    obtain ⟨hd, hin, hcur⟩ := hiff.mp hno
    simp only [State.setEvents_phase, State.setEvents_n, State.setEvents_cur] at hin hcur
    rcases h with h | h | ⟨hp, h⟩
    · exact h hd
    · omega
    · exact absurd (hin.resolve_left hp) (by omega)
  · refine ⟨fun h => hostOutputRead_written (s := s.setEvents es) h, fun h henc => ?_, fun h henc => ?_⟩ <;>
      simp [hostOutputRead, h, henc]
  · have hdiff := inDecodeRaster_iff_decoding i (s.setEvents es)
    have heiff := inEncodeRaster_iff i (s.setEvents es)
    refine ⟨fun henc hin => if_pos (heiff.mpr ⟨henc, hin⟩), fun hd hin => ?_, fun henc hd hw => ?_⟩
    · have hno : inEncodeRaster i (s.setEvents es) = false := by
        simp [inEncodeRaster, Decoding.not_encoding hd]
      rw [hostRasterWrite, hno]
      exact if_pos (hdiff.mpr ⟨hd, hin⟩)
    · refine ⟨_, hostRasterWrite_permitted (s := s.setEvents es) ?_ ?_, rfl, readPixel_writePixel_self _ _ _ hw,
        fun j hj => readPixel_writePixel_ne _ _ hj⟩
      · refine Bool.eq_false_iff.mpr fun hno => ?_
        obtain ⟨he, hin⟩ := heiff.mp hno
        exact absurd (henc he) (Nat.not_le.mpr hin)
      · refine Bool.eq_false_iff.mpr fun hno => ?_
        obtain ⟨hdec, hin⟩ := hdiff.mp hno
        obtain ⟨hp, hn⟩ := hd hdec
        exact absurd (hin.resolve_left hp) (Nat.not_lt.mpr hn)
  · have hiff := busy_not_encoding_iff (s.setEvents es)
    exact ⟨fun h => if_pos (hiff.mpr h), fun h => if_neg fun hno => h (hiff.mp hno)⟩
  · exact ⟨fun h => if_pos h, fun h => if_neg (by simp [h])⟩

end Sys2Proof.Machine

end
